-- ==== Sys2Proof/Word.lean ====
section
/-! DEFINITION. The unsigned words of the core and the records of its tables (`00_scope.md` R8, R11; `10_state.md` R30). -/

namespace Sys2Proof

/-- A byte, and a symbol: `SYM_W` = 8 bits (`00_scope.md` R7, R11). -/
abbrev Byte := BitVec 8

/-- One frequency count: `CNT_W` = 32 bits (`00_scope.md` R8). -/
abbrev Count := BitVec 32

/-- A node weight, and `TOTAL`: `WT_W` = 40 bits (`00_scope.md` R8). -/
abbrev Weight := BitVec 40

/-- The input pointer: `PTR_W` = 40 bits (`00_scope.md` R8). -/
abbrev Ptr := BitVec 40

/-- A node index: `IDX_W` = 9 bits (`00_scope.md` R8). -/
abbrev Idx := BitVec 9

/-- A command word (`30_encoding.md` R90). -/
abbrev CmdWord := BitVec 16

/-- What a register read returns: the widest register of the port, `CTBITS`, has 255 bits; a narrower one reads with zeros above
its width (`10_state.md` R33). -/
abbrev PortData := BitVec 255

/-- A bit string: element 0 is the bit that is written or read first (`00_scope.md` R11). -/
abbrev Bits := List Bool

/-- One record of the node arena (`10_state.md` R30). -/
structure NodeRec where
  leaf  : Bool
  val   : Byte
  wt    : Weight
  left  : Idx
  right : Idx
  deriving DecidableEq, Repr, Inhabited

/-- The all-zero node record that reset and `CLR` write (`10_state.md` R38, `40_control.md` R121). -/
def NodeRec.zero : NodeRec := { leaf := false, val := 0#8, wt := 0#40, left := 0#9, right := 0#9 }

end Sys2Proof
end

