-- ==== Sys2Proof/Config.lean ====
section
/-! DEFINITION. The parameters of the implementation, at the spec's defaults (`00_scope.md` R7, R8; log 9), and the FREE VALUES:
constants with no body, one for every kind of value the spec leaves unspecified (`10_state.md` R39, `60_exceptions.md` R270,
`93_implementation_defined.md` U2 to U5, U7). -/

namespace Sys2Proof.Config

/-- Entries of the node arena, `NODE_MAX` (`00_scope.md` R8). -/
abbrev nodeMax : Nat := 511

/-- The alphabet size, `NSYM` (`00_scope.md` R7). -/
abbrev nsym : Nat := 256

/-- The greatest code length, `CODE_MAX` (`00_scope.md` R8). -/
abbrev codeMax : Nat := 255

/-- The greatest count, `2^CNT_W - 1` (`41_frequency_counter.md` R131). -/
def countMax : Count := BitVec.allOnes 32

/-- `2^PTR_W`: a bound input is shorter than this (`20_memory.md` R62). -/
abbrev inputLimit : Nat := 2 ^ 40

/-- The boundary marker, `MARKER` (`00_scope.md` R7). -/
def marker : List Byte := [0x40#8, 0x23#8, 0x24#8]

/-- Nested calls that `Ser` and `Gen` may make: a leaf of a well-formed tree has depth at most 255 (`10_state.md` R34 item 4),
so 256 calls stand on one path. DEDUCED, log 11. -/
abbrev treeFuel : Nat := 256

/-- Nested calls that `Des` may make: every call but the last has allocated a node, and the one that finds 511 nodes raises
(`44_tree_serdes.md` R175, R176). DEDUCED, log 11. -/
abbrev desFuel : Nat := 512

/-- Merges that `TBUILD` may make: 256 leaves at most (`42_tree_builder.md` R145). DEDUCED, log 11. -/
abbrev mergeFuel : Nat := 255

/-! Free values. Each takes the number of the free value (State's counter), so two uses are unrelated. Log 4 and log 7. -/

/-- Any value: `FT` after a fault (`60_exceptions.md` R270). -/
opaque freeFreqTable : Nat → Vector Count 256

/-- Any value: `TOTAL` after a fault (`60_exceptions.md` R270). -/
opaque freeTotal : Nat → Weight

/-- Any value: `NODE` after a fault (`60_exceptions.md` R270). -/
opaque freeNodes : Nat → Vector NodeRec 511

/-- Any value: `NCNT` after a fault (`60_exceptions.md` R270). -/
opaque freeNodeCount : Nat → Fin 512

/-- Any value: `ROOT` after a fault (`60_exceptions.md` R270). -/
opaque freeRoot : Nat → Idx

/-- Any value: `POS` after a fault (`60_exceptions.md` R270). -/
opaque freePos : Nat → Idx

/-- Any value: `CT` after a fault (`60_exceptions.md` R270). -/
opaque freeCodeTable : Nat → Vector (Option Bits) 256

/-- Any value: `ACC` after a fault (`60_exceptions.md` R270). -/
opaque freeAcc : Nat → Byte

/-- Any value: `WCNT` after a fault (`60_exceptions.md` R270). -/
opaque freeWriteCount : Nat → Fin 8

/-- Any value: `CUR` after a fault (`60_exceptions.md` R270). -/
opaque freeCur : Nat → Byte

/-- Any value: `RPOS` after a fault (`60_exceptions.md` R270). -/
opaque freeReadPos : Nat → Fin 9

/-- Any value: the bits of a register read that the spec calls unspecified (`10_state.md` R33, R39). -/
opaque freeRead : Nat → PortData

end Sys2Proof.Config
end

