-- ==== Sys2Proof/Syntax.lean ====
section
/-! DEFINITION. The commands of HTB-1, one constructor per row of the command table (`30_encoding.md` R96), and the actions of
the host (`70_reset_and_hazards.md` R296). -/

namespace Sys2Proof

/-- The 19 commands of HTB-1. The only operand is the bit of `WBIT` (`30_encoding.md` R93); each command's rule is named. -/
inductive Instr where
  /-- Nothing (`40_control.md` R120). -/
  | nop
  /-- Soft reset (`40_control.md` R121). -/
  | clr
  /-- Move the input pointer to the first byte (`40_control.md` R122). -/
  | rewind
  /-- Frequency Counter (`41_frequency_counter.md` R130). -/
  | fcnt
  /-- Tree Builder (`42_tree_builder.md` R140). -/
  | tbuild
  /-- Code Table Generator (`43_code_table.md` R160). -/
  | ctgen
  /-- Tree Serializer (`44_tree_serdes.md` R170). -/
  | tser
  /-- Tree Deserializer (`44_tree_serdes.md` R174). -/
  | tdes
  /-- Write one bit (`45_bit_writer.md` R192). -/
  | wbit (b : Bool)
  /-- Flush the writer (`45_bit_writer.md` R194). -/
  | wflush
  /-- Read one bit (`46_bit_reader.md` R206). -/
  | rbit
  /-- Emit the marker (`47_encoder.md` R215). -/
  | wmark
  /-- Payload emission (`47_encoder.md` R216). -/
  | emit
  /-- The whole Encoder (`47_encoder.md` R217). -/
  | encode
  /-- Seed the reader (`48_decoder.md` R235). -/
  | rseed
  /-- Discard the rest of the current byte (`48_decoder.md` R236). -/
  | ralign
  /-- Skip the marker (`48_decoder.md` R237). -/
  | rskip3
  /-- Payload walk (`48_decoder.md` R238). -/
  | walk
  /-- The whole Decoder (`48_decoder.md` R241). -/
  | decode
  deriving DecidableEq, Repr

/-- What the host can do, between commands (`70_reset_and_hazards.md` R296). -/
inductive HostAction where
  /-- Write a word to the register of this number; only `CMD` takes it (`10_state.md` R33). -/
  | write (reg : Nat) (word : CmdWord)
  /-- Read the register of this number (`10_state.md` R33). -/
  | read (reg : Nat)
  /-- Attach a new input and an empty output (`20_memory.md` R61). -/
  | bind (bytes : List Byte)
  /-- Look at the sink's contents; it does not consume them (`70_reset_and_hazards.md` R296). -/
  | takeOut
  /-- Hardware reset (`70_reset_and_hazards.md` R290). -/
  | hardReset
  deriving DecidableEq, Repr

end Sys2Proof
end

