-- ==== Sys2Proof/WellFormed.lean ====
section
/-! DEFINITION. Which commands and host actions the spec admits. -/

namespace Sys2Proof

/-- Every term of `Instr` is a command: the one operand there is, the bit of `WBIT`, has the type of a bit, so no operand can be
out of range (`30_encoding.md` R93). Illegal WORDS are refused by the decoder (`30_encoding.md` R95). -/
def Instr.wf : Instr → Bool
  | .nop => true
  | .clr => true
  | .rewind => true
  | .fcnt => true
  | .tbuild => true
  | .ctgen => true
  | .tser => true
  | .tdes => true
  | .wbit _ => true
  | .wflush => true
  | .rbit => true
  | .wmark => true
  | .emit => true
  | .encode => true
  | .rseed => true
  | .ralign => true
  | .rskip3 => true
  | .walk => true
  | .decode => true

/-- The launch premise on a bind: the input is shorter than `2^PTR_W` bytes (`20_memory.md` R62). Every other action of the host
is allowed between commands (`70_reset_and_hazards.md` R296). -/
def HostAction.wf : HostAction → Bool
  | .write _ _ => true
  | .read _ => true
  | .bind bytes => decide (bytes.length < Config.inputLimit)
  | .takeOut => true
  | .hardReset => true

end Sys2Proof
end

