-- ==== Sys2Proof/Decode.lean ====
section
/-! DEFINITION. The command decoder, total on all 65,536 words, and the encoder (`30_encoding.md` R90 to R96). -/

namespace Sys2Proof

/-- Why a word is illegal (`30_encoding.md` R95 lists the three ways). All three raise `IllegalCommand`. -/
inductive Illegal where
  /-- The opcode is not listed in R96. -/
  | unlistedOpcode
  /-- A listed format-N opcode with a non-zero operand. -/
  | operandNotZero
  /-- `WBIT` with one of `operand[7:1]` set. -/
  | reservedOperandBit
  deriving DecidableEq, Repr

/-- The opcode field, `[15:8]` (`30_encoding.md` R90). -/
def opcodeOf (w : CmdWord) : BitVec 8 := w.extractLsb' 8 8

/-- The operand field, `[7:0]` (`30_encoding.md` R90). -/
def operandOf (w : CmdWord) : BitVec 8 := w.extractLsb' 0 8

/-- One row of the command table: a word `w` selects it iff `(w & mask) = pattern` (`30_encoding.md` R94). -/
structure Row where
  pattern : CmdWord
  mask    : CmdWord
  instr   : CmdWord → Instr

/-- A format-N row: the whole word is fixed (`30_encoding.md` R91). -/
def rowN (opcode : BitVec 8) (i : Instr) : Row :=
  { pattern := opcode ++ 0x00#8, mask := 0xFFFF#16, instr := fun _ => i }

/-- The format-B row: bit 0 is the operand, bits 7 to 1 are zero (`30_encoding.md` R92). -/
def rowB (opcode : BitVec 8) (i : Bool → Instr) : Row :=
  { pattern := opcode ++ 0x00#8, mask := 0xFFFE#16, instr := fun w => i (w.getLsbD 0) }

/-- The command table (`30_encoding.md` R96). -/
def rows : List Row :=
  [ rowN 0x00#8 .nop, rowN 0x01#8 .clr, rowN 0x02#8 .rewind, rowN 0x10#8 .fcnt, rowN 0x20#8 .tbuild, rowN 0x30#8 .ctgen ] ++
  [ rowN 0x40#8 .tser, rowN 0x50#8 .tdes, rowB 0x60#8 .wbit, rowN 0x61#8 .wflush, rowN 0x70#8 .rbit, rowN 0x80#8 .wmark ] ++
  [ rowN 0x81#8 .emit, rowN 0x8F#8 .encode, rowN 0x90#8 .rseed, rowN 0x91#8 .ralign, rowN 0x92#8 .rskip3, rowN 0x93#8 .walk,
    rowN 0x9F#8 .decode ]

/-- Does the word select the row (`30_encoding.md` R94)? -/
def Row.selects (r : Row) (w : CmdWord) : Bool := (w &&& r.mask) == r.pattern

/-- Which of R95's three ways a word that matches no row is illegal. -/
def whyIllegal (w : CmdWord) : Illegal :=
  if opcodeOf w = 0x60#8 then .reservedOperandBit
  else if rows.any (fun r => r.selects (opcodeOf w ++ 0x00#8)) then .operandNotZero
  else .unlistedOpcode

/-- Decode a command word (`30_encoding.md` R94). -/
def decode (w : CmdWord) : Except Illegal Instr :=
  match rows.find? (fun r => r.selects w) with
  | some r => .ok (r.instr w)
  | none => .error (whyIllegal w)

/-- The opcode of a command (`30_encoding.md` R96). -/
def opcode : Instr → BitVec 8
  | .nop => 0x00#8
  | .clr => 0x01#8
  | .rewind => 0x02#8
  | .fcnt => 0x10#8
  | .tbuild => 0x20#8
  | .ctgen => 0x30#8
  | .tser => 0x40#8
  | .tdes => 0x50#8
  | .wbit _ => 0x60#8
  | .wflush => 0x61#8
  | .rbit => 0x70#8
  | .wmark => 0x80#8
  | .emit => 0x81#8
  | .encode => 0x8F#8
  | .rseed => 0x90#8
  | .ralign => 0x91#8
  | .rskip3 => 0x92#8
  | .walk => 0x93#8
  | .decode => 0x9F#8

/-- The operand byte of a command (`30_encoding.md` R91, R92). -/
def operand : Instr → BitVec 8
  | .wbit b => (BitVec.ofBool b).setWidth 8
  | .nop | .clr | .rewind | .fcnt | .tbuild | .ctgen | .tser | .tdes | .wflush | .rbit | .wmark | .emit | .encode
  | .rseed | .ralign | .rskip3 | .walk | .decode => 0x00#8

/-- The word of a command (`30_encoding.md` R90). -/
def encode (i : Instr) : CmdWord := opcode i ++ operand i

/-- Bit `k` of the table's numbering is bit `k` of the one command word, since every command is one word. Bits at and above
`nbits` are zero; a number of more than 16 bits is no command word. Log 18. -/
def tableWord (nbits w : Nat) : Option CmdWord :=
  if w % 2 ^ nbits < 2 ^ 16 then some (BitVec.ofNat 16 (w % 2 ^ nbits)) else none

/-- The instruction the decoder reads from the table's word. -/
def decodeTableWord (nbits w : Nat) : Option Instr :=
  match tableWord nbits w with
  | none => none
  | some word =>
    match decode word with
    | .ok i => some i
    | .error _ => none

end Sys2Proof
end

