-- ==== Sys2Proof/Machine/State.lean ====
section
/-! DEFINITION. The state of the core (`10_state.md` R20), the streams of the run, the host's pending actions, the reasons a step
can stop, and the state after hardware reset (`10_state.md` R38). -/

namespace Sys2Proof.Machine

/-- The core's fault codes: the content of `ERR` (`60_exceptions.md` R261). Codes 9 to 15 are never written. These are events of
the hardware; taking one is a next state. -/
inductive FaultCode where
  /-- No fault since reset or `CLR`: code 0. -/
  | none
  /-- Code 1: nothing to build a tree from. -/
  | emptyInput
  /-- Code 2: the input ends inside the tree or the marker, or a 1 bit is walked at a leaf root. -/
  | corruptStream
  /-- Code 3: a reader command found no byte. -/
  | endOfStream
  /-- Code 4: a command that reads the tree was issued with `TV = 0`. -/
  | noTree
  /-- Code 5: `EMIT` with no code table, or a byte with no code. -/
  | noCode
  /-- Code 6: the serialized tree has more than 511 nodes. -/
  | treeTooLarge
  /-- Code 7: a count would exceed `2^CNT_W - 1`. -/
  | countOverflow
  /-- Code 8: a word that matches no command. -/
  | illegalCommand
  deriving DecidableEq, Repr

/-- Why the MODEL stops where the spec gives no behaviour at all. -/
inductive Fault where
  /-- Raised by `CTGEN`, `TSER` and `WALK` (and by `TBUILD` where its queue is empty, which no state makes it be) when `TV = 1` but
  the arena is not a tree of `10_state.md` R34. The spec says this never is (R34), so it gives no effect. Safe: no run from reset
  reaches it, and where it stands the model stops. Log 10. -/
  | malformedArena
  deriving DecidableEq, Repr

/-- Why the model refuses. -/
inductive Refusal where
  /-- Raised by `exec` for an instruction that has no meaning yet. Safe: the model stops. -/
  | notModelled (mnemonic : String)
  /-- Raised by the host action `Bind` with a sequence of `2^PTR_W` bytes or more: "a bind with a longer sequence is outside the
  spec: the model should refuse it" (`20_memory.md` R62, `93_implementation_defined.md` U6). Safe: the model stops. Log 8. -/
  | bindTooLong
  deriving DecidableEq, Repr

/-- The whole state. INVENTORY.md lists each field with its rule and its reset value. -/
@[ext]
structure State where
  /-- `IN`: the bound input sequence, a parameter of the run (`10_state.md` R21; log 3). -/
  inp : List Byte
  /-- `IPTR`: bytes of `IN` consumed (`10_state.md` R26). -/
  iptr : Ptr
  /-- `OUT`: every byte emitted since the last bind (`10_state.md` R20). -/
  out : List Byte
  /-- `FT`: the Frequency Table (`10_state.md` R29). -/
  ft : Vector Count 256
  /-- `TOTAL`: the byte count of the last scan (`10_state.md` R29). -/
  total : Weight
  /-- `NODE`: the arena's records; those at and above `NCNT` are read by nothing (`10_state.md` R30, R31, R39; log 5). -/
  nodes : Vector NodeRec 511
  /-- `NCNT`: entries in use (`10_state.md` R31). -/
  ncnt : Fin 512
  /-- `ROOT`: the index of the root (`10_state.md` R31). -/
  root : Idx
  /-- `TV`: tree valid (`10_state.md` R28). -/
  tv : Bool
  /-- `INQ`: priority-queue membership (`10_state.md` R32; log 20). -/
  inq : Vector Bool 511
  /-- `CT`: an entry is its code where `valid = 1` and absent where `valid = 0` (`10_state.md` R39, R40; log 6). -/
  ct : Vector (Option Bits) 256
  /-- `CV`: code table valid (`10_state.md` R28). -/
  cv : Bool
  /-- `ACC`: the writer's accumulator (`10_state.md` R22). -/
  acc : Byte
  /-- `WCNT`: the bits the writer holds (`10_state.md` R22). -/
  wcnt : Fin 8
  /-- `CUR`: the reader's current byte (`10_state.md` R23). -/
  cur : Byte
  /-- `RPOS`: the reader's cursor, 8 when a byte must be fetched first (`10_state.md` R23). -/
  rpos : Fin 9
  /-- `POS`: the traversal position (`10_state.md` R24). -/
  pos : Idx
  /-- `RES`: the bit the last `RBIT` returned (`10_state.md` R25). -/
  res : Bool
  /-- `FAULT`: halted (`10_state.md` R28, `60_exceptions.md` R263). -/
  fault : Bool
  /-- `ERR`: the fault code (`60_exceptions.md` R261). -/
  err : FaultCode
  /-- MODEL'S OWN: the host's actions not yet performed, the first one first (log 1). -/
  pending : List HostAction
  /-- MODEL'S OWN: what the host's last register read returned (log 7). -/
  readData : Option PortData
  /-- MODEL'S OWN: the number of free values used so far (log 14). -/
  free : Nat
  deriving DecidableEq, Repr

/-- The state after hardware reset (`10_state.md` R38, `70_reset_and_hazards.md` R290): every element 0 but `RPOS = 8`, the streams
unbound, no action of the host pending. -/
def State.reset : State :=
  { inp := [], iptr := 0#40, out := [],
    ft := Vector.replicate 256 0#32, total := 0#40,
    nodes := Vector.replicate 511 NodeRec.zero, ncnt := 0, root := 0#9, tv := false,
    inq := Vector.replicate 511 false,
    ct := Vector.replicate 256 Option.none, cv := false,
    acc := 0#8, wcnt := 0, cur := 0#8, rpos := 8, pos := 0#9,
    res := false, fault := false, err := .none,
    pending := [], readData := Option.none, free := 0 }

end Sys2Proof.Machine
end

