-- ==== Sys2Proof/Machine/Flags.lean ====
section
/-! DEFINITION. The `STATUS` register and its fields (`10_state.md` R28, R33; `60_exceptions.md` R261). There are no arithmetic
condition codes (`10_state.md` R28). -/

namespace Sys2Proof.Machine

/-- The number of a fault code (`60_exceptions.md` R261). -/
def FaultCode.code : FaultCode → BitVec 4
  | .none => 0#4
  | .emptyInput => 1#4
  | .corruptStream => 2#4
  | .endOfStream => 3#4
  | .noTree => 4#4
  | .noCode => 5#4
  | .treeTooLarge => 6#4
  | .countOverflow => 7#4
  | .illegalCommand => 8#4

/-- `STATUS`: `[0]` `FAULT`, `[1]` `TV`, `[2]` `CV`, `[3]` `RES`, `[7:4]` `ERR` (`10_state.md` R33). -/
def State.status (s : State) : Byte :=
  s.err.code ++ BitVec.ofBool s.res ++ BitVec.ofBool s.cv ++ BitVec.ofBool s.tv ++ BitVec.ofBool s.fault

/-- `CTGEN` succeeded: the Code Table is valid (`10_state.md` R28). -/
def State.setCodeValid (s : State) : State := { s with cv := true }

/-- The start of `CTGEN`: the Code Table is no longer valid (`10_state.md` R28). -/
def State.clearCodeValid (s : State) : State := { s with cv := false }

/-- The start of `TBUILD` and `TDES`: neither the tree nor the Code Table is valid (`10_state.md` R28). -/
def State.clearTreeValid (s : State) : State := { s with tv := false, cv := false }

/-- The end of `TBUILD` and `TDES`: `ROOT` and `POS` at the root, the tree valid (`42_tree_builder.md` R145,
`44_tree_serdes.md` R174). -/
def State.setTree (s : State) (r : Idx) : State := { s with root := r, pos := r, tv := true }

/-- The result bit of `RBIT` (`10_state.md` R25, R28). -/
def State.setResult (s : State) (t : Bool) : State := { s with res := t }

end Sys2Proof.Machine
end

