-- ==== Sys2Proof/Machine/Operands.lean ====
section
/-! DEFINITION. The operand forms: the bit of `WBIT`, the bits of a byte and their order (`20_memory.md` R66, `30_encoding.md` R93),
and the table entries a byte or a node index selects (`20_memory.md` R65). -/

namespace Sys2Proof.Machine

/-- A bit as a byte, for the OR of `WriteBit` (`00_scope.md` R11). -/
def bitByte (b : Bool) : Byte := (BitVec.ofBool b).setWidth 8

/-- `((v << 1) | b)[7:0]` (`00_scope.md` R11, R14): the next bit enters at the right. -/
def shiftIn (v : Byte) (b : Bool) : Byte := (v <<< 1) ||| bitByte b

/-- A byte as eight bits, most significant first (`20_memory.md` R66). -/
def byteBits (v : Byte) : Bits :=
  [v.getLsbD 7, v.getLsbD 6, v.getLsbD 5, v.getLsbD 4, v.getLsbD 3, v.getLsbD 2, v.getLsbD 1, v.getLsbD 0]

/-- `FT[v]`: a byte is always in range (`20_memory.md` R65). -/
def State.count (s : State) (v : Byte) : Count := s.ft[v.toNat]

/-- `FT[v] <- c`. -/
def State.setCount (s : State) (v : Byte) (c : Count) : State := { s with ft := s.ft.set v.toNat c }

/-- `CT[v].code` where `CT[v].valid = 1`, absent where it is 0 (`10_state.md` R39, R40). -/
def State.code (s : State) (v : Byte) : Option Bits := s.ct[v.toNat]

/-- `CT[v] <- valid, |bits|, bits` (`43_code_table.md` R161). -/
def State.setCode (s : State) (v : Byte) (bits : Bits) : State := { s with ct := s.ct.set v.toNat (some bits) }

/-- `CT[v].valid` (`10_state.md` R40). -/
def State.codeValid (s : State) (v : Byte) : Bool := (s.code v).isSome

/-- `CT[v].len` of a code: its length as an 8-bit field (`10_state.md` R40). -/
def codeLen (bits : Bits) : BitVec 8 := BitVec.ofNat 8 bits.length

/-- `NODE[i]` for an entry in use; absent at and above `NCNT` (`10_state.md` R31, R39; log 5). Every read of the arena comes
through here. -/
def State.node (s : State) (i : Idx) : Option NodeRec :=
  if i.toNat < s.ncnt.val then s.nodes[i.toNat]? else Option.none

/-- `NODE[i] <- n`. -/
def State.setNode (s : State) (i : Idx) (n : NodeRec) : State :=
  { s with nodes := s.nodes.setIfInBounds i.toNat n }

/-- The index the next allocated node gets, `NCNT` (`42_tree_builder.md` R141, `44_tree_serdes.md` R175). -/
def State.nextIdx (s : State) : Idx := BitVec.ofNat 9 s.ncnt.val

/-- A leaf record: children written as 0 (`10_state.md` R30, R39). -/
def leafRec (v : Byte) (w : Weight) : NodeRec := { leaf := true, val := v, wt := w, left := 0#9, right := 0#9 }

/-- An internal record: value written as 0 (`10_state.md` R30, R39). -/
def innerRec (w : Weight) (l r : Idx) : NodeRec := { leaf := false, val := 0#8, wt := w, left := l, right := r }

end Sys2Proof.Machine
end

