-- ==== Sys2Proof/Machine/Ops.lean ====
section
/-! DEFINITION. The shared operations: the stream primitives (`20_memory.md` R63, R64), the writer (`45_bit_writer.md` R190, R191),
the reader (`46_bit_reader.md` R205), taking a fault (`60_exceptions.md` R262, R270), the effect of `CLR`
(`40_control.md` R121), and how a command's body ends. -/

namespace Sys2Proof.Machine

/-- `InAvail()`: a byte of `IN` is left (`20_memory.md` R63). -/
def State.inAvail (s : State) : Bool := decide (s.iptr.toNat < s.inp.length)

/-- `InNext()` where `InAvail()`: the byte at `IPTR`, and `IPTR + 1`. Absent where there is no byte, so a rule that tests
`InAvail()` first is a match on the answer (`20_memory.md` R63). -/
def State.inNext (s : State) : Option (Byte × State) :=
  match s.inp[s.iptr.toNat]? with
  | Option.none => Option.none
  | some v => some (v, { s with iptr := s.iptr + 1#40 })

/-- The bytes of `IN` still to be read: the bound of every loop over the input. -/
def State.bytesLeft (s : State) : Nat := s.inp.length - s.iptr.toNat

/-- `Emit(v)` (`20_memory.md` R64). -/
def State.emitByte (s : State) (v : Byte) : State := { s with out := s.out ++ [v] }

/-- `WriteBit(b)` (`45_bit_writer.md` R190). -/
def State.writeBit (s : State) (b : Bool) : State :=
  if s.wcnt.val + 1 = 8 then { s.emitByte (shiftIn s.acc b) with acc := 0#8, wcnt := 0 }
  else { s with acc := shiftIn s.acc b, wcnt := s.wcnt + 1 }

/-- A sequence of `WriteBit`, element 0 first. -/
def State.writeBits (s : State) : Bits → State
  | [] => s
  | b :: bs => (s.writeBit b).writeBits bs

/-- `Flush()` (`45_bit_writer.md` R191). -/
def State.flush (s : State) : State :=
  if 0 < s.wcnt.val then { s.emitByte (s.acc <<< (8 - s.wcnt.val)) with acc := 0#8, wcnt := 0 } else s

/-- The end of `NextBit()`: bit `7 - RPOS` of `CUR`, and `RPOS + 1` (`46_bit_reader.md` R205). -/
def State.deliverBit (s : State) : Bool × State := (s.cur.getLsbD (7 - s.rpos.val), { s with rpos := s.rpos + 1 })

/-- A byte is loaded into the reader (`46_bit_reader.md` R205, `48_decoder.md` R235). -/
def State.loadByte (s : State) (v : Byte) : State := { s with cur := v, rpos := 0 }

/-- `NextBit()`: a bit, or absent for the signal `EndOfStream`, which changes nothing (`46_bit_reader.md` R205,
`00_scope.md` R13). -/
def State.nextBit (s : State) : Option (Bool × State) :=
  if s.rpos.val = 8 then
    match s.inNext with
    | Option.none => Option.none
    | some (v, s1) => some (s1.loadByte v).deliverBit
  else some s.deliverBit

/-- The bits that `NextBit()` can still deliver: the bound of `WALK`'s loop (`48_decoder.md` R238). -/
def State.bitsLeft (s : State) : Nat := (8 - s.rpos.val) + 8 * s.bytesLeft

/-- Taking a fault, `raise e` (`60_exceptions.md` R262): `ERR` the code, `FAULT` 1, `TV`, `CV`, `RES` 0. `IPTR`, `OUT` (and `INQ`, which
is 0 at the end of every command, `10_state.md` R32) stay; every other element is unspecified until `CLR`
(`60_exceptions.md` R270), so it takes a free value. Nothing is saved and no vector is fetched. Log 4. -/
def State.takeFault (s : State) (e : FaultCode) : State :=
  { s with
    err := e, fault := true, tv := false, cv := false, res := false,
    ft := Config.freeFreqTable s.free, total := Config.freeTotal s.free,
    nodes := Config.freeNodes s.free, ncnt := Config.freeNodeCount s.free,
    root := Config.freeRoot s.free, pos := Config.freePos s.free,
    ct := Config.freeCodeTable s.free,
    acc := Config.freeAcc s.free, wcnt := Config.freeWriteCount s.free,
    cur := Config.freeCur s.free, rpos := Config.freeReadPos s.free,
    free := s.free + 1 }

/-- The effect of `CLR`, which is also the one return from a fault (`40_control.md` R121, `60_exceptions.md` R264): every element of
the core at its reset value; `IN` and `OUT` stay (`10_state.md` R38), and so do the model's own fields. -/
def State.clear (s : State) : State :=
  { State.reset with inp := s.inp, out := s.out, pending := s.pending, readData := s.readData, free := s.free }

/-- How the body of a command ends: normally, at a `raise` (with the state at that point), or where the spec gives nothing. -/
inductive Result (α : Type) where
  | ok (a : α)
  | raised (e : FaultCode) (s : State)
  | stuck (f : Fault)

/-- One body after another: a `raise` ends the whole (`00_scope.md` R11, `47_encoder.md` R217). -/
def Result.andThen {α β : Type} (r : Result α) (f : α → Result β) : Result β :=
  match r with
  | .ok a => f a
  | .raised e s => .raised e s
  | .stuck g => .stuck g

/-- `DECODE`'s renaming: `EndOfStream` is recorded as `CorruptStream` (`48_decoder.md` R242). -/
def Result.endAsCorrupt {α : Type} (r : Result α) : Result α :=
  match r with
  | .ok a => .ok a
  | .raised .endOfStream s => .raised .corruptStream s
  | .raised e s => .raised e s
  | .stuck g => .stuck g

/-- The outcome of a command: its state, or the state of fault entry (`60_exceptions.md` R262). -/
def Result.finish (r : Result State) : Host.Outcome State Fault Refusal :=
  match r with
  | .ok s => .next s
  | .raised e s => .next (s.takeFault e)
  | .stuck f => .fault f

end Sys2Proof.Machine
end

