-- ==== Sys2Proof/Machine/BitStream.lean ====
section
/-! DEFINITION. `WBIT`, `WFLUSH` (`45_bit_writer.md`) and `RBIT` (`46_bit_reader.md`). -/

namespace Sys2Proof.Machine

/-- `WBIT b` (`45_bit_writer.md` R192). -/
def execWbit (b : Bool) (s : State) : Host.Outcome State Fault Refusal := .next (s.writeBit b)

/-- `WFLUSH` (`45_bit_writer.md` R194). -/
def execWflush (s : State) : Host.Outcome State Fault Refusal := .next s.flush

/-- The body of `RBIT`: the signal reaches the host as the fault `EndOfStream` (`46_bit_reader.md` R206). -/
def rbitBody (s : State) : Result State :=
  match s.nextBit with
  | none => .raised .endOfStream s
  | some (t, s1) => .ok (s1.setResult t)

/-- `RBIT` (`46_bit_reader.md` R206). -/
def execRbit (s : State) : Host.Outcome State Fault Refusal := (rbitBody s).finish

end Sys2Proof.Machine
end

