-- ==== Sys2Proof/Machine/CodeTable.lean ====
section
/-! DEFINITION. `CTGEN`, the Code Table Generator (`43_code_table.md`). -/

namespace Sys2Proof.Machine

/-- `CT[v].valid <- 0` for all `v` (`43_code_table.md` R160). -/
def State.clearCodes (s : State) : State := { s with ct := Vector.replicate 256 none }

/-- `Gen(i, bits)`: left before right, so the last visited leaf of a value keeps its code (`43_code_table.md` R161, R163). Absent
where the arena is no tree (log 10). -/
def gen : Nat → Idx → Bits → State → Option State
  | 0, _, _, _ => none
  | n + 1, i, bits, s =>
    match s.node i with
    | none => none
    | some nd =>
      if nd.leaf then some (s.setCode nd.val bits)
      else
        match gen n nd.left (bits ++ [false]) s with
        | none => none
        | some s1 => gen n nd.right (bits ++ [true]) s1

/-- The table of the tree at `ROOT`; a single leaf has the one-bit code 0 (`43_code_table.md` R160, R162). -/
def genRoot (s : State) : Option State :=
  match s.node s.root with
  | none => none
  | some nd => if nd.leaf then some (s.setCode nd.val [false]) else gen Config.treeFuel s.root [] s

/-- The body of `CTGEN` (`43_code_table.md` R160). -/
def ctgenBody (s : State) : Result State :=
  if s.tv then
    match genRoot s.clearCodeValid.clearCodes with
    | none => .stuck .malformedArena
    | some s1 => .ok s1.setCodeValid
  else .raised .noTree s

/-- `CTGEN` (`43_code_table.md` R160). -/
def execCtgen (s : State) : Host.Outcome State Fault Refusal := (ctgenBody s).finish

end Sys2Proof.Machine
end

