-- ==== Sys2Proof/Machine/Control.lean ====
section
/-! DEFINITION. `NOP`, `CLR`, `REWIND` (`40_control.md` R120 to R122). -/

namespace Sys2Proof.Machine

/-- `IPTR <- 0`; the reader keeps its byte (`40_control.md` R122). -/
def State.rewind (s : State) : State := { s with iptr := 0#40 }

/-- `NOP` (`40_control.md` R120). -/
def execNop (s : State) : Host.Outcome State Fault Refusal := .next s

/-- `CLR` (`40_control.md` R121). -/
def execClr (s : State) : Host.Outcome State Fault Refusal := .next s.clear

/-- `REWIND` (`40_control.md` R122). -/
def execRewind (s : State) : Host.Outcome State Fault Refusal := .next s.rewind

end Sys2Proof.Machine
end

