-- ==== Sys2Proof/Machine/TreeSerdes.lean ====
section
/-! DEFINITION. `TSER` and `TDES`, the Tree Serializer and the Tree Deserializer (`44_tree_serdes.md`). -/

namespace Sys2Proof.Machine

/-- `Ser(i)` (`44_tree_serdes.md` R171). Absent where the arena is no tree (log 10). -/
def ser : Nat → Idx → State → Option State
  | 0, _, _ => none
  | n + 1, i, s =>
    match s.node i with
    | none => none
    | some nd =>
      if nd.leaf then some ((s.writeBit true).writeBits (byteBits nd.val))
      else
        match ser n nd.left (s.writeBit false) with
        | none => none
        | some s1 => ser n nd.right s1

/-- The body of `TSER` (`44_tree_serdes.md` R170): no flush. -/
def tserBody (s : State) : Result State :=
  if s.tv then
    match ser Config.treeFuel s.root s with
    | none => .stuck .malformedArena
    | some s1 => .ok s1
  else .raised .noTree s

/-- `TSER` (`44_tree_serdes.md` R170). -/
def execTser (s : State) : Host.Outcome State Fault Refusal := (tserBody s).finish

/-- `NextBit()` inside `TDES`: the signal becomes `CorruptStream` (`44_tree_serdes.md` R177). -/
def desBit (s : State) : Result (Bool × State) :=
  match s.nextBit with
  | none => .raised .corruptStream s
  | some (t, s1) => .ok (t, s1)

/-- The value of a leaf: the next `n` bits enter `v` from the right (`44_tree_serdes.md` R175). -/
def desValue : Nat → Byte → State → Result (Byte × State)
  | 0, v, s => .ok (v, s)
  | n + 1, v, s => (desBit s).andThen fun (t, s1) => desValue n (shiftIn v t) s1

/-- `NCNT + 1` (`44_tree_serdes.md` R175). -/
def State.allocNode (s : State) : State := { s with ncnt := s.ncnt + 1 }

/-- `Des()` (`44_tree_serdes.md` R175, R176): the arena's bound is tested before the flag bit is read. -/
def des : Nat → State → Result (Idx × State)
  | 0, s => .raised .treeTooLarge s
  | n + 1, s =>
    if s.ncnt.val = Config.nodeMax then .raised .treeTooLarge s
    else (desBit s).andThen fun (f, s1) =>
      if f then (desValue 8 0#8 s1.allocNode).andThen fun (v, s2) => .ok (s1.nextIdx, s2.setNode s1.nextIdx (leafRec v 0#40))
      else (des n s1.allocNode).andThen fun (l, s2) =>
        (des n s2).andThen fun (r, s3) => .ok (s1.nextIdx, s3.setNode s1.nextIdx (innerRec 0#40 l r))

/-- The body of `TDES` (`44_tree_serdes.md` R174). -/
def tdesBody (s : State) : Result State :=
  (des Config.desFuel { s.clearTreeValid with ncnt := 0 }).andThen fun (r, s1) => .ok (s1.setTree r)

/-- `TDES` (`44_tree_serdes.md` R174). -/
def execTdes (s : State) : Host.Outcome State Fault Refusal := (tdesBody s).finish

end Sys2Proof.Machine
end

