-- ==== Sys2Proof/Machine/Decoder.lean ====
section
/-! DEFINITION. `RSEED`, `RALIGN`, `RSKIP3`, `WALK`, `DECODE`, the Decoder (`48_decoder.md`). -/

namespace Sys2Proof.Machine

/-- The body of `RSEED` (`48_decoder.md` R235). -/
def rseedBody (s : State) : Result State :=
  match s.inNext with
  | none => .raised .endOfStream s
  | some (v, s1) => .ok (s1.loadByte v)

/-- `RSEED` (`48_decoder.md` R235). -/
def execRseed (s : State) : Host.Outcome State Fault Refusal := (rseedBody s).finish

/-- `RPOS <- 8` (`48_decoder.md` R236). -/
def State.alignReader (s : State) : State := { s with rpos := 8 }

/-- `RALIGN` (`48_decoder.md` R236). -/
def execRalign (s : State) : Host.Outcome State Fault Refusal := .next s.alignReader

/-- Read and discard `n` bytes; those that are there are consumed before the fault (`48_decoder.md` R237). -/
def skipBytes : Nat → State → Result State
  | 0, s => .ok s
  | n + 1, s =>
    match s.inNext with
    | none => .raised .endOfStream s
    | some (_, s1) => skipBytes n s1

/-- The body of `RSKIP3` (`48_decoder.md` R237). -/
def rskip3Body (s : State) : Result State := skipBytes 3 s

/-- `RSKIP3` (`48_decoder.md` R237). -/
def execRskip3 (s : State) : Host.Outcome State Fault Refusal := (rskip3Body s).finish

/-- `POS <- p`. -/
def State.moveTo (s : State) (p : Idx) : State := { s with pos := p }

/-- One bit of the payload walk (`48_decoder.md` R238): at a leaf root a 0 emits its value and a 1 is `CorruptStream` (R239);
elsewhere 0 goes left and 1 right, and a leaf that is reached is emitted. -/
def walkBit (t : Bool) (s : State) : Result State :=
  match s.node s.pos with
  | none => .stuck .malformedArena
  | some nd =>
    if nd.leaf then (if t then .raised .corruptStream s else .ok (s.emitByte nd.val))
    else
      match s.node (if t then nd.right else nd.left) with
      | none => .stuck .malformedArena
      | some md =>
        if md.leaf then .ok ((s.emitByte md.val).moveTo s.root)
        else .ok (s.moveTo (if t then nd.right else nd.left))

/-- The loop of `WALK`, bounded by the bits left: the signal ends it normally, whatever `POS` is (`48_decoder.md` R238, R240). -/
def walkLoop : Nat → State → Result State
  | 0, s => .ok s
  | n + 1, s =>
    match s.nextBit with
    | none => .ok s
    | some (t, s1) => (walkBit t s1).andThen (walkLoop n)

/-- The body of `WALK` (`48_decoder.md` R238). -/
def walkBody (s : State) : Result State := if s.tv then walkLoop s.bitsLeft (s.moveTo s.root) else .raised .noTree s

/-- `WALK` (`48_decoder.md` R238). -/
def execWalk (s : State) : Host.Outcome State Fault Refusal := (walkBody s).finish

/-- The body of `DECODE`, line by line, with the renaming of R242 (`48_decoder.md` R241). -/
def decodeBody (s : State) : Result State :=
  (rseedBody s.clear).endAsCorrupt.andThen fun s1 =>
  (tdesBody s1).andThen fun s2 =>
  (rskip3Body s2.alignReader).endAsCorrupt.andThen walkBody

/-- `DECODE` (`48_decoder.md` R241). -/
def execDecode (s : State) : Host.Outcome State Fault Refusal := (decodeBody s).finish

end Sys2Proof.Machine
end

