-- ==== Sys2Proof/Machine/FreqCounter.lean ====
section
/-! DEFINITION. `FCNT`, the Frequency Counter (`41_frequency_counter.md`). -/

namespace Sys2Proof.Machine

/-- The start of `FCNT`: every count and `TOTAL` are 0 (`41_frequency_counter.md` R130). -/
def State.clearCounts (s : State) : State := { s with ft := Vector.replicate 256 0#32, total := 0#40 }

/-- `FT[v] + 1` and `TOTAL + 1` (`41_frequency_counter.md` R130). -/
def State.countByte (s : State) (v : Byte) : State :=
  { s.setCount v (s.count v + 1#32) with total := s.total + 1#40 }

/-- The loop of `FCNT`, bounded by the bytes left (`41_frequency_counter.md` R130, R131): the count is tested after the byte is
read and before anything is written. -/
def fcntLoop : Nat → State → Result State
  | 0, s => .ok s
  | n + 1, s =>
    match s.inNext with
    | none => .ok s
    | some (v, s1) => if s1.count v = Config.countMax then .raised .countOverflow s1 else fcntLoop n (s1.countByte v)

/-- The body of `FCNT` (`41_frequency_counter.md` R130). -/
def fcntBody (s : State) : Result State := fcntLoop s.bytesLeft s.clearCounts

/-- `FCNT` (`41_frequency_counter.md` R130). -/
def execFcnt (s : State) : Host.Outcome State Fault Refusal := (fcntBody s).finish

end Sys2Proof.Machine
end

