-- ==== Sys2Proof/Machine/TreeBuilder.lean ====
section
/-! DEFINITION. `TBUILD`, the Tree Builder, and its priority queue (`42_tree_builder.md`). -/

namespace Sys2Proof.Machine

/-- `INQ[i] <- 0` for all `i` (`42_tree_builder.md` R140). -/
def State.clearQueue (s : State) : State := { s with inq := Vector.replicate 511 false }

/-- `NODE[i] <- n` and `INQ[i] <- 1` at `i = NCNT`, then `NCNT + 1` (`42_tree_builder.md` R140, R142). -/
def State.insertNode (s : State) (n : NodeRec) : State :=
  { s.setNode s.nextIdx n with inq := s.inq.setIfInBounds s.ncnt.val true, ncnt := s.ncnt + 1 }

/-- The leaf of one byte value, if it is present (`42_tree_builder.md` R141). -/
def State.addLeaf (s : State) (v : Byte) : State :=
  if 0#32 < s.count v then s.insertNode (leafRec v ((s.count v).setWidth 40)) else s

/-- The leaves of the byte values below `k`, in ascending order (`42_tree_builder.md` R141). -/
def State.addLeaves (s : State) : Nat → State
  | 0 => s
  | k + 1 => (s.addLeaves k).addLeaf (BitVec.ofNat 8 k)

/-- `(wt, index)` compared lexicographically as unsigned numbers (`00_scope.md` R14, `42_tree_builder.md` R142): the tie-break
`FIFO_BY_INDEX` (`42_tree_builder.md` R143). -/
def keyLess (a b : Weight × Nat) : Bool := decide (a.1 < b.1) || (decide (a.1 = b.1) && decide (a.2 < b.2))

/-- The lesser of two keys, each of which may be absent. -/
def lesserKey : Option (Weight × Nat) → Option (Weight × Nat) → Option (Weight × Nat)
  | none, b => b
  | some a, none => some a
  | some a, some b => if keyLess b a then some b else some a

/-- The least key among the members from index `i` on (`42_tree_builder.md` R143). -/
def leastKey : Nat → List Bool → List NodeRec → Option (Weight × Nat)
  | i, q :: qs, n :: ns => lesserKey (if q then some (n.wt, i) else none) (leastKey (i + 1) qs ns)
  | _, _, _ => none

/-- The member `ExtractMin` takes: the one that minimises `(NODE[i].wt, i)` (`42_tree_builder.md` R143). -/
def State.minMember (s : State) : Option Nat := (leastKey 0 s.inq.toList s.nodes.toList).map Prod.snd

/-- `ExtractMin()` (`42_tree_builder.md` R143); absent on an empty queue, where the spec does not call it. -/
def State.extractMin (s : State) : Option (Idx × State) :=
  match s.minMember with
  | none => none
  | some m => some (BitVec.ofNat 9 m, { s with inq := s.inq.setIfInBounds m false })

/-- The number of members (`42_tree_builder.md` R142). -/
def State.queueSize (s : State) : Nat := s.inq.toList.count true

/-- `NODE[i].wt` of an allocated node. -/
def State.weight (s : State) (i : Idx) : Weight := ((s.nodes[i.toNat]?).getD NodeRec.zero).wt

/-- The new internal node of a merge: first extracted left, second right, weights summed (`42_tree_builder.md` R144). -/
def State.mergeNodes (s : State) (a b : Idx) : State := s.insertNode (innerRec (s.weight a + s.weight b) a b)

/-- The merge loop, while two members are left (`42_tree_builder.md` R140, R144, R145). -/
def mergeLoop : Nat → State → Result State
  | 0, s => .ok s
  | n + 1, s =>
    if 2 ≤ s.queueSize then
      match s.extractMin with
      | none => .stuck .malformedArena
      | some (a, s1) =>
        match s1.extractMin with
        | none => .stuck .malformedArena
        | some (b, s2) => mergeLoop n (s2.mergeNodes a b)
    else .ok s

/-- The one remaining node is the root (`42_tree_builder.md` R145). -/
def takeRoot (s : State) : Result State :=
  match s.extractMin with
  | none => .stuck .malformedArena
  | some (r, s1) => .ok (s1.setTree r)

/-- The leaves of `TBUILD`, from a fresh arena and queue (`42_tree_builder.md` R140, R141). -/
def State.plantLeaves (s : State) : State := (({ s.clearTreeValid with ncnt := 0 } : State).clearQueue).addLeaves 256

/-- The body of `TBUILD` (`42_tree_builder.md` R140, R148). -/
def tbuildBody (s : State) : Result State :=
  if s.plantLeaves.ncnt.val = 0 then .raised .emptyInput s.plantLeaves
  else (mergeLoop Config.mergeFuel s.plantLeaves).andThen takeRoot

/-- `TBUILD` (`42_tree_builder.md` R140). -/
def execTbuild (s : State) : Host.Outcome State Fault Refusal := (tbuildBody s).finish

end Sys2Proof.Machine
end

