-- ==== Sys2Proof/Machine/Encoder.lean ====
section
/-! DEFINITION. `WMARK`, `EMIT`, `ENCODE`, the Encoder (`47_encoder.md`). -/

namespace Sys2Proof.Machine

/-- A sequence of `Emit`, element 0 first. -/
def State.emitBytes (s : State) : List Byte → State
  | [] => s
  | v :: vs => (s.emitByte v).emitBytes vs

/-- The three marker bytes, raw: the writer is neither read nor written (`47_encoder.md` R215). -/
def State.writeMarker (s : State) : State := s.emitBytes Config.marker

/-- `WMARK` (`47_encoder.md` R215). -/
def execWmark (s : State) : Host.Outcome State Fault Refusal := .next s.writeMarker

/-- The loop of `EMIT`, bounded by the bytes left (`47_encoder.md` R216). -/
def emitLoop : Nat → State → Result State
  | 0, s => .ok s
  | n + 1, s =>
    match s.inNext with
    | none => .ok s
    | some (v, s1) =>
      match s1.code v with
      | none => .raised .noCode s1
      | some bits => emitLoop n (s1.writeBits bits)

/-- The body of `EMIT` (`47_encoder.md` R216). -/
def emitBody (s : State) : Result State := if s.cv then emitLoop s.bytesLeft s else .raised .noCode s

/-- `EMIT` (`47_encoder.md` R216). -/
def execEmit (s : State) : Host.Outcome State Fault Refusal := (emitBody s).finish

/-- Step 1 of the Encoder: a scan, which must have counted a byte (`47_encoder.md` R217, R219). -/
def encodeScan (s : State) : Result State :=
  (fcntBody s).andThen fun s1 => if s1.total = 0#40 then .raised .emptyInput s1 else .ok s1

/-- The body of `ENCODE`, line by line (`47_encoder.md` R217). -/
def encodeBody (s : State) : Result State :=
  (encodeScan s.clear).andThen fun s1 =>
  (tbuildBody s1).andThen fun s2 =>
  (ctgenBody s2).andThen fun s3 =>
  (tserBody s3).andThen fun s4 =>
  (emitBody s4.flush.writeMarker.rewind).andThen fun s5 =>
  .ok s5.flush

/-- `ENCODE` (`47_encoder.md` R217). -/
def execEncode (s : State) : Host.Outcome State Fault Refusal := (encodeBody s).finish

end Sys2Proof.Machine
end

