-- ==== Sys2Proof/Machine/Dispatch.lean ====
section
/-! DEFINITION. The meaning of each command, one arm per constructor (`30_encoding.md` R96). -/

namespace Sys2Proof.Machine

def exec (i : Instr) (s : State) : Host.Outcome State Fault Refusal :=
  match i with
  | .nop => Sys2Proof.Machine.execNop s
  | .clr => Sys2Proof.Machine.execClr s
  | .rewind => Sys2Proof.Machine.execRewind s
  | .fcnt => Sys2Proof.Machine.execFcnt s
  | .tbuild => Sys2Proof.Machine.execTbuild s
  | .ctgen => Sys2Proof.Machine.execCtgen s
  | .tser => Sys2Proof.Machine.execTser s
  | .tdes => Sys2Proof.Machine.execTdes s
  | .wbit b => Sys2Proof.Machine.execWbit b s
  | .wflush => Sys2Proof.Machine.execWflush s
  | .rbit => Sys2Proof.Machine.execRbit s
  | .wmark => Sys2Proof.Machine.execWmark s
  | .emit => Sys2Proof.Machine.execEmit s
  | .encode => Sys2Proof.Machine.execEncode s
  | .rseed => Sys2Proof.Machine.execRseed s
  | .ralign => Sys2Proof.Machine.execRalign s
  | .rskip3 => Sys2Proof.Machine.execRskip3 s
  | .walk => Sys2Proof.Machine.execWalk s
  | .decode => Sys2Proof.Machine.execDecode s

end Sys2Proof.Machine
end

