-- ==== Sys2Proof/Machine/HostPort.lean ====
section
/-! DEFINITION. What the host does to the core between commands (`70_reset_and_hazards.md` R296): command words
(`30_encoding.md` R94), the register port (`10_state.md` R33), bind (`20_memory.md` R61), hardware reset
(`70_reset_and_hazards.md` R290). -/

namespace Sys2Proof.Machine

/-- The registers of the port (`10_state.md` R33). -/
inductive PortReg where
  | cmd
  | status
  | total
  | ncnt
  | root
  | pos
  | wstate
  | rstate
  | iptr
  | ft (b : Byte)
  | ctlen (b : Byte)
  | ctbits (b : Byte)
  | node (i : Fin 511)
  deriving DecidableEq, Repr

/-- The register a number names; absent for an unmapped number (`10_state.md` R33). -/
def portReg (n : Nat) : Option PortReg :=
  if n = 0x000 then some .cmd
  else if n = 0x001 then some .status
  else if n = 0x002 then some .total
  else if n = 0x003 then some .ncnt
  else if n = 0x004 then some .root
  else if n = 0x005 then some .pos
  else if n = 0x006 then some .wstate
  else if n = 0x007 then some .rstate
  else if n = 0x008 then some .iptr
  else if 0x100 ≤ n ∧ n < 0x200 then some (.ft (BitVec.ofNat 8 (n - 0x100)))
  else if 0x200 ≤ n ∧ n < 0x300 then some (.ctlen (BitVec.ofNat 8 (n - 0x200)))
  else if 0x300 ≤ n ∧ n < 0x400 then some (.ctbits (BitVec.ofNat 8 (n - 0x300)))
  else if h : 0x400 ≤ n ∧ n < 0x5FF then some (.node ⟨n - 0x400, by omega⟩)
  else none

/-- The width of a register (`10_state.md` R33). -/
def PortReg.width : PortReg → Nat
  | .cmd => 16
  | .status => 8
  | .total => 40
  | .ncnt => 10
  | .root => 9
  | .pos => 9
  | .wstate => 11
  | .rstate => 12
  | .iptr => 40
  | .ft _ => 32
  | .ctlen _ => 9
  | .ctbits _ => 255
  | .node _ => 67

/-- `NODE[i]` as the port shows it: `[39:0]` `wt`, `[47:40]` `val`, `[56:48]` `left`, `[65:57]` `right`, `[66]` `leaf`
(`10_state.md` R33). -/
def nodePacked (n : NodeRec) : BitVec 67 := BitVec.ofBool n.leaf ++ n.right ++ n.left ++ n.val ++ n.wt

/-- A code as the port shows it: `code[j]` at bit `254 - j`, zeros below (`10_state.md` R33). -/
def codePacked (bits : Bits) : PortData := (BitVec.ofBoolListBE bits).setWidth 255 <<< (Config.codeMax - bits.length)

/-- The low `w` bits of a value, zeros above (`10_state.md` R33: "unused high bits read 0"). -/
def lowBits (w : Nat) (d : PortData) : PortData := (d.setWidth w).setWidth 255

/-- What a register shows while `FAULT = 0`, with `any` in place of the bits the spec calls unspecified: `CMD`, the length and the
bits of an invalid code (its valid bit is 0), an arena entry at or above `NCNT` (`10_state.md` R33, R39,
`93_implementation_defined.md` U3, U4, U5; log 7). -/
def PortReg.shown (r : PortReg) (s : State) (any : PortData) : PortData :=
  match r with
  | .cmd => lowBits 16 any
  | .status => s.status.setWidth 255
  | .total => s.total.setWidth 255
  | .ncnt => BitVec.ofNat 255 s.ncnt.val
  | .root => s.root.setWidth 255
  | .pos => s.pos.setWidth 255
  | .wstate => (BitVec.ofNat 3 s.wcnt.val ++ s.acc).setWidth 255
  | .rstate => (BitVec.ofNat 4 s.rpos.val ++ s.cur).setWidth 255
  | .iptr => s.iptr.setWidth 255
  | .ft b => (s.count b).setWidth 255
  | .ctlen b =>
    match s.code b with
    | some bits => (1#1 ++ codeLen bits).setWidth 255
    | none => lowBits 8 any
  | .ctbits b =>
    match s.code b with
    | some bits => codePacked bits
    | none => any
  | .node i =>
    match s.node (BitVec.ofNat 9 i.val) with
    | some n => (nodePacked n).setWidth 255
    | none => lowBits 67 any

/-- `STATUS` and `IPTR`, the registers that stay defined while `FAULT = 1` (`60_exceptions.md` R270). -/
def PortReg.definedInFault : PortReg → Bool
  | .status => true
  | .iptr => true
  | .cmd | .total | .ncnt | .root | .pos | .wstate | .rstate | .ft _ | .ctlen _ | .ctbits _ | .node _ => false

/-- What a read of a register returns (`10_state.md` R33, `60_exceptions.md` R270, `93_implementation_defined.md` U2). -/
def PortReg.value (r : PortReg) (s : State) (any : PortData) : PortData :=
  if s.fault && !r.definedInFault then lowBits r.width any else r.shown s any

/-- A read of a register number; an unmapped number returns any value (`10_state.md` R33, `93_implementation_defined.md` U7). -/
def portValue (n : Nat) (s : State) (any : PortData) : PortData :=
  match portReg n with
  | some r => r.value s any
  | none => any

/-- The host reads a register: no effect on the core; what it gets is held in the model's own `readData`, and the read has a
free value of its own (`10_state.md` R33, R39; log 7). -/
def State.readPort (s : State) (n : Nat) : State :=
  { s with readData := some (portValue n s (Config.freeRead s.free)), free := s.free + 1 }

/-- `Bind`: `IN := bytes`, `IPTR <- 0`, `OUT := []`, nothing else (`20_memory.md` R61). -/
def State.bindInput (s : State) (bytes : List Byte) : State := { s with inp := bytes, iptr := 0#40, out := [] }

/-- Hardware reset: every element at its reset value and the streams unbound (`70_reset_and_hazards.md` R290); what belongs to the
host stays (log 13). -/
def State.hardReset (s : State) : State :=
  { State.reset with pending := s.pending, readData := s.readData, free := s.free }

/-- A word written to `CMD` (`30_encoding.md` R94, `60_exceptions.md` R263, R265): while halted every word but `CLR` is ignored
undecoded; a legal word runs; any other raises `IllegalCommand`. -/
def command (w : CmdWord) (s : State) : Host.Outcome State Fault Refusal :=
  if s.fault ∧ w ≠ 0x0100#16 then .next s
  else
    match decode w with
    | .ok i => exec i s
    | .error _ => .next (s.takeFault .illegalCommand)

/-- One action of the host (`70_reset_and_hazards.md` R296). A write to a register other than `CMD` is ignored (`10_state.md` R33). -/
def hostAction (a : HostAction) (s : State) : Host.Outcome State Fault Refusal :=
  match a with
  | .write n w => if n = 0x000 then command w s else .next s
  | .read n => .next (s.readPort n)
  | .bind bytes => if bytes.length < Config.inputLimit then .next (s.bindInput bytes) else .refused .bindTooLong
  | .takeOut => .next s
  | .hardReset => .next s.hardReset

end Sys2Proof.Machine
end

