-- ==== Sys2Proof/Machine/Step.lean ====
section
/-! DEFINITION. One step of the machine: the host's next action (`00_scope.md` R9, `70_reset_and_hazards.md` R295, R296). -/

namespace Sys2Proof.Machine

/-- The host's first pending action is performed; with none pending the core waits and nothing changes (log 1). -/
def step (s : State) : Host.Outcome State Fault Refusal :=
  match s.pending with
  | [] => .next s
  | a :: rest => hostAction a { s with pending := rest }

/-- The host will write the table's word to `CMD` next (log 2). A number of more than 16 bits is no command word (log 18). -/
def State.withFetchWord (s : State) (nbits w : Nat) : State :=
  match tableWord nbits w with
  | some word => { s with pending := .write 0x000 word :: s.pending }
  | none => s

end Sys2Proof.Machine
end

