-- ==== Sys2Proof/Machine/Format.lean ====
section
/-! DEFINITION. The data-stream encodings, as functions on abstract trees and bit strings (`10_state.md` R35, `30_encoding.md` R99
to R102, `20_memory.md` R70). The commands do not use them: they are what the statements compare the commands with. -/

namespace Sys2Proof.Machine

/-- The abstract binary tree of `10_state.md` R35. -/
inductive Tree where
  | leaf (v : Byte)
  | node (l r : Tree)
  deriving DecidableEq, Repr

/-- The leaf values, left to right. -/
def Tree.leaves : Tree → List Byte
  | .leaf v => [v]
  | .node l r => l.leaves ++ r.leaves

/-- The number of nodes: `2n - 1` for `n` leaves (`10_state.md` R34). -/
def Tree.nodeCount : Tree → Nat
  | .leaf _ => 1
  | .node l r => 1 + l.nodeCount + r.nodeCount

/-- The depth of the deepest leaf (`10_state.md` R35). -/
def Tree.depth : Tree → Nat
  | .leaf _ => 0
  | .node l r => 1 + max l.depth r.depth

/-- `SerBits(t)` (`30_encoding.md` R99). -/
def Tree.serBits : Tree → Bits
  | .leaf v => true :: byteBits v
  | .node l r => false :: (l.serBits ++ r.serBits)

/-- `SerBits(t)` cut at the nodes, in pre-order (`30_encoding.md` R99; `44_tree_serdes.md` R171). -/
def Tree.nodeBits : Tree → List Bits
  | .leaf v => [true :: byteBits v]
  | .node l r => [false] :: (l.nodeBits ++ r.nodeBits)

/-- The bits `Des` reads for one node: the flag 0, or the flag 1 and a value (`44_tree_serdes.md` R175). -/
def isNodeBits (x : Bits) : Prop := x = [false] ∨ ∃ v, x = true :: byteBits v

/-- The leaf values with the edges of their paths after `bits`, left to right (`30_encoding.md` R100). -/
def Tree.pathsFrom (bits : Bits) : Tree → List (Byte × Bits)
  | .leaf v => [(v, bits)]
  | .node l r => l.pathsFrom (bits ++ [false]) ++ r.pathsFrom (bits ++ [true])

/-- The codes of a tree, left to right; a single leaf has the code 0 (`30_encoding.md` R100). -/
def Tree.codes : Tree → List (Byte × Bits)
  | .leaf v => [(v, [false])]
  | .node l r => Tree.pathsFrom [] (.node l r)

/-- The code of a value: that of its rightmost leaf (`43_code_table.md` R163). -/
def Tree.codeOf (t : Tree) (v : Byte) : Option Bits := (t.codes.reverse.find? (fun p => p.1 == v)).map Prod.snd

/-- The value of the leftmost leaf (`00_scope.md` glossary). -/
def Tree.leftmost : Tree → Byte
  | .leaf v => v
  | .node l _ => l.leftmost

/-- `d0`, the depth of the leftmost leaf (`10_state.md` R35). -/
def Tree.leftDepth : Tree → Nat
  | .leaf _ => 0
  | .node l _ => 1 + l.leftDepth

/-- `Tree(i)` of the arena (`10_state.md` R35), where the entries below `i` are a tree of at most the given depth. -/
def State.treeAt (s : State) : Nat → Idx → Option Tree
  | 0, _ => none
  | n + 1, i =>
    match s.node i with
    | none => none
    | some nd =>
      if nd.leaf then some (.leaf nd.val)
      else
        match s.treeAt n nd.left, s.treeAt n nd.right with
        | some l, some r => some (.node l r)
        | _, _ => none

/-- `Tree(ROOT)` (`10_state.md` R35). -/
def State.tree (s : State) : Option Tree := s.treeAt Config.treeFuel s.root

/-- The number of pad bits after `k` bits (`30_encoding.md` R101). -/
def padCount (k : Nat) : Nat := (8 - k % 8) % 8

/-- Byte `j` of a packed bit string: bit `7 - m` is `x[8j + m]`, 0 past the end (`45_bit_writer.md` R195). -/
def packByte (x : Bits) (j : Nat) : Byte :=
  (List.range 8).foldl (fun v m => shiftIn v (x.getD (8 * j + m) false)) 0#8

/-- `pack(x)` (`47_encoder.md` R218, `45_bit_writer.md` R195). -/
def pack (x : Bits) : List Byte := (List.range ((x.length + 7) / 8)).map (packByte x)

/-- The bits of a byte sequence in reading order (`46_bit_reader.md` R208). -/
def bitsOf (bytes : List Byte) : Bits := bytes.flatMap byteBits

/-- The bits the reader will still deliver: the unread bits of `CUR`, then those of the bytes from `IPTR` on
(`46_bit_reader.md` R205, R208). -/
def State.restBits (s : State) : Bits := (byteBits s.cur).drop s.rpos.val ++ bitsOf (s.inp.drop s.iptr.toNat)

/-- `IPTR` after `k` more bits are delivered: a byte is fetched only when a bit is asked for at `RPOS = 8` (`46_bit_reader.md` R205,
R208). -/
def State.iptrAfter (s : State) (k : Nat) : Nat := s.iptr.toNat + (s.rpos.val + k - 1) / 8

/-- `n` calls of `NextBit()` in a row (`46_bit_reader.md` R208). -/
def State.readBits (s : State) : Nat → Option (Bits × State)
  | 0 => some ([], s)
  | n + 1 =>
    match s.nextBit with
    | none => none
    | some (b, s1) => (s1.readBits n).map fun p => (b :: p.1, p.2)

/-- The payload walk on an abstract tree from the subtree `cur` (`48_decoder.md` R238, R239): the values emitted, and the subtree
where the bits end, absent where a 1 bit was walked at a leaf root. -/
def Tree.walkFrom (root : Tree) : Tree → Bits → List Byte × Option Tree
  | cur, [] => ([], some cur)
  | .leaf v, b :: bs => if b then ([], none) else (v :: (root.walkFrom (.leaf v) bs).1, (root.walkFrom (.leaf v) bs).2)
  | .node l r, b :: bs =>
    match (if b then r else l) with
    | .leaf v => (v :: (root.walkFrom root bs).1, (root.walkFrom root bs).2)
    | .node l' r' => root.walkFrom (.node l' r') bs

/-- The codes of a byte sequence, concatenated with nothing between (`30_encoding.md` R100); absent where a byte has none. -/
def codeBits (code : Byte → Option Bits) : List Byte → Option Bits
  | [] => some []
  | v :: vs =>
    match code v, codeBits code vs with
    | some x, some y => some (x ++ y)
    | _, _ => none

end Sys2Proof.Machine
end

