-- ==== Sys2Proof/Machine/Invariants.lean ====
section
/-! DEFINITION. The invariants the rules maintain (`10_state.md` R34, R36, R39; `20_memory.md` R62; `60_exceptions.md` R262). Those of
R36 that speak of elements R270 leaves unspecified after a fault are asked for while `FAULT = 0` (log 12). -/

namespace Sys2Proof.Machine

/-- The arena entries below `i` in pre-order; absent where they are no tree of at most the given depth. -/
def State.visit (s : State) : Nat → Idx → Option (List Idx)
  | 0, _ => none
  | n + 1, i =>
    match s.node i with
    | none => none
    | some nd =>
      if nd.leaf then some [i]
      else
        match s.visit n nd.left, s.visit n nd.right with
        | some l, some r => some (i :: (l ++ r))
        | _, _ => none

/-- `WF` of `10_state.md` R34, items 1 to 4, in the form a computation can check: from `ROOT` a walk of depth at most 255 meets every
entry below `NCNT` exactly once. -/
def State.wellFormed (s : State) : Bool :=
  match s.visit Config.treeFuel s.root with
  | none => false
  | some l => decide l.Nodup && decide (l.length = s.ncnt.val)

/-- The values of `10_state.md` R38's table, which hardware reset and `CLR` both give: every element of the core 0 but `RPOS = 8`, no
code valid, no fault. -/
structure State.AtReset (s : State) : Prop where
  iptr : s.iptr = 0#40
  counts : ∀ v, s.count v = 0#32
  total : s.total = 0#40
  arena : s.ncnt = 0 ∧ s.root = 0#9
  records : ∀ i : Fin 511, s.nodes[i] = NodeRec.zero
  valid : s.tv = false ∧ s.cv = false
  queue : ∀ i : Fin 511, s.inq[i] = false
  codes : ∀ v, s.codeValid v = false
  writer : s.acc = 0#8 ∧ s.wcnt = 0
  reader : s.cur = 0#8 ∧ s.rpos = 8
  pos : s.pos = 0#9
  res : s.res = false
  fault : s.fault = false ∧ s.err = .none

/-- The byte values present in the Frequency Table, ascending (`42_tree_builder.md` R141). -/
def State.present (s : State) : List Byte :=
  ((List.range 256).map (BitVec.ofNat 8)).filter (fun v => decide (0#32 < s.count v))

/-- The streams (`20_memory.md` R62, `10_state.md` R26, R36): the input is shorter than `2^PTR_W` and `IPTR` is inside it. -/
structure State.StreamInv (s : State) : Prop where
  short : s.inp.length < Config.inputLimit
  pointer : s.iptr.toNat ≤ s.inp.length

/-- The writer (`45_bit_writer.md` R193, `10_state.md` R36): the accumulator holds no bit above the count. -/
def State.WriterInv (s : State) : Prop := s.fault = false → s.acc.toNat < 2 ^ s.wcnt.val

/-- The status (`60_exceptions.md` R262, R263; `10_state.md` R38): a fault code stands exactly while `FAULT = 1`, and then `TV`, `CV`
and `RES` are 0. -/
structure State.StatusInv (s : State) : Prop where
  code : s.fault = true ↔ s.err ≠ .none
  cleared : s.fault = true → s.tv = false ∧ s.cv = false ∧ s.res = false

/-- The queue is empty between commands (`10_state.md` R32, R36). -/
def State.QueueInv (s : State) : Prop := s.inq = Vector.replicate 511 false

/-- `TV = 1` only over a tree (`10_state.md` R34), and `POS` is then the root or an internal node of it
(`42_tree_builder.md` R145, `48_decoder.md` R238). -/
def State.TreeInv (s : State) : Prop :=
  s.tv = true → s.wellFormed = true ∧ ∃ n, s.node s.pos = some n ∧ (s.pos = s.root ∨ n.leaf = false)

/-- `CV = 1` only over the table of the tree in the arena (`10_state.md` R40). -/
def State.CodeInv (s : State) : Prop :=
  s.cv = true → s.tv = true ∧ ∃ t, s.tree = some t ∧ ∀ v, s.code v = t.codeOf v

/-- `TV = 0` without a fault is the state of reset and `CLR`: `ROOT`, `POS`, `NCNT` are 0 (`10_state.md` R39). -/
def State.NoTreeInv (s : State) : Prop :=
  s.fault = false → s.tv = false → s.ncnt = 0 ∧ s.root = 0#9 ∧ s.pos = 0#9

/-- All of them. -/
structure State.Inv (s : State) : Prop where
  stream : s.StreamInv
  writer : s.WriterInv
  status : s.StatusInv
  queue : s.QueueInv
  tree : s.TreeInv
  codes : s.CodeInv
  noTree : s.NoTreeInv

end Sys2Proof.Machine
end

