-- ==== Sys2Proof/Safety.lean ====
section
/-! DEFINITION. What counts as a safe step and a safe run, and the lists of commands that R292 compares with the composites. -/

namespace Sys2Proof

open Sys2Proof.Machine

/-- The model does not stop: every command has an effect (`70_reset_and_hazards.md` R295). Taking one of the core's eight faults is
an effect (`60_exceptions.md` R262). -/
def SafeOutcome (o : Host.Outcome State Fault Refusal) : Prop := ∃ t, o = .next t

/-- Every action the host has pending is one the spec admits (`20_memory.md` R62). -/
def HostAdmitted (s : State) : Prop := ∀ a ∈ s.pending, a.wf = true

/-- A list of command words presented in order (`70_reset_and_hazards.md` R295); after a fault the rest are ignored
(`60_exceptions.md` R263). -/
def runWords : List CmdWord → State → Host.Outcome State Fault Refusal
  | [], s => .next s
  | w :: ws, s =>
    match command w s with
    | .next t => runWords ws t
    | .fault f => .fault f
    | .refused r => .refused r

/-- `ENCODE` as a sequence (`70_reset_and_hazards.md` R292). -/
def encodeList : List CmdWord :=
  [encode .clr, encode .fcnt, encode .tbuild, encode .ctgen, encode .tser, encode .wflush, encode .wmark, encode .rewind,
   encode .emit, encode .wflush]

/-- `DECODE` as a sequence (`70_reset_and_hazards.md` R292). -/
def decodeList : List CmdWord :=
  [encode .clr, encode .rseed, encode .tdes, encode .ralign, encode .rskip3, encode .walk]

end Sys2Proof
end

