-- ==== Sys2Proof/Certificates/Slice0/Obligations.lean ====
section
/-! DEFINITION. The statements for the provers. OBLIGATIONS.json lists them with the rules they rest on. -/

open Sys2Proof Sys2Proof.Machine

/-! Encoding and dispatch (`30_encoding.md`, `60_exceptions.md` R263, R265). -/

/-- Every command's word decodes to that command, with the operand bit at both of its values (R90 to R93, R96). -/
def Obligations.DecodeInvertsEncode : Prop :=
  ∀ i : Instr, i.wf = true → decode (encode i) = .ok i

/-- A word that decodes at all is the word of the command it decodes to: no other word is legal (R94, R95). -/
def Obligations.DecodeAcceptsOnlyEncodedWords : Prop :=
  ∀ (w : CmdWord) (i : Instr), decode w = .ok i → encode i = w

/-- R94: while halted a word other than `CLR` changes nothing; a word that matches a row, whichever it is, runs that row's command;
a word that matches no row raises `IllegalCommand`. No word matches two rows. -/
def Obligations.CommandDispatchFollowsTheTable : Prop :=
  (∀ w s, s.fault = true → w ≠ 0x0100#16 → command w s = .next s) ∧
  (∀ w s r, (s.fault = true → w = 0x0100#16) → r ∈ rows → w &&& r.mask = r.pattern → command w s = exec (r.instr w) s) ∧
  (∀ w s, s.fault = false → (∀ r ∈ rows, w &&& r.mask ≠ r.pattern) → command w s = .next (s.takeFault .illegalCommand)) ∧
  rows.Pairwise (fun r q => ∀ w : CmdWord, ¬(w &&& r.mask = r.pattern ∧ w &&& q.mask = q.pattern))

/-- The twenty words of R96's table, each with its command. -/
def Obligations.TableWordsDecode : Prop :=
  decode 0x0000#16 = .ok .nop ∧ decode 0x0100#16 = .ok .clr ∧ decode 0x0200#16 = .ok .rewind ∧
  decode 0x1000#16 = .ok .fcnt ∧ decode 0x2000#16 = .ok .tbuild ∧ decode 0x3000#16 = .ok .ctgen ∧
  decode 0x4000#16 = .ok .tser ∧ decode 0x5000#16 = .ok .tdes ∧ decode 0x6000#16 = .ok (.wbit false) ∧
  decode 0x6001#16 = .ok (.wbit true) ∧ decode 0x6100#16 = .ok .wflush ∧ decode 0x7000#16 = .ok .rbit ∧
  decode 0x8000#16 = .ok .wmark ∧ decode 0x8100#16 = .ok .emit ∧ decode 0x8F00#16 = .ok .encode ∧
  decode 0x9000#16 = .ok .rseed ∧ decode 0x9100#16 = .ok .ralign ∧ decode 0x9200#16 = .ok .rskip3 ∧
  decode 0x9300#16 = .ok .walk ∧ decode 0x9F00#16 = .ok .decode

/-- R95: a word that is no command's raises `IllegalCommand`, with no effect of its own on the streams or the host's side. -/
def Obligations.IllegalWordRaisesIllegalCommand : Prop :=
  ∀ (w : CmdWord) (s : State), s.fault = false → (∀ i, encode i ≠ w) →
    ∃ t, command w s = .next t ∧ t.status = 0x81#8 ∧ t.inp = s.inp ∧ t.iptr = s.iptr ∧ t.out = s.out ∧
      t.pending = s.pending ∧ t.readData = s.readData

/-- A step whose next action is a word on `CMD` runs the decoded command, on the state with that action taken off the list; in the
halted state this is `CLR` alone (R94, R263). -/
def Obligations.StepRunsTheDecodedCommand : Prop :=
  ∀ (s : State) (w : CmdWord) (i : Instr) (rest : List HostAction),
    s.pending = .write 0x000 w :: rest → decode w = .ok i → (s.fault = true → i = .clr) →
    step s = exec i { s with pending := rest }

/-- R263: while halted, a word other than `CLR`, legal or not, changes nothing at all. -/
def Obligations.HaltedCoreIgnoresEveryWordButClr : Prop :=
  ∀ (s : State) (w : CmdWord) (rest : List HostAction),
    s.pending = .write 0x000 w :: rest → s.fault = true → w ≠ 0x0100#16 → step s = .next { s with pending := rest }

/-- R33, R296: a write to a register other than `CMD` is ignored and taking `OUT` consumes nothing. That the core waits while the
host does nothing is the model's choice (log 1). -/
def Obligations.HostActionsThatChangeNothing : Prop :=
  (∀ (s : State) (n : Nat) (w : CmdWord) (rest : List HostAction),
    s.pending = .write n w :: rest → n ≠ 0x000 → step s = .next { s with pending := rest }) ∧
  (∀ (s : State) (rest : List HostAction), s.pending = .takeOut :: rest → step s = .next { s with pending := rest }) ∧
  (∀ s : State, s.pending = [] → step s = .next s)

/-- R61: a bind replaces the streams, moves `IPTR` to 0, and changes nothing else; R62: one that is too long is refused. -/
def Obligations.BindReplacesTheStreams : Prop :=
  ∀ (s : State) (bytes : List Byte) (rest : List HostAction), s.pending = .bind bytes :: rest →
    (bytes.length < 2 ^ 40 → step s = .next { s with pending := rest, inp := bytes, iptr := 0#40, out := [] }) ∧
    (2 ^ 40 ≤ bytes.length → step s = .refused .bindTooLong)

/-! Reset and faults (`10_state.md` R38, `60_exceptions.md`, `70_reset_and_hazards.md` R290). -/

/-- R38, R121, R290: hardware reset and `CLR` give every element its reset value; reset also unbinds the streams, `CLR` leaves them
alone. What is the host's stays (log 13). -/
def Obligations.ResetAndClrGiveTheResetValues : Prop :=
  (State.reset.AtReset ∧ State.reset.inp = [] ∧ State.reset.out = []) ∧
  (∀ (s : State) (rest : List HostAction), s.pending = .hardReset :: rest →
    ∃ t, step s = .next t ∧ t.AtReset ∧ t.inp = [] ∧ t.out = [] ∧ t.pending = rest ∧ t.readData = s.readData) ∧
  (∀ s : State, ∃ t, exec .clr s = .next t ∧ t.AtReset ∧ t.inp = s.inp ∧ t.out = s.out ∧ t.pending = s.pending ∧
    t.readData = s.readData)

/-- R262: a fault writes its code, sets `FAULT`, clears `TV`, `CV`, `RES`, so `STATUS` is `(code << 4) | 1`; what the command wrote to
the streams before stays. -/
def Obligations.FaultEntrySetsStatusAndKeepsTheStreams : Prop :=
  ∀ (s : State) (e : FaultCode),
    (s.takeFault e).err = e ∧ (s.takeFault e).fault = true ∧ (s.takeFault e).tv = false ∧ (s.takeFault e).cv = false ∧
    (s.takeFault e).res = false ∧ (s.takeFault e).status = e.code ++ 0x1#4 ∧
    (s.takeFault e).inp = s.inp ∧ (s.takeFault e).iptr = s.iptr ∧ (s.takeFault e).out = s.out

/-- R270: after a fault nothing but `STATUS`, `IPTR` and `OUT` depends on what the command had done: two states that agree on the
streams, the empty queue and the model's own fields become one state. -/
def Obligations.FaultEntryForgetsTheTables : Prop :=
  ∀ (s u : State) (e : FaultCode),
    s.inp = u.inp → s.iptr = u.iptr → s.out = u.out → s.inq = u.inq → s.pending = u.pending → s.readData = u.readData →
    s.free = u.free → s.takeFault e = u.takeFault e

/-- R263, R264: whatever the host does, a halted core keeps its fault code until `CLR` or hardware reset; these give the reset
values, and `CLR` touches neither stream. -/
def Obligations.OnlyClrOrResetEndsAFault : Prop :=
  ∀ s t : State, s.fault = true → step s = .next t →
    (t.fault = true ∧ t.err = s.err) ∨
    (t.AtReset ∧ ∃ rest, (s.pending = .write 0x000 0x0100#16 :: rest ∧ t.inp = s.inp ∧ t.out = s.out) ∨
      s.pending = .hardReset :: rest)

/-- R261's last sentence: `NOP`, `CLR`, `REWIND`, `WBIT`, `WFLUSH`, `WMARK` and `RALIGN` complete from every state that is not halted,
without a fault. -/
def Obligations.SevenCommandsNeverFault : Prop :=
  ∀ (s : State) (i : Instr), s.fault = false →
    i ∈ [Instr.nop, .clr, .rewind, .wbit false, .wbit true, .wflush, .wmark, .ralign] →
    ∃ t, exec i s = .next t ∧ t.fault = false

/-! The register port (`10_state.md` R33, R39; `60_exceptions.md` R270). -/

/-- R33, R270: a read gives the host the register's value and changes nothing of the core; `STATUS` and `IPTR` read their values in
every state. The value is held in the model's own field, and each read has a free value of its own (log 7). -/
def Obligations.RegisterReadsHaveNoSideEffect : Prop :=
  (∀ (s : State) (n : Nat) (rest : List HostAction), s.pending = .read n :: rest →
    step s = .next { s with pending := rest, readData := some (portValue n s (Config.freeRead s.free)), free := s.free + 1 }) ∧
  (∀ (s : State) (any : PortData), portValue 0x001 s any = s.status.setWidth 255 ∧ portValue 0x008 s any = s.iptr.setWidth 255)

/-- R33: every register that the port shows, in a state without a fault: its fields at their bit positions, and 0 above its width. A
read of `CMD`, the one other register, is unspecified (UnspecifiedReadsRevealNothing). -/
def Obligations.PortLayout : Prop :=
  ∀ (s : State) (any : PortData), s.fault = false →
    (portValue 0x001 s any).getLsbD 0 = s.fault ∧ (portValue 0x001 s any).getLsbD 1 = s.tv ∧
    (portValue 0x001 s any).getLsbD 2 = s.cv ∧ (portValue 0x001 s any).getLsbD 3 = s.res ∧
    (portValue 0x001 s any).extractLsb' 4 4 = s.err.code ∧
    (portValue 0x002 s any).toNat = s.total.toNat ∧ (portValue 0x003 s any).toNat = s.ncnt.val ∧
    (portValue 0x004 s any).toNat = s.root.toNat ∧ (portValue 0x005 s any).toNat = s.pos.toNat ∧
    (portValue 0x006 s any).toNat = s.acc.toNat + 2 ^ 8 * s.wcnt.val ∧
    (portValue 0x007 s any).toNat = s.cur.toNat + 2 ^ 8 * s.rpos.val ∧ (portValue 0x008 s any).toNat = s.iptr.toNat ∧
    (∀ n r, portReg n = some r → (portValue n s any).toNat < 2 ^ r.width) ∧
    (∀ b : Byte, (portValue (0x100 + b.toNat) s any).toNat = (s.count b).toNat) ∧
    (∀ b : Byte, (portValue (0x200 + b.toNat) s any).getLsbD 8 = s.codeValid b) ∧
    (∀ (b : Byte) (x : Bits), s.code b = some x → x.length ≤ 255 →
      (portValue (0x200 + b.toNat) s any).toNat = x.length + 2 ^ 8 ∧
      ∀ k, k < 255 → (portValue (0x300 + b.toNat) s any).getLsbD (254 - k) = x.getD k false) ∧
    (∀ (i : Idx) (n : NodeRec), i.toNat < 511 → s.node i = some n →
      (portValue (0x400 + i.toNat) s any).extractLsb' 0 40 = n.wt ∧ (portValue (0x400 + i.toNat) s any).extractLsb' 40 8 = n.val ∧
      (portValue (0x400 + i.toNat) s any).extractLsb' 48 9 = n.left ∧ (portValue (0x400 + i.toNat) s any).extractLsb' 57 9 = n.right ∧
      (portValue (0x400 + i.toNat) s any).getLsbD 66 = n.leaf)

/-- R33, R39, R270: what the spec leaves unspecified can be learnt by no read: while halted, every register but `STATUS` and `IPTR`
(U2); an unmapped number (U7); and, without a fault, `CMD` (U5), the length and the bits of an invalid code (U4), and an arena entry at
or above `NCNT` (U3). Two states that agree on the rest read the same, with the same free value of the read (log 7). -/
def Obligations.UnspecifiedReadsRevealNothing : Prop :=
  (∀ (s u : State) (n : Nat) (any : PortData), s.fault = true → u.fault = true → n ≠ 0x001 → n ≠ 0x008 →
    portValue n s any = portValue n u any) ∧
  (∀ (s : State) (n : Nat) (any : PortData), portReg n = none → portValue n s any = any) ∧
  (∀ (s u : State) (any : PortData), s.fault = false → u.fault = false → portValue 0x000 s any = portValue 0x000 u any) ∧
  (∀ (s u : State) (b : Byte) (any : PortData), s.fault = false → u.fault = false → s.codeValid b = false → u.codeValid b = false →
    portValue (0x200 + b.toNat) s any = portValue (0x200 + b.toNat) u any) ∧
  (∀ (s : State) (b : Byte) (any : PortData), s.fault = false → s.codeValid b = false → portValue (0x300 + b.toNat) s any = any) ∧
  (∀ (s u : State) (n : Nat) (any : PortData), s.fault = false → u.fault = false → s.ncnt.val ≤ n → u.ncnt.val ≤ n → n < 511 →
    portValue (0x400 + n) s any = portValue (0x400 + n) u any)

/-! Control, and the writer's and reader's simple commands. -/

/-- R120, R122, R236: `NOP` changes nothing, `REWIND` only `IPTR`, `RALIGN` only `RPOS`. -/
def Obligations.NopRewindRalignEffects : Prop :=
  ∀ s : State,
    exec .nop s = .next s ∧ exec .rewind s = .next { s with iptr := 0#40 } ∧ exec .ralign s = .next { s with rpos := 8 }

/-- R190, R192: with fewer than 7 bits held the bit enters at the right of `ACC`; the eighth completes a byte, which is emitted, and
empties the writer. -/
def Obligations.WbitShiftsInOrEmits : Prop :=
  ∀ (s : State) (b : Bool),
    (s.wcnt.val < 7 → ∃ t, exec (.wbit b) s = .next t ∧ t.acc.toNat = (2 * s.acc.toNat + b.toNat) % 256 ∧
      t.wcnt.val = s.wcnt.val + 1 ∧ t = { s with acc := t.acc, wcnt := t.wcnt }) ∧
    (s.wcnt.val = 7 → ∃ v : Byte, v.toNat = (2 * s.acc.toNat + b.toNat) % 256 ∧
      exec (.wbit b) s = .next { s with acc := 0#8, wcnt := 0, out := s.out ++ [v] })

/-- R191, R194: held bits are shifted to the top of a byte and emitted; with none held nothing happens. -/
def Obligations.WflushEmitsThePaddedByte : Prop :=
  ∀ s : State,
    (s.wcnt.val = 0 → exec .wflush s = .next s) ∧
    (0 < s.wcnt.val → ∃ v : Byte, v.toNat = (s.acc.toNat * 2 ^ (8 - s.wcnt.val)) % 256 ∧
      exec .wflush s = .next { s with acc := 0#8, wcnt := 0, out := s.out ++ [v] })

/-- R195: from an empty writer, `k` bits and a flush append `ceil(k / 8)` bytes, bit `7 - m` of byte `j` being bit `8j + m`, 0 past
the end; without the flush the complete bytes are out and `k mod 8` bits are held. -/
def Obligations.WriterStreamLaw : Prop :=
  ∀ (s : State) (x : Bits), s.wcnt.val = 0 → s.acc = 0#8 →
    (∃ bytes : List Byte, (s.writeBits x).flush = { s with out := s.out ++ bytes } ∧ bytes.length = (x.length + 7) / 8 ∧
      ∀ (j m : Nat) (v : Byte), m < 8 → bytes[j]? = some v → v.getLsbD (7 - m) = x.getD (8 * j + m) false) ∧
    (s.writeBits x).out.length = s.out.length + x.length / 8 ∧ (s.writeBits x).wcnt.val = x.length % 8 ∧
    (s.writeBits x).out <+: (s.writeBits x).flush.out

/-- R205, R206: an unread bit of `CUR` is delivered without touching `IN`; with none left the next byte is fetched and its bit 7
delivered; with no byte left the fault is `EndOfStream`. -/
def Obligations.RbitDeliversFetchesOrFaults : Prop :=
  ∀ s : State,
    (s.rpos.val < 8 → ∃ t, exec .rbit s = .next t ∧ t.res = s.cur.getLsbD (7 - s.rpos.val) ∧ t.rpos.val = s.rpos.val + 1 ∧
      t = { s with res := t.res, rpos := t.rpos }) ∧
    (∀ v : Byte, s.rpos.val = 8 → s.inp[s.iptr.toNat]? = some v →
      exec .rbit s = .next { s with res := v.getLsbD 7, rpos := 1, cur := v, iptr := s.iptr + 1#40 }) ∧
    (s.rpos.val = 8 → s.inp.length ≤ s.iptr.toNat → exec .rbit s = .next (s.takeFault .endOfStream))

/-- R208: from a byte boundary the `k` next bits are those of the bytes from `IPTR` on, most significant first; they are there exactly
while those bytes last; and the pointer and the cursor stand where the rule says. -/
def Obligations.ReaderStreamLaw : Prop :=
  ∀ (s : State) (k : Nat), s.StreamInv → s.rpos.val = 8 →
    (k ≤ 8 * (s.inp.length - s.iptr.toNat) → ∃ t, s.readBits k = some ((bitsOf (s.inp.drop s.iptr.toNat)).take k, t) ∧
      t.iptr.toNat = s.iptr.toNat + (k + 7) / 8 ∧ (0 < k → t.rpos.val = (k - 1) % 8 + 1) ∧
      t = { s with cur := t.cur, rpos := t.rpos, iptr := t.iptr }) ∧
    (8 * (s.inp.length - s.iptr.toNat) < k → s.readBits k = none)

/-- R215: the three marker bytes, raw, whatever the writer holds. -/
def Obligations.WmarkAppendsTheMarker : Prop :=
  ∀ s : State, exec .wmark s = .next { s with out := s.out ++ [0x40#8, 0x23#8, 0x24#8] }

/-- R235: the byte at `IPTR` is loaded whole; with none the fault is `EndOfStream`. -/
def Obligations.RseedLoadsAByteOrFaults : Prop :=
  ∀ s : State,
    (∀ v : Byte, s.inp[s.iptr.toNat]? = some v →
      exec .rseed s = .next { s with cur := v, rpos := 0, iptr := s.iptr + 1#40 }) ∧
    (s.inp.length ≤ s.iptr.toNat → exec .rseed s = .next (s.takeFault .endOfStream))

/-- R237: three bytes are consumed, whatever they are, and nothing else changes; with fewer left, those are consumed and the fault is
`EndOfStream`. -/
def Obligations.Rskip3SkipsThreeBytesOrFaults : Prop :=
  ∀ s : State, s.StreamInv →
    (s.iptr.toNat + 3 ≤ s.inp.length → exec .rskip3 s = .next { s with iptr := s.iptr + 3#40 }) ∧
    (s.inp.length < s.iptr.toNat + 3 →
      exec .rskip3 s = .next (({ s with iptr := BitVec.ofNat 40 s.inp.length } : State).takeFault .endOfStream))

/-! The Frequency Counter (`41_frequency_counter.md`). -/

/-- R130: where no byte value occurs `2^32` times from `IPTR` on, the table holds the occurrences, `TOTAL` their sum, `IPTR` the end,
and nothing else changes. -/
def Obligations.FcntCountsTheRestOfTheInput : Prop :=
  ∀ s : State, s.StreamInv → (∀ v, (s.inp.drop s.iptr.toNat).count v < 2 ^ 32) →
    ∃ t, exec .fcnt s = .next t ∧ (∀ v, (t.count v).toNat = (s.inp.drop s.iptr.toNat).count v) ∧
      t.total.toNat = s.inp.length - s.iptr.toNat ∧ t.iptr.toNat = s.inp.length ∧
      t = { s with ft := t.ft, total := t.total, iptr := t.iptr }

/-- R131: the `2^32`th occurrence of a byte value raises `CountOverflow`, with `IPTR` past it and nothing emitted. -/
def Obligations.FcntRaisesCountOverflow : Prop :=
  ∀ (s : State) (p q : List Byte) (v : Byte), s.StreamInv → s.inp.drop s.iptr.toNat = p ++ v :: q →
    (∀ u, p.count u < 2 ^ 32) → p.count v = 2 ^ 32 - 1 →
    ∃ t, exec .fcnt s = .next t ∧ t.status = 0x71#8 ∧ t.iptr.toNat = s.iptr.toNat + p.length + 1 ∧ t.inp = s.inp ∧ t.out = s.out

/-! The Tree Builder (`42_tree_builder.md`). -/

/-- R148: with every count 0, `TBUILD` raises `EmptyInput` and the streams stay. -/
def Obligations.TbuildNeedsACount : Prop :=
  ∀ s : State, (∀ v, s.count v = 0#32) →
    ∃ t, exec .tbuild s = .next t ∧ t.status = 0x11#8 ∧ t.inp = s.inp ∧ t.iptr = s.iptr ∧ t.out = s.out

/-- R143: the index that `ExtractMin` returns is a member of the queue, the one whose key (weight, index) is the least; it leaves the
queue, and nothing else changes; and `ExtractMin` returns an index as long as the queue has a member. -/
def Obligations.ExtractMinTakesTheLeastKey : Prop :=
  ∀ s : State,
    (∀ i t, s.extractMin = some (i, t) → s.minMember = some i.toNat ∧ ∃ hi : i.toNat < 511, s.inq[i.toNat] = true ∧
      (∀ (j : Nat) (hj : j < 511), s.inq[j] = true → j ≠ i.toNat →
        keyLess (s.nodes[i.toNat].wt, i.toNat) (s.nodes[j].wt, j) = true) ∧
      (∀ (j : Nat) (hj : j < 511), t.inq[j] = if j = i.toNat then false else s.inq[j]) ∧ t = { s with inq := t.inq }) ∧
    (∀ (j : Nat) (hj : j < 511), s.inq[j] = true → ∃ i t, s.extractMin = some (i, t))

/-- R140, R141, R145, R149: with `n` byte values present `TBUILD` completes; the leaves are the first `n` entries in ascending byte
value with their counts as weights, `2n - 1` entries are in use, the last is the root, the position and the flags are set, the
queue is empty, and nothing else changes. -/
def Obligations.TbuildPlantsLeavesAndEndsAtTheRoot : Prop :=
  ∀ s : State, (∃ v, s.count v ≠ 0#32) →
    ∃ t, exec .tbuild s = .next t ∧ t.ncnt.val + 1 = 2 * s.present.length ∧ t.root.toNat + 1 = t.ncnt.val ∧ t.pos = t.root ∧
      t.tv = true ∧ t.cv = false ∧ t.QueueInv ∧
      (∀ (k : Nat) (v : Byte), s.present[k]? = some v →
        t.node (BitVec.ofNat 9 k) = some (leafRec v ((s.count v).setWidth 40))) ∧
      t = { s with nodes := t.nodes, ncnt := t.ncnt, root := t.root, pos := t.pos, tv := t.tv, cv := t.cv, inq := t.inq }

/-- R143, R144, R149: every entry above the leaves is an internal node over two earlier entries, the lesser key on the left, with the
sum of their weights; every earlier entry that no entry up to it has as a child has a greater key than both, so the two least were
merged; the root's weight is the sum of all counts, so no addition wrapped (R14). -/
def Obligations.TbuildMergesEarlierNodes : Prop :=
  ∀ s t : State, (∃ v, s.count v ≠ 0#32) → exec .tbuild s = .next t →
    (∀ i : Idx, s.present.length ≤ i.toNat → i.toNat < t.ncnt.val →
      ∃ l r nl nr, t.node l = some nl ∧ t.node r = some nr ∧ l.toNat < i.toNat ∧ r.toNat < i.toNat ∧
        keyLess (nl.wt, l.toNat) (nr.wt, r.toNat) = true ∧ t.node i = some (innerRec (nl.wt + nr.wt) l r) ∧
        ∀ k nk, k.toNat < i.toNat → t.node k = some nk →
          (∀ j nj, j.toNat ≤ i.toNat → t.node j = some nj → nj.leaf = false → nj.left ≠ k ∧ nj.right ≠ k) →
          keyLess (nr.wt, r.toNat) (nk.wt, k.toNat) = true) ∧
    ∃ n, t.node t.root = some n ∧ n.wt.toNat = (s.present.map fun v => (s.count v).toNat).sum

/-! The Code Table Generator (`43_code_table.md`). -/

/-- R160 to R163: with a tree in the arena `CTGEN` completes; every value has the path to its rightmost leaf as its code, a single leaf
the code 0, a value without a leaf none; each code has 1 to 255 bits; nothing else changes. -/
def Obligations.CtgenWritesTheCodesOfTheTree : Prop :=
  ∀ (s : State) (tr : Tree), s.tv = true → s.tree = some tr →
    ∃ t, exec .ctgen s = .next t ∧ t.cv = true ∧ (∀ v, t.code v = tr.codeOf v) ∧
      (∀ v x, t.code v = some x → 1 ≤ x.length ∧ x.length ≤ 255) ∧ t = { s with ct := t.ct, cv := t.cv }

/-- R164: after `TBUILD` and `CTGEN` a value has a code iff its count was not 0, and no code is a prefix of another value's. -/
def Obligations.BuiltCodesArePrefixFree : Prop :=
  ∀ s : State, (∃ v, s.count v ≠ 0#32) →
    ∃ t u, exec .tbuild s = .next t ∧ exec .ctgen t = .next u ∧
      (∀ v, u.codeValid v = true ↔ s.count v ≠ 0#32) ∧
      (∀ v w x y, v ≠ w → u.code v = some x → u.code w = some y → ¬ x <+: y)

/-- R160, R170, R238: `CTGEN`, `TSER` and `WALK` raise `NoTree` when `TV = 0`, before anything is read or written. -/
def Obligations.TreeCommandsNeedATree : Prop :=
  ∀ (s : State) (i : Instr), i ∈ [Instr.ctgen, .tser, .walk] → s.tv = false → exec i s = .next (s.takeFault .noTree)

/-! The Tree Serializer and Deserializer (`44_tree_serdes.md`). -/

/-- R170 to R172: with a tree in the arena `TSER` writes its pre-order bits and does nothing else; a tree of `n` leaves has `10n - 1`
of them. -/
def Obligations.TserWritesThePreOrderBits : Prop :=
  ∀ (s : State) (tr : Tree), s.tv = true → s.tree = some tr →
    exec .tser s = .next (s.writeBits tr.serBits) ∧ tr.serBits.length + 1 = 10 * tr.leaves.length ∧
    s.writeBits tr.serBits =
      { s with out := (s.writeBits tr.serBits).out, acc := (s.writeBits tr.serBits).acc, wcnt := (s.writeBits tr.serBits).wcnt }

/-- R174, R175, R178: where the reader's next bits are those of a tree of at most 256 leaves, `TDES` puts that tree into the arena, in
pre-order from entry 0, and stops at the bit after it, with no byte fetched ahead of need (R205, R207, R208); nothing else changes. -/
def Obligations.TdesReadsASerializedTree : Prop :=
  ∀ (s : State) (tr : Tree) (x : Bits), s.StreamInv → s.restBits = tr.serBits ++ x → tr.leaves.length ≤ 256 →
    ∃ t, exec .tdes s = .next t ∧ t.tree = some tr ∧ t.ncnt.val = tr.nodeCount ∧ t.root = 0#9 ∧ t.pos = 0#9 ∧
      t.tv = true ∧ t.cv = false ∧ t.restBits = x ∧ t.iptr.toNat = s.iptrAfter tr.serBits.length ∧ t.StreamInv ∧
      (∀ (i : Idx) (n : NodeRec), t.node i = some n → n.wt = 0#40 ∧ (n.leaf = false → n.left = i + 1#9 ∧ n.left.toNat < n.right.toNat)) ∧
      t = { s with nodes := t.nodes, ncnt := t.ncnt, root := t.root, pos := t.pos, tv := t.tv, cv := t.cv,
                   cur := t.cur, rpos := t.rpos, iptr := t.iptr }

/-- R174, R176, R177: on any input `TDES` completes, in the one of three ways that the remaining bits decide, and it never emits. Where
they begin with a tree of at most 256 leaves it makes that tree. Where they do not, and fewer than 511 whole nodes stand in front, they
end inside the tree: `CorruptStream` at the end of the input. Where they do not and 511 whole nodes stand in front: `TreeTooLarge`, those
nodes read and no bit more. `IPTR` is fixed in all three (R205, R207, R208, R270). -/
def Obligations.TdesEndsWithATreeOrAFault : Prop :=
  ∀ s : State, s.StreamInv → s.fault = false →
    ∃ t, exec .tdes s = .next t ∧ t.out = s.out ∧ t.inp = s.inp ∧
      ((t.tv = true ∧ t.fault = false ∧ ∃ (tr : Tree) (x : Bits), s.restBits = tr.serBits ++ x ∧ tr.leaves.length ≤ 256 ∧
          t.tree = some tr ∧ t.iptr.toNat = s.iptrAfter tr.serBits.length) ∨
       (t.status = 0x21#8 ∧ t.iptr.toNat = s.inp.length ∧
          (∀ (tr : Tree) (x : Bits), s.restBits = tr.serBits ++ x → 256 < tr.leaves.length) ∧
          ∀ ns : List Bits, (∀ x ∈ ns, isNodeBits x) → ns.flatten <+: s.restBits → ns.length < 511) ∨
       (t.status = 0x61#8 ∧ (∀ (tr : Tree) (x : Bits), s.restBits = tr.serBits ++ x → 256 < tr.leaves.length) ∧
          ∃ ns : List Bits, ns.length = 511 ∧ (∀ x ∈ ns, isNodeBits x) ∧ ns.flatten <+: s.restBits ∧
            t.iptr.toNat = s.iptrAfter ns.flatten.length))

/-- R176: a stream that describes a tree of more than 256 leaves raises `TreeTooLarge`, after the bits of its first 511 nodes and before
any further bit is read: `IPTR` stands where those end (R270). -/
def Obligations.TdesRefusesMoreThan256Leaves : Prop :=
  ∀ (s : State) (tr : Tree) (x : Bits), s.StreamInv → s.restBits = tr.serBits ++ x → 256 < tr.leaves.length →
    ∃ t, exec .tdes s = .next t ∧ t.status = 0x61#8 ∧ t.out = s.out ∧ t.inp = s.inp ∧
      t.iptr.toNat = s.iptrAfter ((tr.nodeBits.take 511).flatten).length

/-- R178: the bytes that `TSER` and `WFLUSH` emit from an empty writer, bound as the input with the reader on a byte boundary, make
`TDES` rebuild the same tree, in as many entries. -/
def Obligations.TreeRoundTrip : Prop :=
  ∀ s : State, s.fault = false → s.tv = true → s.wellFormed = true → s.wcnt.val = 0 → s.acc = 0#8 → s.rpos.val = 8 →
    ∃ t u bytes w, exec .tser s = .next t ∧ exec .wflush t = .next u ∧ u.out = s.out ++ bytes ∧
      exec .tdes (u.bindInput bytes) = .next w ∧ w.tv = true ∧ w.tree = s.tree ∧ s.tree.isSome = true ∧ w.ncnt = s.ncnt

/-! The Encoder (`47_encoder.md`). -/

/-- R216: where every byte from `IPTR` on has a code, `EMIT` writes those codes in order and ends at the end of the input; nothing
else changes. -/
def Obligations.EmitWritesTheCodesOfTheRest : Prop :=
  ∀ (s : State) (x : Bits), s.StreamInv → s.cv = true → codeBits s.code (s.inp.drop s.iptr.toNat) = some x →
    exec .emit s = .next { s.writeBits x with iptr := BitVec.ofNat 40 s.inp.length }

/-- R216: without a table `EMIT` raises `NoCode` before reading; at the first byte that has no code it raises it after that byte is
read and the codes before it are written. -/
def Obligations.EmitRaisesNoCode : Prop :=
  (∀ s : State, s.cv = false → exec .emit s = .next (s.takeFault .noCode)) ∧
  (∀ (s : State) (p q : List Byte) (v : Byte) (x : Bits), s.StreamInv → s.cv = true → s.inp.drop s.iptr.toNat = p ++ v :: q →
    codeBits s.code p = some x → s.code v = none →
    exec .emit s =
      .next (({ s.writeBits x with iptr := BitVec.ofNat 40 (s.iptr.toNat + p.length + 1) } : State).takeFault .noCode))

/-- R292, first item: `ENCODE` has the same effect on all state as its sequence of commands, for every input. On a core that is not
halted this is the rule. On a halted core `ENCODE` is ignored (R94, R263): that its own effect, as `exec` gives it in any state, agrees
with the list there too is the model's choice (log 21). -/
def Obligations.EncodeEqualsItsSequence : Prop :=
  ∀ s : State, s.inp.length < 2 ^ 40 → exec .encode s = runWords encodeList s

/-- R217, R218: for a non-empty input on which no count can overflow, `ENCODE` appends the packed pre-order bits of the tree that
`FCNT` and `TBUILD` make of it, the marker, and the packed codes of the input, and ends in the state R217 describes. -/
def Obligations.EncodeWritesTheFile : Prop :=
  ∀ s : State, s.inp ≠ [] → s.inp.length < 2 ^ 32 →
    ∃ t u v tr x, exec .encode s = .next t ∧
      exec .fcnt s.clear = .next u ∧ exec .tbuild u = .next v ∧ v.tree = some tr ∧ codeBits tr.codeOf s.inp = some x ∧
      t.out = s.out ++ pack tr.serBits ++ [0x40#8, 0x23#8, 0x24#8] ++ pack x ∧
      t = { v with ct := t.ct, cv := true, out := t.out } ∧ (∀ b, t.code b = tr.codeOf b) ∧
      t.iptr.toNat = s.inp.length ∧ t.fault = false ∧ t.tv = true ∧ t.res = false ∧ t.acc = 0#8 ∧ t.wcnt = 0 ∧ t.cur = 0#8 ∧
      t.rpos = 8 ∧ t.pos = t.root ∧ t.inp = s.inp

/-- R219: on an empty input `ENCODE` raises `EmptyInput` and emits nothing. -/
def Obligations.EncodeOfNothingRaisesEmptyInput : Prop :=
  ∀ s : State, s.inp = [] → ∃ t, exec .encode s = .next t ∧ t.status = 0x11#8 ∧ t.out = s.out ∧ t.iptr = 0#40

/-! The Decoder (`48_decoder.md`). -/

/-- R238 to R240: with a tree in the arena `WALK` walks every remaining bit. It emits what the walk on the abstract tree emits; it ends
normally wherever the bits end, with `POS` at the root iff they end at a symbol boundary; a 1 at a leaf root is `CorruptStream`, with
`IPTR` where that 1 was read (R270). -/
def Obligations.WalkDecodesThePayload : Prop :=
  ∀ (s : State) (tr : Tree), s.StreamInv → s.fault = false → s.tv = true → s.tree = some tr →
    (∀ e, (tr.walkFrom tr s.restBits).2 = some e → ∃ t, exec .walk s = .next t ∧ t.out = s.out ++ (tr.walkFrom tr s.restBits).1 ∧
      t.iptr.toNat = s.inp.length ∧ t.rpos = 8 ∧ (t.pos = t.root ↔ e = tr) ∧
      t = { s with out := t.out, iptr := t.iptr, cur := t.cur, rpos := t.rpos, pos := t.pos }) ∧
    ((tr.walkFrom tr s.restBits).2 = none → ∃ t, exec .walk s = .next t ∧ t.status = 0x21#8 ∧ t.inp = s.inp ∧
      t.out = s.out ++ (tr.walkFrom tr s.restBits).1 ∧
      ∃ n y, s.restBits = List.replicate n false ++ true :: y ∧ t.iptr.toNat = s.iptrAfter (n + 1))

/-- R241: `DECODE` of a tree section with its pad, any three bytes, and a payload: the tree is read, the pad and the three bytes are
dropped unexamined, the payload is walked. After `CorruptStream` `IPTR` stands where the payload's first 1 was read (R270). -/
def Obligations.DecodeReadsAFile : Prop :=
  ∀ (s : State) (tr : Tree) (sec mark payload : List Byte) (pad : Bits),
    s.inp = sec ++ mark ++ payload → s.inp.length < 2 ^ 40 → bitsOf sec = tr.serBits ++ pad → pad.length < 8 → mark.length = 3 →
    tr.leaves.length ≤ 256 →
    (∀ e, (tr.walkFrom tr (bitsOf payload)).2 = some e → ∃ t, exec .decode s = .next t ∧
      t.out = s.out ++ (tr.walkFrom tr (bitsOf payload)).1 ∧ t.inp = s.inp ∧ t.iptr.toNat = s.inp.length ∧ t.fault = false ∧
      t.tv = true ∧ t.cv = false ∧ t.res = false ∧ t.tree = some tr ∧ t.root = 0#9 ∧ (t.pos = t.root ↔ e = tr) ∧
      t.acc = 0#8 ∧ t.wcnt = 0 ∧ t.rpos = 8 ∧
      t = { s.clear with out := t.out, iptr := t.iptr, nodes := t.nodes, ncnt := t.ncnt, root := t.root, tv := t.tv, cur := t.cur,
                         rpos := t.rpos, pos := t.pos }) ∧
    ((tr.walkFrom tr (bitsOf payload)).2 = none → ∃ t, exec .decode s = .next t ∧ t.status = 0x21#8 ∧ t.inp = s.inp ∧
      t.out = s.out ++ (tr.walkFrom tr (bitsOf payload)).1 ∧
      ∃ n y, bitsOf payload = List.replicate n false ++ true :: y ∧ t.iptr.toNat = sec.length + 3 + (n / 8 + 1))

/-- R241, R242: on any input `DECODE` completes; it ends normally or with `CorruptStream` or with `TreeTooLarge`. -/
def Obligations.DecodeReportsOnlyTwoFaults : Prop :=
  ∀ s : State, s.inp.length < 2 ^ 40 →
    ∃ t, exec .decode s = .next t ∧ ((t.fault = false ∧ t.tv = true) ∨ t.status = 0x21#8 ∨ t.status = 0x61#8)

/-- R292, second item: `DECODE` and its sequence agree on `OUT`, `IPTR` and `FAULT` for every input, and on `ERR` but where the
sequence records `EndOfStream` and `DECODE` `CorruptStream`; without a fault they end in one state. On a halted core `DECODE` is
ignored (R94, R263): what is said of its own effect there rests on the model's choice (log 21). -/
def Obligations.DecodeAgreesWithItsSequence : Prop :=
  ∀ s : State, s.inp.length < 2 ^ 40 →
    ∃ t u, exec .decode s = .next t ∧ runWords decodeList s = .next u ∧ t.out = u.out ∧ t.iptr = u.iptr ∧ t.fault = u.fault ∧
      (t.err = u.err ∨ (u.err = .endOfStream ∧ t.err = .corruptStream)) ∧ (t.fault = false → t = u)

/-- R243: `DECODE` of the file that `ENCODE` writes gives the input back, followed by `floor(p / d)` copies of the leftmost leaf's
value, where `p` is the payload's pad and `d` the leftmost leaf's depth, at least 1; it ends at the root iff `p mod d = 0`. -/
def Obligations.DecodeOfEncodeIsTheInputThenPad : Prop :=
  ∀ s u : State, s.inp ≠ [] → s.inp.length < 2 ^ 32 →
    ∃ t file tr x w, exec .encode s = .next t ∧ t.out = s.out ++ file ∧ t.tree = some tr ∧ codeBits t.code s.inp = some x ∧
      exec .decode (u.bindInput file) = .next w ∧ w.fault = false ∧
      w.out = s.inp ++ List.replicate (padCount x.length / max tr.leftDepth 1) tr.leftmost ∧
      (w.pos = w.root ↔ padCount x.length % max tr.leftDepth 1 = 0)

/-! Invariants of every step (`10_state.md` R34, R36, R39; `60_exceptions.md` R262). -/

/-- Every invariant holds after hardware reset. -/
def Obligations.ResetMeetsTheInvariants : Prop := State.reset.Inv

/-- R26, R36, R62: the input stays short and `IPTR` stays inside it. -/
def Obligations.StepKeepsTheStreamInvariant : Prop :=
  ∀ s t : State, s.StreamInv → step s = .next t → t.StreamInv

/-- R193, R36: while `FAULT = 0` the writer's accumulator holds no bit above its count. Of the halted core nothing is asked, since R270
leaves `ACC` and `WCNT` unspecified there: the model's reading of R36 (log 12, DEDUCED). -/
def Obligations.StepKeepsTheWriterInvariant : Prop :=
  ∀ s t : State, s.WriterInv → step s = .next t → t.WriterInv

/-- R262, R263, R28, R39: a code stands in `ERR` exactly while halted, with `TV`, `CV`, `RES` 0 then; and `TV = 0` without a fault is
the state of reset and `CLR`. While halted nothing is asked of `NCNT`, `ROOT`, `POS`, which R270 leaves unspecified (log 12). -/
def Obligations.StepKeepsTheStatusInvariants : Prop :=
  ∀ s t : State, s.StatusInv → s.NoTreeInv → step s = .next t → t.StatusInv ∧ t.NoTreeInv

/-- R32, R36: the queue is empty between commands. -/
def Obligations.StepKeepsTheQueueEmpty : Prop :=
  ∀ s t : State, s.QueueInv → step s = .next t → t.QueueInv

/-- R34: whenever `TV = 1` the arena is a tree: every entry below `NCNT` is met exactly once from `ROOT`, at depth at most 255; and
`POS` is the root or an internal node. -/
def Obligations.StepKeepsTheTreeWellFormed : Prop :=
  ∀ s t : State, s.TreeInv → step s = .next t → t.TreeInv

/-- R40: whenever `CV = 1` the table is the one of the tree in the arena. -/
def Obligations.StepKeepsTheCodeTableOfTheTree : Prop :=
  ∀ s t : State, s.CodeInv → step s = .next t → t.CodeInv

/-- R295: from a state that meets the invariants, whatever admitted action the host takes, the model does not stop: every command has
its effect, or takes one of the core's eight faults. -/
def Obligations.NoStepFromAnInvariantStateStops : Prop :=
  ∀ s : State, s.Inv → HostAdmitted s → SafeOutcome (step s)

/-- R34 items 1 to 4 and R35, of every arena the invariant calls well-formed: an odd number of entries, one full binary tree over all of
them with `(NCNT + 1) / 2` leaves, at most 256, at depth at most 255; the children of an internal entry are two other entries. -/
def Obligations.WellFormedArenaIsAFullTree : Prop :=
  ∀ s : State, s.wellFormed = true →
    (∃ tr, s.tree = some tr ∧ tr.nodeCount = s.ncnt.val ∧ 2 * tr.leaves.length = s.ncnt.val + 1 ∧ tr.leaves.length ≤ 256 ∧
      tr.depth ≤ 255) ∧
    1 ≤ s.ncnt.val ∧ s.ncnt.val ≤ 511 ∧ s.ncnt.val % 2 = 1 ∧ s.root.toNat < s.ncnt.val ∧
    (∀ (i : Idx) (n : NodeRec), s.node i = some n → n.leaf = false →
      n.left.toNat < s.ncnt.val ∧ n.right.toNat < s.ncnt.val ∧ n.left ≠ n.right ∧ n.left ≠ i ∧ n.right ≠ i)
end

