-- ==== Sys2Proof/Laws/State.lean ====
section
/-! SUPPORT. For each update of State, what each field is afterwards: one lemma per field, true by rfl. -/

namespace Sys2Proof.Machine

@[simp] theorem reset_inp : State.reset.inp = [] := rfl
@[simp] theorem reset_iptr : State.reset.iptr = 0#40 := rfl
@[simp] theorem reset_out : State.reset.out = [] := rfl
@[simp] theorem reset_ft : State.reset.ft = Vector.replicate 256 0#32 := rfl
@[simp] theorem reset_total : State.reset.total = 0#40 := rfl
@[simp] theorem reset_nodes : State.reset.nodes = Vector.replicate 511 NodeRec.zero := rfl
@[simp] theorem reset_ncnt : State.reset.ncnt = 0 := rfl
@[simp] theorem reset_root : State.reset.root = 0#9 := rfl
@[simp] theorem reset_tv : State.reset.tv = false := rfl
@[simp] theorem reset_inq : State.reset.inq = Vector.replicate 511 false := rfl
@[simp] theorem reset_ct : State.reset.ct = Vector.replicate 256 none := rfl
@[simp] theorem reset_cv : State.reset.cv = false := rfl
@[simp] theorem reset_acc : State.reset.acc = 0#8 := rfl
@[simp] theorem reset_wcnt : State.reset.wcnt = 0 := rfl
@[simp] theorem reset_cur : State.reset.cur = 0#8 := rfl
@[simp] theorem reset_rpos : State.reset.rpos = 8 := rfl
@[simp] theorem reset_pos : State.reset.pos = 0#9 := rfl
@[simp] theorem reset_res : State.reset.res = false := rfl
@[simp] theorem reset_fault : State.reset.fault = false := rfl
@[simp] theorem reset_err : State.reset.err = .none := rfl
@[simp] theorem reset_pending : State.reset.pending = [] := rfl
@[simp] theorem reset_readData : State.reset.readData = none := rfl
@[simp] theorem reset_free : State.reset.free = 0 := rfl

@[simp] theorem emitByte_inp (s : State) (v : Byte) : (s.emitByte v).inp = s.inp := rfl
@[simp] theorem emitByte_iptr (s : State) (v : Byte) : (s.emitByte v).iptr = s.iptr := rfl
@[simp] theorem emitByte_out (s : State) (v : Byte) : (s.emitByte v).out = s.out ++ [v] := rfl
@[simp] theorem emitByte_ft (s : State) (v : Byte) : (s.emitByte v).ft = s.ft := rfl
@[simp] theorem emitByte_total (s : State) (v : Byte) : (s.emitByte v).total = s.total := rfl
@[simp] theorem emitByte_nodes (s : State) (v : Byte) : (s.emitByte v).nodes = s.nodes := rfl
@[simp] theorem emitByte_ncnt (s : State) (v : Byte) : (s.emitByte v).ncnt = s.ncnt := rfl
@[simp] theorem emitByte_root (s : State) (v : Byte) : (s.emitByte v).root = s.root := rfl
@[simp] theorem emitByte_tv (s : State) (v : Byte) : (s.emitByte v).tv = s.tv := rfl
@[simp] theorem emitByte_inq (s : State) (v : Byte) : (s.emitByte v).inq = s.inq := rfl
@[simp] theorem emitByte_ct (s : State) (v : Byte) : (s.emitByte v).ct = s.ct := rfl
@[simp] theorem emitByte_cv (s : State) (v : Byte) : (s.emitByte v).cv = s.cv := rfl
@[simp] theorem emitByte_acc (s : State) (v : Byte) : (s.emitByte v).acc = s.acc := rfl
@[simp] theorem emitByte_wcnt (s : State) (v : Byte) : (s.emitByte v).wcnt = s.wcnt := rfl
@[simp] theorem emitByte_cur (s : State) (v : Byte) : (s.emitByte v).cur = s.cur := rfl
@[simp] theorem emitByte_rpos (s : State) (v : Byte) : (s.emitByte v).rpos = s.rpos := rfl
@[simp] theorem emitByte_pos (s : State) (v : Byte) : (s.emitByte v).pos = s.pos := rfl
@[simp] theorem emitByte_res (s : State) (v : Byte) : (s.emitByte v).res = s.res := rfl
@[simp] theorem emitByte_fault (s : State) (v : Byte) : (s.emitByte v).fault = s.fault := rfl
@[simp] theorem emitByte_err (s : State) (v : Byte) : (s.emitByte v).err = s.err := rfl
@[simp] theorem emitByte_pending (s : State) (v : Byte) : (s.emitByte v).pending = s.pending := rfl
@[simp] theorem emitByte_readData (s : State) (v : Byte) : (s.emitByte v).readData = s.readData := rfl
@[simp] theorem emitByte_free (s : State) (v : Byte) : (s.emitByte v).free = s.free := rfl

@[simp] theorem rewind_inp (s : State) : (s.rewind).inp = s.inp := rfl
@[simp] theorem rewind_iptr (s : State) : (s.rewind).iptr = 0#40 := rfl
@[simp] theorem rewind_out (s : State) : (s.rewind).out = s.out := rfl
@[simp] theorem rewind_ft (s : State) : (s.rewind).ft = s.ft := rfl
@[simp] theorem rewind_total (s : State) : (s.rewind).total = s.total := rfl
@[simp] theorem rewind_nodes (s : State) : (s.rewind).nodes = s.nodes := rfl
@[simp] theorem rewind_ncnt (s : State) : (s.rewind).ncnt = s.ncnt := rfl
@[simp] theorem rewind_root (s : State) : (s.rewind).root = s.root := rfl
@[simp] theorem rewind_tv (s : State) : (s.rewind).tv = s.tv := rfl
@[simp] theorem rewind_inq (s : State) : (s.rewind).inq = s.inq := rfl
@[simp] theorem rewind_ct (s : State) : (s.rewind).ct = s.ct := rfl
@[simp] theorem rewind_cv (s : State) : (s.rewind).cv = s.cv := rfl
@[simp] theorem rewind_acc (s : State) : (s.rewind).acc = s.acc := rfl
@[simp] theorem rewind_wcnt (s : State) : (s.rewind).wcnt = s.wcnt := rfl
@[simp] theorem rewind_cur (s : State) : (s.rewind).cur = s.cur := rfl
@[simp] theorem rewind_rpos (s : State) : (s.rewind).rpos = s.rpos := rfl
@[simp] theorem rewind_pos (s : State) : (s.rewind).pos = s.pos := rfl
@[simp] theorem rewind_res (s : State) : (s.rewind).res = s.res := rfl
@[simp] theorem rewind_fault (s : State) : (s.rewind).fault = s.fault := rfl
@[simp] theorem rewind_err (s : State) : (s.rewind).err = s.err := rfl
@[simp] theorem rewind_pending (s : State) : (s.rewind).pending = s.pending := rfl
@[simp] theorem rewind_readData (s : State) : (s.rewind).readData = s.readData := rfl
@[simp] theorem rewind_free (s : State) : (s.rewind).free = s.free := rfl

@[simp] theorem setCodeValid_inp (s : State) : (s.setCodeValid).inp = s.inp := rfl
@[simp] theorem setCodeValid_iptr (s : State) : (s.setCodeValid).iptr = s.iptr := rfl
@[simp] theorem setCodeValid_out (s : State) : (s.setCodeValid).out = s.out := rfl
@[simp] theorem setCodeValid_ft (s : State) : (s.setCodeValid).ft = s.ft := rfl
@[simp] theorem setCodeValid_total (s : State) : (s.setCodeValid).total = s.total := rfl
@[simp] theorem setCodeValid_nodes (s : State) : (s.setCodeValid).nodes = s.nodes := rfl
@[simp] theorem setCodeValid_ncnt (s : State) : (s.setCodeValid).ncnt = s.ncnt := rfl
@[simp] theorem setCodeValid_root (s : State) : (s.setCodeValid).root = s.root := rfl
@[simp] theorem setCodeValid_tv (s : State) : (s.setCodeValid).tv = s.tv := rfl
@[simp] theorem setCodeValid_inq (s : State) : (s.setCodeValid).inq = s.inq := rfl
@[simp] theorem setCodeValid_ct (s : State) : (s.setCodeValid).ct = s.ct := rfl
@[simp] theorem setCodeValid_cv (s : State) : (s.setCodeValid).cv = true := rfl
@[simp] theorem setCodeValid_acc (s : State) : (s.setCodeValid).acc = s.acc := rfl
@[simp] theorem setCodeValid_wcnt (s : State) : (s.setCodeValid).wcnt = s.wcnt := rfl
@[simp] theorem setCodeValid_cur (s : State) : (s.setCodeValid).cur = s.cur := rfl
@[simp] theorem setCodeValid_rpos (s : State) : (s.setCodeValid).rpos = s.rpos := rfl
@[simp] theorem setCodeValid_pos (s : State) : (s.setCodeValid).pos = s.pos := rfl
@[simp] theorem setCodeValid_res (s : State) : (s.setCodeValid).res = s.res := rfl
@[simp] theorem setCodeValid_fault (s : State) : (s.setCodeValid).fault = s.fault := rfl
@[simp] theorem setCodeValid_err (s : State) : (s.setCodeValid).err = s.err := rfl
@[simp] theorem setCodeValid_pending (s : State) : (s.setCodeValid).pending = s.pending := rfl
@[simp] theorem setCodeValid_readData (s : State) : (s.setCodeValid).readData = s.readData := rfl
@[simp] theorem setCodeValid_free (s : State) : (s.setCodeValid).free = s.free := rfl

@[simp] theorem clearCodeValid_inp (s : State) : (s.clearCodeValid).inp = s.inp := rfl
@[simp] theorem clearCodeValid_iptr (s : State) : (s.clearCodeValid).iptr = s.iptr := rfl
@[simp] theorem clearCodeValid_out (s : State) : (s.clearCodeValid).out = s.out := rfl
@[simp] theorem clearCodeValid_ft (s : State) : (s.clearCodeValid).ft = s.ft := rfl
@[simp] theorem clearCodeValid_total (s : State) : (s.clearCodeValid).total = s.total := rfl
@[simp] theorem clearCodeValid_nodes (s : State) : (s.clearCodeValid).nodes = s.nodes := rfl
@[simp] theorem clearCodeValid_ncnt (s : State) : (s.clearCodeValid).ncnt = s.ncnt := rfl
@[simp] theorem clearCodeValid_root (s : State) : (s.clearCodeValid).root = s.root := rfl
@[simp] theorem clearCodeValid_tv (s : State) : (s.clearCodeValid).tv = s.tv := rfl
@[simp] theorem clearCodeValid_inq (s : State) : (s.clearCodeValid).inq = s.inq := rfl
@[simp] theorem clearCodeValid_ct (s : State) : (s.clearCodeValid).ct = s.ct := rfl
@[simp] theorem clearCodeValid_cv (s : State) : (s.clearCodeValid).cv = false := rfl
@[simp] theorem clearCodeValid_acc (s : State) : (s.clearCodeValid).acc = s.acc := rfl
@[simp] theorem clearCodeValid_wcnt (s : State) : (s.clearCodeValid).wcnt = s.wcnt := rfl
@[simp] theorem clearCodeValid_cur (s : State) : (s.clearCodeValid).cur = s.cur := rfl
@[simp] theorem clearCodeValid_rpos (s : State) : (s.clearCodeValid).rpos = s.rpos := rfl
@[simp] theorem clearCodeValid_pos (s : State) : (s.clearCodeValid).pos = s.pos := rfl
@[simp] theorem clearCodeValid_res (s : State) : (s.clearCodeValid).res = s.res := rfl
@[simp] theorem clearCodeValid_fault (s : State) : (s.clearCodeValid).fault = s.fault := rfl
@[simp] theorem clearCodeValid_err (s : State) : (s.clearCodeValid).err = s.err := rfl
@[simp] theorem clearCodeValid_pending (s : State) : (s.clearCodeValid).pending = s.pending := rfl
@[simp] theorem clearCodeValid_readData (s : State) : (s.clearCodeValid).readData = s.readData := rfl
@[simp] theorem clearCodeValid_free (s : State) : (s.clearCodeValid).free = s.free := rfl

@[simp] theorem clearTreeValid_inp (s : State) : (s.clearTreeValid).inp = s.inp := rfl
@[simp] theorem clearTreeValid_iptr (s : State) : (s.clearTreeValid).iptr = s.iptr := rfl
@[simp] theorem clearTreeValid_out (s : State) : (s.clearTreeValid).out = s.out := rfl
@[simp] theorem clearTreeValid_ft (s : State) : (s.clearTreeValid).ft = s.ft := rfl
@[simp] theorem clearTreeValid_total (s : State) : (s.clearTreeValid).total = s.total := rfl
@[simp] theorem clearTreeValid_nodes (s : State) : (s.clearTreeValid).nodes = s.nodes := rfl
@[simp] theorem clearTreeValid_ncnt (s : State) : (s.clearTreeValid).ncnt = s.ncnt := rfl
@[simp] theorem clearTreeValid_root (s : State) : (s.clearTreeValid).root = s.root := rfl
@[simp] theorem clearTreeValid_tv (s : State) : (s.clearTreeValid).tv = false := rfl
@[simp] theorem clearTreeValid_inq (s : State) : (s.clearTreeValid).inq = s.inq := rfl
@[simp] theorem clearTreeValid_ct (s : State) : (s.clearTreeValid).ct = s.ct := rfl
@[simp] theorem clearTreeValid_cv (s : State) : (s.clearTreeValid).cv = false := rfl
@[simp] theorem clearTreeValid_acc (s : State) : (s.clearTreeValid).acc = s.acc := rfl
@[simp] theorem clearTreeValid_wcnt (s : State) : (s.clearTreeValid).wcnt = s.wcnt := rfl
@[simp] theorem clearTreeValid_cur (s : State) : (s.clearTreeValid).cur = s.cur := rfl
@[simp] theorem clearTreeValid_rpos (s : State) : (s.clearTreeValid).rpos = s.rpos := rfl
@[simp] theorem clearTreeValid_pos (s : State) : (s.clearTreeValid).pos = s.pos := rfl
@[simp] theorem clearTreeValid_res (s : State) : (s.clearTreeValid).res = s.res := rfl
@[simp] theorem clearTreeValid_fault (s : State) : (s.clearTreeValid).fault = s.fault := rfl
@[simp] theorem clearTreeValid_err (s : State) : (s.clearTreeValid).err = s.err := rfl
@[simp] theorem clearTreeValid_pending (s : State) : (s.clearTreeValid).pending = s.pending := rfl
@[simp] theorem clearTreeValid_readData (s : State) : (s.clearTreeValid).readData = s.readData := rfl
@[simp] theorem clearTreeValid_free (s : State) : (s.clearTreeValid).free = s.free := rfl

@[simp] theorem setTree_inp (s : State) (r : Idx) : (s.setTree r).inp = s.inp := rfl
@[simp] theorem setTree_iptr (s : State) (r : Idx) : (s.setTree r).iptr = s.iptr := rfl
@[simp] theorem setTree_out (s : State) (r : Idx) : (s.setTree r).out = s.out := rfl
@[simp] theorem setTree_ft (s : State) (r : Idx) : (s.setTree r).ft = s.ft := rfl
@[simp] theorem setTree_total (s : State) (r : Idx) : (s.setTree r).total = s.total := rfl
@[simp] theorem setTree_nodes (s : State) (r : Idx) : (s.setTree r).nodes = s.nodes := rfl
@[simp] theorem setTree_ncnt (s : State) (r : Idx) : (s.setTree r).ncnt = s.ncnt := rfl
@[simp] theorem setTree_root (s : State) (r : Idx) : (s.setTree r).root = r := rfl
@[simp] theorem setTree_tv (s : State) (r : Idx) : (s.setTree r).tv = true := rfl
@[simp] theorem setTree_inq (s : State) (r : Idx) : (s.setTree r).inq = s.inq := rfl
@[simp] theorem setTree_ct (s : State) (r : Idx) : (s.setTree r).ct = s.ct := rfl
@[simp] theorem setTree_cv (s : State) (r : Idx) : (s.setTree r).cv = s.cv := rfl
@[simp] theorem setTree_acc (s : State) (r : Idx) : (s.setTree r).acc = s.acc := rfl
@[simp] theorem setTree_wcnt (s : State) (r : Idx) : (s.setTree r).wcnt = s.wcnt := rfl
@[simp] theorem setTree_cur (s : State) (r : Idx) : (s.setTree r).cur = s.cur := rfl
@[simp] theorem setTree_rpos (s : State) (r : Idx) : (s.setTree r).rpos = s.rpos := rfl
@[simp] theorem setTree_pos (s : State) (r : Idx) : (s.setTree r).pos = r := rfl
@[simp] theorem setTree_res (s : State) (r : Idx) : (s.setTree r).res = s.res := rfl
@[simp] theorem setTree_fault (s : State) (r : Idx) : (s.setTree r).fault = s.fault := rfl
@[simp] theorem setTree_err (s : State) (r : Idx) : (s.setTree r).err = s.err := rfl
@[simp] theorem setTree_pending (s : State) (r : Idx) : (s.setTree r).pending = s.pending := rfl
@[simp] theorem setTree_readData (s : State) (r : Idx) : (s.setTree r).readData = s.readData := rfl
@[simp] theorem setTree_free (s : State) (r : Idx) : (s.setTree r).free = s.free := rfl

@[simp] theorem setResult_inp (s : State) (t : Bool) : (s.setResult t).inp = s.inp := rfl
@[simp] theorem setResult_iptr (s : State) (t : Bool) : (s.setResult t).iptr = s.iptr := rfl
@[simp] theorem setResult_out (s : State) (t : Bool) : (s.setResult t).out = s.out := rfl
@[simp] theorem setResult_ft (s : State) (t : Bool) : (s.setResult t).ft = s.ft := rfl
@[simp] theorem setResult_total (s : State) (t : Bool) : (s.setResult t).total = s.total := rfl
@[simp] theorem setResult_nodes (s : State) (t : Bool) : (s.setResult t).nodes = s.nodes := rfl
@[simp] theorem setResult_ncnt (s : State) (t : Bool) : (s.setResult t).ncnt = s.ncnt := rfl
@[simp] theorem setResult_root (s : State) (t : Bool) : (s.setResult t).root = s.root := rfl
@[simp] theorem setResult_tv (s : State) (t : Bool) : (s.setResult t).tv = s.tv := rfl
@[simp] theorem setResult_inq (s : State) (t : Bool) : (s.setResult t).inq = s.inq := rfl
@[simp] theorem setResult_ct (s : State) (t : Bool) : (s.setResult t).ct = s.ct := rfl
@[simp] theorem setResult_cv (s : State) (t : Bool) : (s.setResult t).cv = s.cv := rfl
@[simp] theorem setResult_acc (s : State) (t : Bool) : (s.setResult t).acc = s.acc := rfl
@[simp] theorem setResult_wcnt (s : State) (t : Bool) : (s.setResult t).wcnt = s.wcnt := rfl
@[simp] theorem setResult_cur (s : State) (t : Bool) : (s.setResult t).cur = s.cur := rfl
@[simp] theorem setResult_rpos (s : State) (t : Bool) : (s.setResult t).rpos = s.rpos := rfl
@[simp] theorem setResult_pos (s : State) (t : Bool) : (s.setResult t).pos = s.pos := rfl
@[simp] theorem setResult_res (s : State) (t : Bool) : (s.setResult t).res = t := rfl
@[simp] theorem setResult_fault (s : State) (t : Bool) : (s.setResult t).fault = s.fault := rfl
@[simp] theorem setResult_err (s : State) (t : Bool) : (s.setResult t).err = s.err := rfl
@[simp] theorem setResult_pending (s : State) (t : Bool) : (s.setResult t).pending = s.pending := rfl
@[simp] theorem setResult_readData (s : State) (t : Bool) : (s.setResult t).readData = s.readData := rfl
@[simp] theorem setResult_free (s : State) (t : Bool) : (s.setResult t).free = s.free := rfl

@[simp] theorem setCount_inp (s : State) (v : Byte) (c : Count) : (s.setCount v c).inp = s.inp := rfl
@[simp] theorem setCount_iptr (s : State) (v : Byte) (c : Count) : (s.setCount v c).iptr = s.iptr := rfl
@[simp] theorem setCount_out (s : State) (v : Byte) (c : Count) : (s.setCount v c).out = s.out := rfl
@[simp] theorem setCount_ft (s : State) (v : Byte) (c : Count) : (s.setCount v c).ft = s.ft.set v.toNat c := rfl
@[simp] theorem setCount_total (s : State) (v : Byte) (c : Count) : (s.setCount v c).total = s.total := rfl
@[simp] theorem setCount_nodes (s : State) (v : Byte) (c : Count) : (s.setCount v c).nodes = s.nodes := rfl
@[simp] theorem setCount_ncnt (s : State) (v : Byte) (c : Count) : (s.setCount v c).ncnt = s.ncnt := rfl
@[simp] theorem setCount_root (s : State) (v : Byte) (c : Count) : (s.setCount v c).root = s.root := rfl
@[simp] theorem setCount_tv (s : State) (v : Byte) (c : Count) : (s.setCount v c).tv = s.tv := rfl
@[simp] theorem setCount_inq (s : State) (v : Byte) (c : Count) : (s.setCount v c).inq = s.inq := rfl
@[simp] theorem setCount_ct (s : State) (v : Byte) (c : Count) : (s.setCount v c).ct = s.ct := rfl
@[simp] theorem setCount_cv (s : State) (v : Byte) (c : Count) : (s.setCount v c).cv = s.cv := rfl
@[simp] theorem setCount_acc (s : State) (v : Byte) (c : Count) : (s.setCount v c).acc = s.acc := rfl
@[simp] theorem setCount_wcnt (s : State) (v : Byte) (c : Count) : (s.setCount v c).wcnt = s.wcnt := rfl
@[simp] theorem setCount_cur (s : State) (v : Byte) (c : Count) : (s.setCount v c).cur = s.cur := rfl
@[simp] theorem setCount_rpos (s : State) (v : Byte) (c : Count) : (s.setCount v c).rpos = s.rpos := rfl
@[simp] theorem setCount_pos (s : State) (v : Byte) (c : Count) : (s.setCount v c).pos = s.pos := rfl
@[simp] theorem setCount_res (s : State) (v : Byte) (c : Count) : (s.setCount v c).res = s.res := rfl
@[simp] theorem setCount_fault (s : State) (v : Byte) (c : Count) : (s.setCount v c).fault = s.fault := rfl
@[simp] theorem setCount_err (s : State) (v : Byte) (c : Count) : (s.setCount v c).err = s.err := rfl
@[simp] theorem setCount_pending (s : State) (v : Byte) (c : Count) : (s.setCount v c).pending = s.pending := rfl
@[simp] theorem setCount_readData (s : State) (v : Byte) (c : Count) : (s.setCount v c).readData = s.readData := rfl
@[simp] theorem setCount_free (s : State) (v : Byte) (c : Count) : (s.setCount v c).free = s.free := rfl

@[simp] theorem setCode_inp (s : State) (v : Byte) (x : Bits) : (s.setCode v x).inp = s.inp := rfl
@[simp] theorem setCode_iptr (s : State) (v : Byte) (x : Bits) : (s.setCode v x).iptr = s.iptr := rfl
@[simp] theorem setCode_out (s : State) (v : Byte) (x : Bits) : (s.setCode v x).out = s.out := rfl
@[simp] theorem setCode_ft (s : State) (v : Byte) (x : Bits) : (s.setCode v x).ft = s.ft := rfl
@[simp] theorem setCode_total (s : State) (v : Byte) (x : Bits) : (s.setCode v x).total = s.total := rfl
@[simp] theorem setCode_nodes (s : State) (v : Byte) (x : Bits) : (s.setCode v x).nodes = s.nodes := rfl
@[simp] theorem setCode_ncnt (s : State) (v : Byte) (x : Bits) : (s.setCode v x).ncnt = s.ncnt := rfl
@[simp] theorem setCode_root (s : State) (v : Byte) (x : Bits) : (s.setCode v x).root = s.root := rfl
@[simp] theorem setCode_tv (s : State) (v : Byte) (x : Bits) : (s.setCode v x).tv = s.tv := rfl
@[simp] theorem setCode_inq (s : State) (v : Byte) (x : Bits) : (s.setCode v x).inq = s.inq := rfl
@[simp] theorem setCode_ct (s : State) (v : Byte) (x : Bits) : (s.setCode v x).ct = s.ct.set v.toNat (some x) := rfl
@[simp] theorem setCode_cv (s : State) (v : Byte) (x : Bits) : (s.setCode v x).cv = s.cv := rfl
@[simp] theorem setCode_acc (s : State) (v : Byte) (x : Bits) : (s.setCode v x).acc = s.acc := rfl
@[simp] theorem setCode_wcnt (s : State) (v : Byte) (x : Bits) : (s.setCode v x).wcnt = s.wcnt := rfl
@[simp] theorem setCode_cur (s : State) (v : Byte) (x : Bits) : (s.setCode v x).cur = s.cur := rfl
@[simp] theorem setCode_rpos (s : State) (v : Byte) (x : Bits) : (s.setCode v x).rpos = s.rpos := rfl
@[simp] theorem setCode_pos (s : State) (v : Byte) (x : Bits) : (s.setCode v x).pos = s.pos := rfl
@[simp] theorem setCode_res (s : State) (v : Byte) (x : Bits) : (s.setCode v x).res = s.res := rfl
@[simp] theorem setCode_fault (s : State) (v : Byte) (x : Bits) : (s.setCode v x).fault = s.fault := rfl
@[simp] theorem setCode_err (s : State) (v : Byte) (x : Bits) : (s.setCode v x).err = s.err := rfl
@[simp] theorem setCode_pending (s : State) (v : Byte) (x : Bits) : (s.setCode v x).pending = s.pending := rfl
@[simp] theorem setCode_readData (s : State) (v : Byte) (x : Bits) : (s.setCode v x).readData = s.readData := rfl
@[simp] theorem setCode_free (s : State) (v : Byte) (x : Bits) : (s.setCode v x).free = s.free := rfl

@[simp] theorem setNode_inp (s : State) (i : Idx) (n : NodeRec) : (s.setNode i n).inp = s.inp := rfl
@[simp] theorem setNode_iptr (s : State) (i : Idx) (n : NodeRec) : (s.setNode i n).iptr = s.iptr := rfl
@[simp] theorem setNode_out (s : State) (i : Idx) (n : NodeRec) : (s.setNode i n).out = s.out := rfl
@[simp] theorem setNode_ft (s : State) (i : Idx) (n : NodeRec) : (s.setNode i n).ft = s.ft := rfl
@[simp] theorem setNode_total (s : State) (i : Idx) (n : NodeRec) : (s.setNode i n).total = s.total := rfl
@[simp] theorem setNode_nodes (s : State) (i : Idx) (n : NodeRec) : (s.setNode i n).nodes = s.nodes.setIfInBounds i.toNat n := rfl
@[simp] theorem setNode_ncnt (s : State) (i : Idx) (n : NodeRec) : (s.setNode i n).ncnt = s.ncnt := rfl
@[simp] theorem setNode_root (s : State) (i : Idx) (n : NodeRec) : (s.setNode i n).root = s.root := rfl
@[simp] theorem setNode_tv (s : State) (i : Idx) (n : NodeRec) : (s.setNode i n).tv = s.tv := rfl
@[simp] theorem setNode_inq (s : State) (i : Idx) (n : NodeRec) : (s.setNode i n).inq = s.inq := rfl
@[simp] theorem setNode_ct (s : State) (i : Idx) (n : NodeRec) : (s.setNode i n).ct = s.ct := rfl
@[simp] theorem setNode_cv (s : State) (i : Idx) (n : NodeRec) : (s.setNode i n).cv = s.cv := rfl
@[simp] theorem setNode_acc (s : State) (i : Idx) (n : NodeRec) : (s.setNode i n).acc = s.acc := rfl
@[simp] theorem setNode_wcnt (s : State) (i : Idx) (n : NodeRec) : (s.setNode i n).wcnt = s.wcnt := rfl
@[simp] theorem setNode_cur (s : State) (i : Idx) (n : NodeRec) : (s.setNode i n).cur = s.cur := rfl
@[simp] theorem setNode_rpos (s : State) (i : Idx) (n : NodeRec) : (s.setNode i n).rpos = s.rpos := rfl
@[simp] theorem setNode_pos (s : State) (i : Idx) (n : NodeRec) : (s.setNode i n).pos = s.pos := rfl
@[simp] theorem setNode_res (s : State) (i : Idx) (n : NodeRec) : (s.setNode i n).res = s.res := rfl
@[simp] theorem setNode_fault (s : State) (i : Idx) (n : NodeRec) : (s.setNode i n).fault = s.fault := rfl
@[simp] theorem setNode_err (s : State) (i : Idx) (n : NodeRec) : (s.setNode i n).err = s.err := rfl
@[simp] theorem setNode_pending (s : State) (i : Idx) (n : NodeRec) : (s.setNode i n).pending = s.pending := rfl
@[simp] theorem setNode_readData (s : State) (i : Idx) (n : NodeRec) : (s.setNode i n).readData = s.readData := rfl
@[simp] theorem setNode_free (s : State) (i : Idx) (n : NodeRec) : (s.setNode i n).free = s.free := rfl

@[simp] theorem clearCounts_inp (s : State) : (s.clearCounts).inp = s.inp := rfl
@[simp] theorem clearCounts_iptr (s : State) : (s.clearCounts).iptr = s.iptr := rfl
@[simp] theorem clearCounts_out (s : State) : (s.clearCounts).out = s.out := rfl
@[simp] theorem clearCounts_ft (s : State) : (s.clearCounts).ft = Vector.replicate 256 0#32 := rfl
@[simp] theorem clearCounts_total (s : State) : (s.clearCounts).total = 0#40 := rfl
@[simp] theorem clearCounts_nodes (s : State) : (s.clearCounts).nodes = s.nodes := rfl
@[simp] theorem clearCounts_ncnt (s : State) : (s.clearCounts).ncnt = s.ncnt := rfl
@[simp] theorem clearCounts_root (s : State) : (s.clearCounts).root = s.root := rfl
@[simp] theorem clearCounts_tv (s : State) : (s.clearCounts).tv = s.tv := rfl
@[simp] theorem clearCounts_inq (s : State) : (s.clearCounts).inq = s.inq := rfl
@[simp] theorem clearCounts_ct (s : State) : (s.clearCounts).ct = s.ct := rfl
@[simp] theorem clearCounts_cv (s : State) : (s.clearCounts).cv = s.cv := rfl
@[simp] theorem clearCounts_acc (s : State) : (s.clearCounts).acc = s.acc := rfl
@[simp] theorem clearCounts_wcnt (s : State) : (s.clearCounts).wcnt = s.wcnt := rfl
@[simp] theorem clearCounts_cur (s : State) : (s.clearCounts).cur = s.cur := rfl
@[simp] theorem clearCounts_rpos (s : State) : (s.clearCounts).rpos = s.rpos := rfl
@[simp] theorem clearCounts_pos (s : State) : (s.clearCounts).pos = s.pos := rfl
@[simp] theorem clearCounts_res (s : State) : (s.clearCounts).res = s.res := rfl
@[simp] theorem clearCounts_fault (s : State) : (s.clearCounts).fault = s.fault := rfl
@[simp] theorem clearCounts_err (s : State) : (s.clearCounts).err = s.err := rfl
@[simp] theorem clearCounts_pending (s : State) : (s.clearCounts).pending = s.pending := rfl
@[simp] theorem clearCounts_readData (s : State) : (s.clearCounts).readData = s.readData := rfl
@[simp] theorem clearCounts_free (s : State) : (s.clearCounts).free = s.free := rfl

@[simp] theorem countByte_inp (s : State) (v : Byte) : (s.countByte v).inp = s.inp := rfl
@[simp] theorem countByte_iptr (s : State) (v : Byte) : (s.countByte v).iptr = s.iptr := rfl
@[simp] theorem countByte_out (s : State) (v : Byte) : (s.countByte v).out = s.out := rfl
@[simp] theorem countByte_ft (s : State) (v : Byte) : (s.countByte v).ft = s.ft.set v.toNat (s.count v + 1#32) := rfl
@[simp] theorem countByte_total (s : State) (v : Byte) : (s.countByte v).total = s.total + 1#40 := rfl
@[simp] theorem countByte_nodes (s : State) (v : Byte) : (s.countByte v).nodes = s.nodes := rfl
@[simp] theorem countByte_ncnt (s : State) (v : Byte) : (s.countByte v).ncnt = s.ncnt := rfl
@[simp] theorem countByte_root (s : State) (v : Byte) : (s.countByte v).root = s.root := rfl
@[simp] theorem countByte_tv (s : State) (v : Byte) : (s.countByte v).tv = s.tv := rfl
@[simp] theorem countByte_inq (s : State) (v : Byte) : (s.countByte v).inq = s.inq := rfl
@[simp] theorem countByte_ct (s : State) (v : Byte) : (s.countByte v).ct = s.ct := rfl
@[simp] theorem countByte_cv (s : State) (v : Byte) : (s.countByte v).cv = s.cv := rfl
@[simp] theorem countByte_acc (s : State) (v : Byte) : (s.countByte v).acc = s.acc := rfl
@[simp] theorem countByte_wcnt (s : State) (v : Byte) : (s.countByte v).wcnt = s.wcnt := rfl
@[simp] theorem countByte_cur (s : State) (v : Byte) : (s.countByte v).cur = s.cur := rfl
@[simp] theorem countByte_rpos (s : State) (v : Byte) : (s.countByte v).rpos = s.rpos := rfl
@[simp] theorem countByte_pos (s : State) (v : Byte) : (s.countByte v).pos = s.pos := rfl
@[simp] theorem countByte_res (s : State) (v : Byte) : (s.countByte v).res = s.res := rfl
@[simp] theorem countByte_fault (s : State) (v : Byte) : (s.countByte v).fault = s.fault := rfl
@[simp] theorem countByte_err (s : State) (v : Byte) : (s.countByte v).err = s.err := rfl
@[simp] theorem countByte_pending (s : State) (v : Byte) : (s.countByte v).pending = s.pending := rfl
@[simp] theorem countByte_readData (s : State) (v : Byte) : (s.countByte v).readData = s.readData := rfl
@[simp] theorem countByte_free (s : State) (v : Byte) : (s.countByte v).free = s.free := rfl

@[simp] theorem clearQueue_inp (s : State) : (s.clearQueue).inp = s.inp := rfl
@[simp] theorem clearQueue_iptr (s : State) : (s.clearQueue).iptr = s.iptr := rfl
@[simp] theorem clearQueue_out (s : State) : (s.clearQueue).out = s.out := rfl
@[simp] theorem clearQueue_ft (s : State) : (s.clearQueue).ft = s.ft := rfl
@[simp] theorem clearQueue_total (s : State) : (s.clearQueue).total = s.total := rfl
@[simp] theorem clearQueue_nodes (s : State) : (s.clearQueue).nodes = s.nodes := rfl
@[simp] theorem clearQueue_ncnt (s : State) : (s.clearQueue).ncnt = s.ncnt := rfl
@[simp] theorem clearQueue_root (s : State) : (s.clearQueue).root = s.root := rfl
@[simp] theorem clearQueue_tv (s : State) : (s.clearQueue).tv = s.tv := rfl
@[simp] theorem clearQueue_inq (s : State) : (s.clearQueue).inq = Vector.replicate 511 false := rfl
@[simp] theorem clearQueue_ct (s : State) : (s.clearQueue).ct = s.ct := rfl
@[simp] theorem clearQueue_cv (s : State) : (s.clearQueue).cv = s.cv := rfl
@[simp] theorem clearQueue_acc (s : State) : (s.clearQueue).acc = s.acc := rfl
@[simp] theorem clearQueue_wcnt (s : State) : (s.clearQueue).wcnt = s.wcnt := rfl
@[simp] theorem clearQueue_cur (s : State) : (s.clearQueue).cur = s.cur := rfl
@[simp] theorem clearQueue_rpos (s : State) : (s.clearQueue).rpos = s.rpos := rfl
@[simp] theorem clearQueue_pos (s : State) : (s.clearQueue).pos = s.pos := rfl
@[simp] theorem clearQueue_res (s : State) : (s.clearQueue).res = s.res := rfl
@[simp] theorem clearQueue_fault (s : State) : (s.clearQueue).fault = s.fault := rfl
@[simp] theorem clearQueue_err (s : State) : (s.clearQueue).err = s.err := rfl
@[simp] theorem clearQueue_pending (s : State) : (s.clearQueue).pending = s.pending := rfl
@[simp] theorem clearQueue_readData (s : State) : (s.clearQueue).readData = s.readData := rfl
@[simp] theorem clearQueue_free (s : State) : (s.clearQueue).free = s.free := rfl

@[simp] theorem insertNode_inp (s : State) (n : NodeRec) : (s.insertNode n).inp = s.inp := rfl
@[simp] theorem insertNode_iptr (s : State) (n : NodeRec) : (s.insertNode n).iptr = s.iptr := rfl
@[simp] theorem insertNode_out (s : State) (n : NodeRec) : (s.insertNode n).out = s.out := rfl
@[simp] theorem insertNode_ft (s : State) (n : NodeRec) : (s.insertNode n).ft = s.ft := rfl
@[simp] theorem insertNode_total (s : State) (n : NodeRec) : (s.insertNode n).total = s.total := rfl
@[simp] theorem insertNode_nodes (s : State) (n : NodeRec) : (s.insertNode n).nodes = s.nodes.setIfInBounds s.nextIdx.toNat n := rfl
@[simp] theorem insertNode_ncnt (s : State) (n : NodeRec) : (s.insertNode n).ncnt = s.ncnt + 1 := rfl
@[simp] theorem insertNode_root (s : State) (n : NodeRec) : (s.insertNode n).root = s.root := rfl
@[simp] theorem insertNode_tv (s : State) (n : NodeRec) : (s.insertNode n).tv = s.tv := rfl
@[simp] theorem insertNode_inq (s : State) (n : NodeRec) : (s.insertNode n).inq = s.inq.setIfInBounds s.ncnt.val true := rfl
@[simp] theorem insertNode_ct (s : State) (n : NodeRec) : (s.insertNode n).ct = s.ct := rfl
@[simp] theorem insertNode_cv (s : State) (n : NodeRec) : (s.insertNode n).cv = s.cv := rfl
@[simp] theorem insertNode_acc (s : State) (n : NodeRec) : (s.insertNode n).acc = s.acc := rfl
@[simp] theorem insertNode_wcnt (s : State) (n : NodeRec) : (s.insertNode n).wcnt = s.wcnt := rfl
@[simp] theorem insertNode_cur (s : State) (n : NodeRec) : (s.insertNode n).cur = s.cur := rfl
@[simp] theorem insertNode_rpos (s : State) (n : NodeRec) : (s.insertNode n).rpos = s.rpos := rfl
@[simp] theorem insertNode_pos (s : State) (n : NodeRec) : (s.insertNode n).pos = s.pos := rfl
@[simp] theorem insertNode_res (s : State) (n : NodeRec) : (s.insertNode n).res = s.res := rfl
@[simp] theorem insertNode_fault (s : State) (n : NodeRec) : (s.insertNode n).fault = s.fault := rfl
@[simp] theorem insertNode_err (s : State) (n : NodeRec) : (s.insertNode n).err = s.err := rfl
@[simp] theorem insertNode_pending (s : State) (n : NodeRec) : (s.insertNode n).pending = s.pending := rfl
@[simp] theorem insertNode_readData (s : State) (n : NodeRec) : (s.insertNode n).readData = s.readData := rfl
@[simp] theorem insertNode_free (s : State) (n : NodeRec) : (s.insertNode n).free = s.free := rfl

@[simp] theorem clearCodes_inp (s : State) : (s.clearCodes).inp = s.inp := rfl
@[simp] theorem clearCodes_iptr (s : State) : (s.clearCodes).iptr = s.iptr := rfl
@[simp] theorem clearCodes_out (s : State) : (s.clearCodes).out = s.out := rfl
@[simp] theorem clearCodes_ft (s : State) : (s.clearCodes).ft = s.ft := rfl
@[simp] theorem clearCodes_total (s : State) : (s.clearCodes).total = s.total := rfl
@[simp] theorem clearCodes_nodes (s : State) : (s.clearCodes).nodes = s.nodes := rfl
@[simp] theorem clearCodes_ncnt (s : State) : (s.clearCodes).ncnt = s.ncnt := rfl
@[simp] theorem clearCodes_root (s : State) : (s.clearCodes).root = s.root := rfl
@[simp] theorem clearCodes_tv (s : State) : (s.clearCodes).tv = s.tv := rfl
@[simp] theorem clearCodes_inq (s : State) : (s.clearCodes).inq = s.inq := rfl
@[simp] theorem clearCodes_ct (s : State) : (s.clearCodes).ct = Vector.replicate 256 none := rfl
@[simp] theorem clearCodes_cv (s : State) : (s.clearCodes).cv = s.cv := rfl
@[simp] theorem clearCodes_acc (s : State) : (s.clearCodes).acc = s.acc := rfl
@[simp] theorem clearCodes_wcnt (s : State) : (s.clearCodes).wcnt = s.wcnt := rfl
@[simp] theorem clearCodes_cur (s : State) : (s.clearCodes).cur = s.cur := rfl
@[simp] theorem clearCodes_rpos (s : State) : (s.clearCodes).rpos = s.rpos := rfl
@[simp] theorem clearCodes_pos (s : State) : (s.clearCodes).pos = s.pos := rfl
@[simp] theorem clearCodes_res (s : State) : (s.clearCodes).res = s.res := rfl
@[simp] theorem clearCodes_fault (s : State) : (s.clearCodes).fault = s.fault := rfl
@[simp] theorem clearCodes_err (s : State) : (s.clearCodes).err = s.err := rfl
@[simp] theorem clearCodes_pending (s : State) : (s.clearCodes).pending = s.pending := rfl
@[simp] theorem clearCodes_readData (s : State) : (s.clearCodes).readData = s.readData := rfl
@[simp] theorem clearCodes_free (s : State) : (s.clearCodes).free = s.free := rfl

@[simp] theorem allocNode_inp (s : State) : (s.allocNode).inp = s.inp := rfl
@[simp] theorem allocNode_iptr (s : State) : (s.allocNode).iptr = s.iptr := rfl
@[simp] theorem allocNode_out (s : State) : (s.allocNode).out = s.out := rfl
@[simp] theorem allocNode_ft (s : State) : (s.allocNode).ft = s.ft := rfl
@[simp] theorem allocNode_total (s : State) : (s.allocNode).total = s.total := rfl
@[simp] theorem allocNode_nodes (s : State) : (s.allocNode).nodes = s.nodes := rfl
@[simp] theorem allocNode_ncnt (s : State) : (s.allocNode).ncnt = s.ncnt + 1 := rfl
@[simp] theorem allocNode_root (s : State) : (s.allocNode).root = s.root := rfl
@[simp] theorem allocNode_tv (s : State) : (s.allocNode).tv = s.tv := rfl
@[simp] theorem allocNode_inq (s : State) : (s.allocNode).inq = s.inq := rfl
@[simp] theorem allocNode_ct (s : State) : (s.allocNode).ct = s.ct := rfl
@[simp] theorem allocNode_cv (s : State) : (s.allocNode).cv = s.cv := rfl
@[simp] theorem allocNode_acc (s : State) : (s.allocNode).acc = s.acc := rfl
@[simp] theorem allocNode_wcnt (s : State) : (s.allocNode).wcnt = s.wcnt := rfl
@[simp] theorem allocNode_cur (s : State) : (s.allocNode).cur = s.cur := rfl
@[simp] theorem allocNode_rpos (s : State) : (s.allocNode).rpos = s.rpos := rfl
@[simp] theorem allocNode_pos (s : State) : (s.allocNode).pos = s.pos := rfl
@[simp] theorem allocNode_res (s : State) : (s.allocNode).res = s.res := rfl
@[simp] theorem allocNode_fault (s : State) : (s.allocNode).fault = s.fault := rfl
@[simp] theorem allocNode_err (s : State) : (s.allocNode).err = s.err := rfl
@[simp] theorem allocNode_pending (s : State) : (s.allocNode).pending = s.pending := rfl
@[simp] theorem allocNode_readData (s : State) : (s.allocNode).readData = s.readData := rfl
@[simp] theorem allocNode_free (s : State) : (s.allocNode).free = s.free := rfl

@[simp] theorem loadByte_inp (s : State) (v : Byte) : (s.loadByte v).inp = s.inp := rfl
@[simp] theorem loadByte_iptr (s : State) (v : Byte) : (s.loadByte v).iptr = s.iptr := rfl
@[simp] theorem loadByte_out (s : State) (v : Byte) : (s.loadByte v).out = s.out := rfl
@[simp] theorem loadByte_ft (s : State) (v : Byte) : (s.loadByte v).ft = s.ft := rfl
@[simp] theorem loadByte_total (s : State) (v : Byte) : (s.loadByte v).total = s.total := rfl
@[simp] theorem loadByte_nodes (s : State) (v : Byte) : (s.loadByte v).nodes = s.nodes := rfl
@[simp] theorem loadByte_ncnt (s : State) (v : Byte) : (s.loadByte v).ncnt = s.ncnt := rfl
@[simp] theorem loadByte_root (s : State) (v : Byte) : (s.loadByte v).root = s.root := rfl
@[simp] theorem loadByte_tv (s : State) (v : Byte) : (s.loadByte v).tv = s.tv := rfl
@[simp] theorem loadByte_inq (s : State) (v : Byte) : (s.loadByte v).inq = s.inq := rfl
@[simp] theorem loadByte_ct (s : State) (v : Byte) : (s.loadByte v).ct = s.ct := rfl
@[simp] theorem loadByte_cv (s : State) (v : Byte) : (s.loadByte v).cv = s.cv := rfl
@[simp] theorem loadByte_acc (s : State) (v : Byte) : (s.loadByte v).acc = s.acc := rfl
@[simp] theorem loadByte_wcnt (s : State) (v : Byte) : (s.loadByte v).wcnt = s.wcnt := rfl
@[simp] theorem loadByte_cur (s : State) (v : Byte) : (s.loadByte v).cur = v := rfl
@[simp] theorem loadByte_rpos (s : State) (v : Byte) : (s.loadByte v).rpos = 0 := rfl
@[simp] theorem loadByte_pos (s : State) (v : Byte) : (s.loadByte v).pos = s.pos := rfl
@[simp] theorem loadByte_res (s : State) (v : Byte) : (s.loadByte v).res = s.res := rfl
@[simp] theorem loadByte_fault (s : State) (v : Byte) : (s.loadByte v).fault = s.fault := rfl
@[simp] theorem loadByte_err (s : State) (v : Byte) : (s.loadByte v).err = s.err := rfl
@[simp] theorem loadByte_pending (s : State) (v : Byte) : (s.loadByte v).pending = s.pending := rfl
@[simp] theorem loadByte_readData (s : State) (v : Byte) : (s.loadByte v).readData = s.readData := rfl
@[simp] theorem loadByte_free (s : State) (v : Byte) : (s.loadByte v).free = s.free := rfl

@[simp] theorem alignReader_inp (s : State) : (s.alignReader).inp = s.inp := rfl
@[simp] theorem alignReader_iptr (s : State) : (s.alignReader).iptr = s.iptr := rfl
@[simp] theorem alignReader_out (s : State) : (s.alignReader).out = s.out := rfl
@[simp] theorem alignReader_ft (s : State) : (s.alignReader).ft = s.ft := rfl
@[simp] theorem alignReader_total (s : State) : (s.alignReader).total = s.total := rfl
@[simp] theorem alignReader_nodes (s : State) : (s.alignReader).nodes = s.nodes := rfl
@[simp] theorem alignReader_ncnt (s : State) : (s.alignReader).ncnt = s.ncnt := rfl
@[simp] theorem alignReader_root (s : State) : (s.alignReader).root = s.root := rfl
@[simp] theorem alignReader_tv (s : State) : (s.alignReader).tv = s.tv := rfl
@[simp] theorem alignReader_inq (s : State) : (s.alignReader).inq = s.inq := rfl
@[simp] theorem alignReader_ct (s : State) : (s.alignReader).ct = s.ct := rfl
@[simp] theorem alignReader_cv (s : State) : (s.alignReader).cv = s.cv := rfl
@[simp] theorem alignReader_acc (s : State) : (s.alignReader).acc = s.acc := rfl
@[simp] theorem alignReader_wcnt (s : State) : (s.alignReader).wcnt = s.wcnt := rfl
@[simp] theorem alignReader_cur (s : State) : (s.alignReader).cur = s.cur := rfl
@[simp] theorem alignReader_rpos (s : State) : (s.alignReader).rpos = 8 := rfl
@[simp] theorem alignReader_pos (s : State) : (s.alignReader).pos = s.pos := rfl
@[simp] theorem alignReader_res (s : State) : (s.alignReader).res = s.res := rfl
@[simp] theorem alignReader_fault (s : State) : (s.alignReader).fault = s.fault := rfl
@[simp] theorem alignReader_err (s : State) : (s.alignReader).err = s.err := rfl
@[simp] theorem alignReader_pending (s : State) : (s.alignReader).pending = s.pending := rfl
@[simp] theorem alignReader_readData (s : State) : (s.alignReader).readData = s.readData := rfl
@[simp] theorem alignReader_free (s : State) : (s.alignReader).free = s.free := rfl

@[simp] theorem moveTo_inp (s : State) (p : Idx) : (s.moveTo p).inp = s.inp := rfl
@[simp] theorem moveTo_iptr (s : State) (p : Idx) : (s.moveTo p).iptr = s.iptr := rfl
@[simp] theorem moveTo_out (s : State) (p : Idx) : (s.moveTo p).out = s.out := rfl
@[simp] theorem moveTo_ft (s : State) (p : Idx) : (s.moveTo p).ft = s.ft := rfl
@[simp] theorem moveTo_total (s : State) (p : Idx) : (s.moveTo p).total = s.total := rfl
@[simp] theorem moveTo_nodes (s : State) (p : Idx) : (s.moveTo p).nodes = s.nodes := rfl
@[simp] theorem moveTo_ncnt (s : State) (p : Idx) : (s.moveTo p).ncnt = s.ncnt := rfl
@[simp] theorem moveTo_root (s : State) (p : Idx) : (s.moveTo p).root = s.root := rfl
@[simp] theorem moveTo_tv (s : State) (p : Idx) : (s.moveTo p).tv = s.tv := rfl
@[simp] theorem moveTo_inq (s : State) (p : Idx) : (s.moveTo p).inq = s.inq := rfl
@[simp] theorem moveTo_ct (s : State) (p : Idx) : (s.moveTo p).ct = s.ct := rfl
@[simp] theorem moveTo_cv (s : State) (p : Idx) : (s.moveTo p).cv = s.cv := rfl
@[simp] theorem moveTo_acc (s : State) (p : Idx) : (s.moveTo p).acc = s.acc := rfl
@[simp] theorem moveTo_wcnt (s : State) (p : Idx) : (s.moveTo p).wcnt = s.wcnt := rfl
@[simp] theorem moveTo_cur (s : State) (p : Idx) : (s.moveTo p).cur = s.cur := rfl
@[simp] theorem moveTo_rpos (s : State) (p : Idx) : (s.moveTo p).rpos = s.rpos := rfl
@[simp] theorem moveTo_pos (s : State) (p : Idx) : (s.moveTo p).pos = p := rfl
@[simp] theorem moveTo_res (s : State) (p : Idx) : (s.moveTo p).res = s.res := rfl
@[simp] theorem moveTo_fault (s : State) (p : Idx) : (s.moveTo p).fault = s.fault := rfl
@[simp] theorem moveTo_err (s : State) (p : Idx) : (s.moveTo p).err = s.err := rfl
@[simp] theorem moveTo_pending (s : State) (p : Idx) : (s.moveTo p).pending = s.pending := rfl
@[simp] theorem moveTo_readData (s : State) (p : Idx) : (s.moveTo p).readData = s.readData := rfl
@[simp] theorem moveTo_free (s : State) (p : Idx) : (s.moveTo p).free = s.free := rfl

@[simp] theorem bindInput_inp (s : State) (bytes : List Byte) : (s.bindInput bytes).inp = bytes := rfl
@[simp] theorem bindInput_iptr (s : State) (bytes : List Byte) : (s.bindInput bytes).iptr = 0#40 := rfl
@[simp] theorem bindInput_out (s : State) (bytes : List Byte) : (s.bindInput bytes).out = [] := rfl
@[simp] theorem bindInput_ft (s : State) (bytes : List Byte) : (s.bindInput bytes).ft = s.ft := rfl
@[simp] theorem bindInput_total (s : State) (bytes : List Byte) : (s.bindInput bytes).total = s.total := rfl
@[simp] theorem bindInput_nodes (s : State) (bytes : List Byte) : (s.bindInput bytes).nodes = s.nodes := rfl
@[simp] theorem bindInput_ncnt (s : State) (bytes : List Byte) : (s.bindInput bytes).ncnt = s.ncnt := rfl
@[simp] theorem bindInput_root (s : State) (bytes : List Byte) : (s.bindInput bytes).root = s.root := rfl
@[simp] theorem bindInput_tv (s : State) (bytes : List Byte) : (s.bindInput bytes).tv = s.tv := rfl
@[simp] theorem bindInput_inq (s : State) (bytes : List Byte) : (s.bindInput bytes).inq = s.inq := rfl
@[simp] theorem bindInput_ct (s : State) (bytes : List Byte) : (s.bindInput bytes).ct = s.ct := rfl
@[simp] theorem bindInput_cv (s : State) (bytes : List Byte) : (s.bindInput bytes).cv = s.cv := rfl
@[simp] theorem bindInput_acc (s : State) (bytes : List Byte) : (s.bindInput bytes).acc = s.acc := rfl
@[simp] theorem bindInput_wcnt (s : State) (bytes : List Byte) : (s.bindInput bytes).wcnt = s.wcnt := rfl
@[simp] theorem bindInput_cur (s : State) (bytes : List Byte) : (s.bindInput bytes).cur = s.cur := rfl
@[simp] theorem bindInput_rpos (s : State) (bytes : List Byte) : (s.bindInput bytes).rpos = s.rpos := rfl
@[simp] theorem bindInput_pos (s : State) (bytes : List Byte) : (s.bindInput bytes).pos = s.pos := rfl
@[simp] theorem bindInput_res (s : State) (bytes : List Byte) : (s.bindInput bytes).res = s.res := rfl
@[simp] theorem bindInput_fault (s : State) (bytes : List Byte) : (s.bindInput bytes).fault = s.fault := rfl
@[simp] theorem bindInput_err (s : State) (bytes : List Byte) : (s.bindInput bytes).err = s.err := rfl
@[simp] theorem bindInput_pending (s : State) (bytes : List Byte) : (s.bindInput bytes).pending = s.pending := rfl
@[simp] theorem bindInput_readData (s : State) (bytes : List Byte) : (s.bindInput bytes).readData = s.readData := rfl
@[simp] theorem bindInput_free (s : State) (bytes : List Byte) : (s.bindInput bytes).free = s.free := rfl

@[simp] theorem readPort_inp (s : State) (n : Nat) : (s.readPort n).inp = s.inp := rfl
@[simp] theorem readPort_iptr (s : State) (n : Nat) : (s.readPort n).iptr = s.iptr := rfl
@[simp] theorem readPort_out (s : State) (n : Nat) : (s.readPort n).out = s.out := rfl
@[simp] theorem readPort_ft (s : State) (n : Nat) : (s.readPort n).ft = s.ft := rfl
@[simp] theorem readPort_total (s : State) (n : Nat) : (s.readPort n).total = s.total := rfl
@[simp] theorem readPort_nodes (s : State) (n : Nat) : (s.readPort n).nodes = s.nodes := rfl
@[simp] theorem readPort_ncnt (s : State) (n : Nat) : (s.readPort n).ncnt = s.ncnt := rfl
@[simp] theorem readPort_root (s : State) (n : Nat) : (s.readPort n).root = s.root := rfl
@[simp] theorem readPort_tv (s : State) (n : Nat) : (s.readPort n).tv = s.tv := rfl
@[simp] theorem readPort_inq (s : State) (n : Nat) : (s.readPort n).inq = s.inq := rfl
@[simp] theorem readPort_ct (s : State) (n : Nat) : (s.readPort n).ct = s.ct := rfl
@[simp] theorem readPort_cv (s : State) (n : Nat) : (s.readPort n).cv = s.cv := rfl
@[simp] theorem readPort_acc (s : State) (n : Nat) : (s.readPort n).acc = s.acc := rfl
@[simp] theorem readPort_wcnt (s : State) (n : Nat) : (s.readPort n).wcnt = s.wcnt := rfl
@[simp] theorem readPort_cur (s : State) (n : Nat) : (s.readPort n).cur = s.cur := rfl
@[simp] theorem readPort_rpos (s : State) (n : Nat) : (s.readPort n).rpos = s.rpos := rfl
@[simp] theorem readPort_pos (s : State) (n : Nat) : (s.readPort n).pos = s.pos := rfl
@[simp] theorem readPort_res (s : State) (n : Nat) : (s.readPort n).res = s.res := rfl
@[simp] theorem readPort_fault (s : State) (n : Nat) : (s.readPort n).fault = s.fault := rfl
@[simp] theorem readPort_err (s : State) (n : Nat) : (s.readPort n).err = s.err := rfl
@[simp] theorem readPort_pending (s : State) (n : Nat) : (s.readPort n).pending = s.pending := rfl
@[simp] theorem readPort_readData (s : State) (n : Nat) : (s.readPort n).readData = some (portValue n s (Config.freeRead s.free)) := rfl
@[simp] theorem readPort_free (s : State) (n : Nat) : (s.readPort n).free = s.free + 1 := rfl

@[simp] theorem takeFault_inp (s : State) (e : FaultCode) : (s.takeFault e).inp = s.inp := rfl
@[simp] theorem takeFault_iptr (s : State) (e : FaultCode) : (s.takeFault e).iptr = s.iptr := rfl
@[simp] theorem takeFault_out (s : State) (e : FaultCode) : (s.takeFault e).out = s.out := rfl
@[simp] theorem takeFault_ft (s : State) (e : FaultCode) : (s.takeFault e).ft = Config.freeFreqTable s.free := rfl
@[simp] theorem takeFault_total (s : State) (e : FaultCode) : (s.takeFault e).total = Config.freeTotal s.free := rfl
@[simp] theorem takeFault_nodes (s : State) (e : FaultCode) : (s.takeFault e).nodes = Config.freeNodes s.free := rfl
@[simp] theorem takeFault_ncnt (s : State) (e : FaultCode) : (s.takeFault e).ncnt = Config.freeNodeCount s.free := rfl
@[simp] theorem takeFault_root (s : State) (e : FaultCode) : (s.takeFault e).root = Config.freeRoot s.free := rfl
@[simp] theorem takeFault_tv (s : State) (e : FaultCode) : (s.takeFault e).tv = false := rfl
@[simp] theorem takeFault_inq (s : State) (e : FaultCode) : (s.takeFault e).inq = s.inq := rfl
@[simp] theorem takeFault_ct (s : State) (e : FaultCode) : (s.takeFault e).ct = Config.freeCodeTable s.free := rfl
@[simp] theorem takeFault_cv (s : State) (e : FaultCode) : (s.takeFault e).cv = false := rfl
@[simp] theorem takeFault_acc (s : State) (e : FaultCode) : (s.takeFault e).acc = Config.freeAcc s.free := rfl
@[simp] theorem takeFault_wcnt (s : State) (e : FaultCode) : (s.takeFault e).wcnt = Config.freeWriteCount s.free := rfl
@[simp] theorem takeFault_cur (s : State) (e : FaultCode) : (s.takeFault e).cur = Config.freeCur s.free := rfl
@[simp] theorem takeFault_rpos (s : State) (e : FaultCode) : (s.takeFault e).rpos = Config.freeReadPos s.free := rfl
@[simp] theorem takeFault_pos (s : State) (e : FaultCode) : (s.takeFault e).pos = Config.freePos s.free := rfl
@[simp] theorem takeFault_res (s : State) (e : FaultCode) : (s.takeFault e).res = false := rfl
@[simp] theorem takeFault_fault (s : State) (e : FaultCode) : (s.takeFault e).fault = true := rfl
@[simp] theorem takeFault_err (s : State) (e : FaultCode) : (s.takeFault e).err = e := rfl
@[simp] theorem takeFault_pending (s : State) (e : FaultCode) : (s.takeFault e).pending = s.pending := rfl
@[simp] theorem takeFault_readData (s : State) (e : FaultCode) : (s.takeFault e).readData = s.readData := rfl
@[simp] theorem takeFault_free (s : State) (e : FaultCode) : (s.takeFault e).free = s.free + 1 := rfl

@[simp] theorem clear_inp (s : State) : (s.clear).inp = s.inp := rfl
@[simp] theorem clear_iptr (s : State) : (s.clear).iptr = 0#40 := rfl
@[simp] theorem clear_out (s : State) : (s.clear).out = s.out := rfl
@[simp] theorem clear_ft (s : State) : (s.clear).ft = Vector.replicate 256 0#32 := rfl
@[simp] theorem clear_total (s : State) : (s.clear).total = 0#40 := rfl
@[simp] theorem clear_nodes (s : State) : (s.clear).nodes = Vector.replicate 511 NodeRec.zero := rfl
@[simp] theorem clear_ncnt (s : State) : (s.clear).ncnt = 0 := rfl
@[simp] theorem clear_root (s : State) : (s.clear).root = 0#9 := rfl
@[simp] theorem clear_tv (s : State) : (s.clear).tv = false := rfl
@[simp] theorem clear_inq (s : State) : (s.clear).inq = Vector.replicate 511 false := rfl
@[simp] theorem clear_ct (s : State) : (s.clear).ct = Vector.replicate 256 none := rfl
@[simp] theorem clear_cv (s : State) : (s.clear).cv = false := rfl
@[simp] theorem clear_acc (s : State) : (s.clear).acc = 0#8 := rfl
@[simp] theorem clear_wcnt (s : State) : (s.clear).wcnt = 0 := rfl
@[simp] theorem clear_cur (s : State) : (s.clear).cur = 0#8 := rfl
@[simp] theorem clear_rpos (s : State) : (s.clear).rpos = 8 := rfl
@[simp] theorem clear_pos (s : State) : (s.clear).pos = 0#9 := rfl
@[simp] theorem clear_res (s : State) : (s.clear).res = false := rfl
@[simp] theorem clear_fault (s : State) : (s.clear).fault = false := rfl
@[simp] theorem clear_err (s : State) : (s.clear).err = .none := rfl
@[simp] theorem clear_pending (s : State) : (s.clear).pending = s.pending := rfl
@[simp] theorem clear_readData (s : State) : (s.clear).readData = s.readData := rfl
@[simp] theorem clear_free (s : State) : (s.clear).free = s.free := rfl

@[simp] theorem hardReset_inp (s : State) : (s.hardReset).inp = [] := rfl
@[simp] theorem hardReset_iptr (s : State) : (s.hardReset).iptr = 0#40 := rfl
@[simp] theorem hardReset_out (s : State) : (s.hardReset).out = [] := rfl
@[simp] theorem hardReset_ft (s : State) : (s.hardReset).ft = Vector.replicate 256 0#32 := rfl
@[simp] theorem hardReset_total (s : State) : (s.hardReset).total = 0#40 := rfl
@[simp] theorem hardReset_nodes (s : State) : (s.hardReset).nodes = Vector.replicate 511 NodeRec.zero := rfl
@[simp] theorem hardReset_ncnt (s : State) : (s.hardReset).ncnt = 0 := rfl
@[simp] theorem hardReset_root (s : State) : (s.hardReset).root = 0#9 := rfl
@[simp] theorem hardReset_tv (s : State) : (s.hardReset).tv = false := rfl
@[simp] theorem hardReset_inq (s : State) : (s.hardReset).inq = Vector.replicate 511 false := rfl
@[simp] theorem hardReset_ct (s : State) : (s.hardReset).ct = Vector.replicate 256 none := rfl
@[simp] theorem hardReset_cv (s : State) : (s.hardReset).cv = false := rfl
@[simp] theorem hardReset_acc (s : State) : (s.hardReset).acc = 0#8 := rfl
@[simp] theorem hardReset_wcnt (s : State) : (s.hardReset).wcnt = 0 := rfl
@[simp] theorem hardReset_cur (s : State) : (s.hardReset).cur = 0#8 := rfl
@[simp] theorem hardReset_rpos (s : State) : (s.hardReset).rpos = 8 := rfl
@[simp] theorem hardReset_pos (s : State) : (s.hardReset).pos = 0#9 := rfl
@[simp] theorem hardReset_res (s : State) : (s.hardReset).res = false := rfl
@[simp] theorem hardReset_fault (s : State) : (s.hardReset).fault = false := rfl
@[simp] theorem hardReset_err (s : State) : (s.hardReset).err = .none := rfl
@[simp] theorem hardReset_pending (s : State) : (s.hardReset).pending = s.pending := rfl
@[simp] theorem hardReset_readData (s : State) : (s.hardReset).readData = s.readData := rfl
@[simp] theorem hardReset_free (s : State) : (s.hardReset).free = s.free := rfl

end Sys2Proof.Machine
end

