-- ==== Sys2Proof/Laws/Streams.lean ====
section
/-! SUPPORT. The stream primitives, the writer and the reader: what each can do, said once (`20_memory.md` R63, R64;
`45_bit_writer.md` R190 to R195; `46_bit_reader.md` R205 to R208). -/

namespace Sys2Proof.Machine

/-! The input. -/

theorem inNext_some_iff (s t : State) (v : Byte) :
    s.inNext = some (v, t) ↔ s.inp[s.iptr.toNat]? = some v ∧ t = { s with iptr := s.iptr + 1#40 } := by
  unfold State.inNext
  cases s.inp[s.iptr.toNat]? with
  | none => simp
  | some u =>
    simp only [Option.some.injEq, Prod.mk.injEq]
    exact and_congr_right fun _ => eq_comm

theorem inNext_none_iff (s : State) : s.inNext = none ↔ s.inp.length ≤ s.iptr.toNat := by
  unfold State.inNext
  rw [← List.getElem?_eq_none_iff]
  cases s.inp[s.iptr.toNat]? <;> simp

/-- One read under the launch premise: the byte at the head of the rest, the rest's tail, no wrap of `IPTR` (R62, R63). -/
theorem inNext_spec {s : State} (h : s.StreamInv) :
    match s.inp.drop s.iptr.toNat with
    | [] => s.inNext = none
    | v :: vs => s.inNext = some (v, { s with iptr := s.iptr + 1#40 }) ∧ (s.iptr + 1#40).toNat = s.iptr.toNat + 1 ∧
        s.inp.drop (s.iptr.toNat + 1) = vs ∧ s.iptr.toNat < s.inp.length := by
  have hs := h.short
  split
  · rename_i e
    rw [inNext_none_iff]
    simpa using e
  · rename_i v vs e
    have hl : s.iptr.toNat < s.inp.length := by
      by_contra hc
      rw [List.drop_eq_nil_of_le (by omega)] at e
      cases e
    refine ⟨?_, ?_, ?_, hl⟩
    · rw [inNext_some_iff]
      refine ⟨?_, rfl⟩
      have := congrArg (·[0]?) e
      simpa using this
    · rw [BitVec.toNat_add]
      simp only [Config.inputLimit] at hs
      show (s.iptr.toNat + 1) % 2 ^ 40 = _
      omega
    · have := congrArg List.tail e
      simpa using this

theorem bytesLeft_eq (s : State) : s.bytesLeft = (s.inp.drop s.iptr.toNat).length := by
  simp [State.bytesLeft]

/-! The writer. -/

@[simp] theorem writeBits_nil (s : State) : s.writeBits [] = s := rfl
@[simp] theorem writeBits_cons (s : State) (b : Bool) (x : Bits) : s.writeBits (b :: x) = (s.writeBit b).writeBits x := rfl

theorem writeBits_append (s : State) (x y : Bits) : s.writeBits (x ++ y) = (s.writeBits x).writeBits y := by
  induction x generalizing s with
  | nil => rfl
  | cons b x ih => exact ih (s.writeBit b)

theorem emitBytes_eq (s : State) (vs : List Byte) : s.emitBytes vs = { s with out := s.out ++ vs } := by
  induction vs generalizing s with
  | nil => simp [State.emitBytes]
  | cons v vs ih => simp [State.emitBytes, ih, State.emitByte]

theorem writeMarker_eq (s : State) : s.writeMarker = { s with out := s.out ++ Config.marker } := emitBytes_eq s _

@[simp] theorem writeBit_inp (s : State) (b : Bool) : (s.writeBit b).inp = s.inp := by unfold State.writeBit; split <;> rfl
@[simp] theorem writeBit_iptr (s : State) (b : Bool) : (s.writeBit b).iptr = s.iptr := by unfold State.writeBit; split <;> rfl
@[simp] theorem writeBit_ft (s : State) (b : Bool) : (s.writeBit b).ft = s.ft := by unfold State.writeBit; split <;> rfl
@[simp] theorem writeBit_total (s : State) (b : Bool) : (s.writeBit b).total = s.total := by unfold State.writeBit; split <;> rfl
@[simp] theorem writeBit_nodes (s : State) (b : Bool) : (s.writeBit b).nodes = s.nodes := by unfold State.writeBit; split <;> rfl
@[simp] theorem writeBit_ncnt (s : State) (b : Bool) : (s.writeBit b).ncnt = s.ncnt := by unfold State.writeBit; split <;> rfl
@[simp] theorem writeBit_root (s : State) (b : Bool) : (s.writeBit b).root = s.root := by unfold State.writeBit; split <;> rfl
@[simp] theorem writeBit_tv (s : State) (b : Bool) : (s.writeBit b).tv = s.tv := by unfold State.writeBit; split <;> rfl
@[simp] theorem writeBit_inq (s : State) (b : Bool) : (s.writeBit b).inq = s.inq := by unfold State.writeBit; split <;> rfl
@[simp] theorem writeBit_ct (s : State) (b : Bool) : (s.writeBit b).ct = s.ct := by unfold State.writeBit; split <;> rfl
@[simp] theorem writeBit_cv (s : State) (b : Bool) : (s.writeBit b).cv = s.cv := by unfold State.writeBit; split <;> rfl
@[simp] theorem writeBit_cur (s : State) (b : Bool) : (s.writeBit b).cur = s.cur := by unfold State.writeBit; split <;> rfl
@[simp] theorem writeBit_rpos (s : State) (b : Bool) : (s.writeBit b).rpos = s.rpos := by unfold State.writeBit; split <;> rfl
@[simp] theorem writeBit_pos (s : State) (b : Bool) : (s.writeBit b).pos = s.pos := by unfold State.writeBit; split <;> rfl
@[simp] theorem writeBit_res (s : State) (b : Bool) : (s.writeBit b).res = s.res := by unfold State.writeBit; split <;> rfl
@[simp] theorem writeBit_fault (s : State) (b : Bool) : (s.writeBit b).fault = s.fault := by unfold State.writeBit; split <;> rfl
@[simp] theorem writeBit_err (s : State) (b : Bool) : (s.writeBit b).err = s.err := by unfold State.writeBit; split <;> rfl
@[simp] theorem writeBit_pending (s : State) (b : Bool) : (s.writeBit b).pending = s.pending := by unfold State.writeBit; split <;> rfl
@[simp] theorem writeBit_readData (s : State) (b : Bool) : (s.writeBit b).readData = s.readData := by unfold State.writeBit; split <;> rfl
@[simp] theorem writeBit_free (s : State) (b : Bool) : (s.writeBit b).free = s.free := by unfold State.writeBit; split <;> rfl

@[simp] theorem writeBits_inp (s : State) (x : Bits) : (s.writeBits x).inp = s.inp := by
  induction x generalizing s with
  | nil => rfl
  | cons b x ih => simp [ih]
@[simp] theorem writeBits_iptr (s : State) (x : Bits) : (s.writeBits x).iptr = s.iptr := by
  induction x generalizing s with
  | nil => rfl
  | cons b x ih => simp [ih]
@[simp] theorem writeBits_ft (s : State) (x : Bits) : (s.writeBits x).ft = s.ft := by
  induction x generalizing s with
  | nil => rfl
  | cons b x ih => simp [ih]
@[simp] theorem writeBits_total (s : State) (x : Bits) : (s.writeBits x).total = s.total := by
  induction x generalizing s with
  | nil => rfl
  | cons b x ih => simp [ih]
@[simp] theorem writeBits_nodes (s : State) (x : Bits) : (s.writeBits x).nodes = s.nodes := by
  induction x generalizing s with
  | nil => rfl
  | cons b x ih => simp [ih]
@[simp] theorem writeBits_ncnt (s : State) (x : Bits) : (s.writeBits x).ncnt = s.ncnt := by
  induction x generalizing s with
  | nil => rfl
  | cons b x ih => simp [ih]
@[simp] theorem writeBits_root (s : State) (x : Bits) : (s.writeBits x).root = s.root := by
  induction x generalizing s with
  | nil => rfl
  | cons b x ih => simp [ih]
@[simp] theorem writeBits_tv (s : State) (x : Bits) : (s.writeBits x).tv = s.tv := by
  induction x generalizing s with
  | nil => rfl
  | cons b x ih => simp [ih]
@[simp] theorem writeBits_inq (s : State) (x : Bits) : (s.writeBits x).inq = s.inq := by
  induction x generalizing s with
  | nil => rfl
  | cons b x ih => simp [ih]
@[simp] theorem writeBits_ct (s : State) (x : Bits) : (s.writeBits x).ct = s.ct := by
  induction x generalizing s with
  | nil => rfl
  | cons b x ih => simp [ih]
@[simp] theorem writeBits_cv (s : State) (x : Bits) : (s.writeBits x).cv = s.cv := by
  induction x generalizing s with
  | nil => rfl
  | cons b x ih => simp [ih]
@[simp] theorem writeBits_cur (s : State) (x : Bits) : (s.writeBits x).cur = s.cur := by
  induction x generalizing s with
  | nil => rfl
  | cons b x ih => simp [ih]
@[simp] theorem writeBits_rpos (s : State) (x : Bits) : (s.writeBits x).rpos = s.rpos := by
  induction x generalizing s with
  | nil => rfl
  | cons b x ih => simp [ih]
@[simp] theorem writeBits_pos (s : State) (x : Bits) : (s.writeBits x).pos = s.pos := by
  induction x generalizing s with
  | nil => rfl
  | cons b x ih => simp [ih]
@[simp] theorem writeBits_res (s : State) (x : Bits) : (s.writeBits x).res = s.res := by
  induction x generalizing s with
  | nil => rfl
  | cons b x ih => simp [ih]
@[simp] theorem writeBits_fault (s : State) (x : Bits) : (s.writeBits x).fault = s.fault := by
  induction x generalizing s with
  | nil => rfl
  | cons b x ih => simp [ih]
@[simp] theorem writeBits_err (s : State) (x : Bits) : (s.writeBits x).err = s.err := by
  induction x generalizing s with
  | nil => rfl
  | cons b x ih => simp [ih]
@[simp] theorem writeBits_pending (s : State) (x : Bits) : (s.writeBits x).pending = s.pending := by
  induction x generalizing s with
  | nil => rfl
  | cons b x ih => simp [ih]
@[simp] theorem writeBits_readData (s : State) (x : Bits) : (s.writeBits x).readData = s.readData := by
  induction x generalizing s with
  | nil => rfl
  | cons b x ih => simp [ih]
@[simp] theorem writeBits_free (s : State) (x : Bits) : (s.writeBits x).free = s.free := by
  induction x generalizing s with
  | nil => rfl
  | cons b x ih => simp [ih]

@[simp] theorem flush_inp (s : State) : s.flush.inp = s.inp := by unfold State.flush; split <;> rfl
@[simp] theorem flush_iptr (s : State) : s.flush.iptr = s.iptr := by unfold State.flush; split <;> rfl
@[simp] theorem flush_ft (s : State) : s.flush.ft = s.ft := by unfold State.flush; split <;> rfl
@[simp] theorem flush_total (s : State) : s.flush.total = s.total := by unfold State.flush; split <;> rfl
@[simp] theorem flush_nodes (s : State) : s.flush.nodes = s.nodes := by unfold State.flush; split <;> rfl
@[simp] theorem flush_ncnt (s : State) : s.flush.ncnt = s.ncnt := by unfold State.flush; split <;> rfl
@[simp] theorem flush_root (s : State) : s.flush.root = s.root := by unfold State.flush; split <;> rfl
@[simp] theorem flush_tv (s : State) : s.flush.tv = s.tv := by unfold State.flush; split <;> rfl
@[simp] theorem flush_inq (s : State) : s.flush.inq = s.inq := by unfold State.flush; split <;> rfl
@[simp] theorem flush_ct (s : State) : s.flush.ct = s.ct := by unfold State.flush; split <;> rfl
@[simp] theorem flush_cv (s : State) : s.flush.cv = s.cv := by unfold State.flush; split <;> rfl
@[simp] theorem flush_cur (s : State) : s.flush.cur = s.cur := by unfold State.flush; split <;> rfl
@[simp] theorem flush_rpos (s : State) : s.flush.rpos = s.rpos := by unfold State.flush; split <;> rfl
@[simp] theorem flush_pos (s : State) : s.flush.pos = s.pos := by unfold State.flush; split <;> rfl
@[simp] theorem flush_res (s : State) : s.flush.res = s.res := by unfold State.flush; split <;> rfl
@[simp] theorem flush_fault (s : State) : s.flush.fault = s.fault := by unfold State.flush; split <;> rfl
@[simp] theorem flush_err (s : State) : s.flush.err = s.err := by unfold State.flush; split <;> rfl
@[simp] theorem flush_pending (s : State) : s.flush.pending = s.pending := by unfold State.flush; split <;> rfl
@[simp] theorem flush_readData (s : State) : s.flush.readData = s.readData := by unfold State.flush; split <;> rfl
@[simp] theorem flush_free (s : State) : s.flush.free = s.free := by unfold State.flush; split <;> rfl

@[simp] theorem writeMarker_inp (s : State) : s.writeMarker.inp = s.inp := by rw [writeMarker_eq]
@[simp] theorem writeMarker_iptr (s : State) : s.writeMarker.iptr = s.iptr := by rw [writeMarker_eq]
@[simp] theorem writeMarker_ft (s : State) : s.writeMarker.ft = s.ft := by rw [writeMarker_eq]
@[simp] theorem writeMarker_total (s : State) : s.writeMarker.total = s.total := by rw [writeMarker_eq]
@[simp] theorem writeMarker_nodes (s : State) : s.writeMarker.nodes = s.nodes := by rw [writeMarker_eq]
@[simp] theorem writeMarker_ncnt (s : State) : s.writeMarker.ncnt = s.ncnt := by rw [writeMarker_eq]
@[simp] theorem writeMarker_root (s : State) : s.writeMarker.root = s.root := by rw [writeMarker_eq]
@[simp] theorem writeMarker_tv (s : State) : s.writeMarker.tv = s.tv := by rw [writeMarker_eq]
@[simp] theorem writeMarker_inq (s : State) : s.writeMarker.inq = s.inq := by rw [writeMarker_eq]
@[simp] theorem writeMarker_ct (s : State) : s.writeMarker.ct = s.ct := by rw [writeMarker_eq]
@[simp] theorem writeMarker_cv (s : State) : s.writeMarker.cv = s.cv := by rw [writeMarker_eq]
@[simp] theorem writeMarker_acc (s : State) : s.writeMarker.acc = s.acc := by rw [writeMarker_eq]
@[simp] theorem writeMarker_wcnt (s : State) : s.writeMarker.wcnt = s.wcnt := by rw [writeMarker_eq]
@[simp] theorem writeMarker_cur (s : State) : s.writeMarker.cur = s.cur := by rw [writeMarker_eq]
@[simp] theorem writeMarker_rpos (s : State) : s.writeMarker.rpos = s.rpos := by rw [writeMarker_eq]
@[simp] theorem writeMarker_pos (s : State) : s.writeMarker.pos = s.pos := by rw [writeMarker_eq]
@[simp] theorem writeMarker_res (s : State) : s.writeMarker.res = s.res := by rw [writeMarker_eq]
@[simp] theorem writeMarker_fault (s : State) : s.writeMarker.fault = s.fault := by rw [writeMarker_eq]
@[simp] theorem writeMarker_err (s : State) : s.writeMarker.err = s.err := by rw [writeMarker_eq]
@[simp] theorem writeMarker_pending (s : State) : s.writeMarker.pending = s.pending := by rw [writeMarker_eq]
@[simp] theorem writeMarker_readData (s : State) : s.writeMarker.readData = s.readData := by rw [writeMarker_eq]
@[simp] theorem writeMarker_free (s : State) : s.writeMarker.free = s.free := by rw [writeMarker_eq]
@[simp] theorem writeMarker_out (s : State) : s.writeMarker.out = s.out ++ Config.marker := by rw [writeMarker_eq]

theorem writeBit_shape (s : State) (b : Bool) : ∃ o a w, s.writeBit b = { s with out := s.out ++ o, acc := a, wcnt := w } := by
  unfold State.writeBit
  split
  · exact ⟨[shiftIn s.acc b], 0#8, 0, rfl⟩
  · exact ⟨[], shiftIn s.acc b, s.wcnt + 1, by simp⟩

/-- The writer appends to `OUT`, changes `ACC` and `WCNT`, and nothing else. -/
theorem writeBits_shape (s : State) (x : Bits) :
    ∃ o a w, s.writeBits x = { s with out := s.out ++ o, acc := a, wcnt := w } := by
  induction x generalizing s with
  | nil => exact ⟨[], s.acc, s.wcnt, by simp⟩
  | cons b x ih =>
    obtain ⟨o, a, w, h⟩ := writeBit_shape s b
    obtain ⟨o', a', w', h'⟩ := ih (s.writeBit b)
    refine ⟨o ++ o', a', w', ?_⟩
    rw [writeBits_cons, h', h]
    simp

theorem writeBits_frame (s : State) (x : Bits) :
    s.writeBits x = { s with out := (s.writeBits x).out, acc := (s.writeBits x).acc, wcnt := (s.writeBits x).wcnt } := by
  obtain ⟨o, a, w, h⟩ := writeBits_shape s x
  rw [h]

theorem flush_shape (s : State) : ∃ o a w, s.flush = { s with out := s.out ++ o, acc := a, wcnt := w } := by
  unfold State.flush
  split
  · exact ⟨[s.acc <<< (8 - s.wcnt.val)], 0#8, 0, rfl⟩
  · exact ⟨[], s.acc, s.wcnt, by simp⟩

/-- The writer does not look at `IPTR`. -/
theorem writeBits_iptr_comm (s : State) (x : Bits) (p : Ptr) :
    ({ s with iptr := p } : State).writeBits x = { s.writeBits x with iptr := p } := by
  induction x generalizing s with
  | nil => rfl
  | cons b x ih =>
    have : ({ s with iptr := p } : State).writeBit b = { s.writeBit b with iptr := p } := by
      unfold State.writeBit; split <;> rfl
    rw [writeBits_cons, this, ih]
    rfl

/-- The bits the writer holds, oldest first (`45_bit_writer.md` R193). -/
def heldBits (a : Byte) (w : Fin 8) : Bits := (byteBits a).drop (8 - w.val)

theorem held_step : ∀ (w : Fin 8) (a : Byte) (b : Bool), a.toNat < 2 ^ w.val →
    (if w.val + 1 = 8 then byteBits (shiftIn a b) = heldBits a w ++ [b]
     else (shiftIn a b).toNat < 2 ^ (w + 1).val ∧ heldBits (shiftIn a b) (w + 1) = heldBits a w ++ [b]) := by
  decide +kernel

theorem held_flush : ∀ (w : Fin 8) (a : Byte), a.toNat < 2 ^ w.val → 0 < w.val →
    byteBits (a <<< (8 - w.val)) = heldBits a w ++ List.replicate (8 - w.val) false := by
  decide +kernel

@[simp] theorem heldBits_zero (a : Byte) : heldBits a 0 = [] := by simp [heldBits, byteBits]

theorem heldBits_length (a : Byte) (w : Fin 8) : (heldBits a w).length = w.val := by
  simp [heldBits, byteBits]; omega

@[simp] theorem bitsOf_nil : bitsOf [] = [] := rfl

theorem bitsOf_append (x y : List Byte) : bitsOf (x ++ y) = bitsOf x ++ bitsOf y := by simp [bitsOf]

@[simp] theorem bitsOf_singleton (v : Byte) : bitsOf [v] = byteBits v := by simp [bitsOf]

theorem bitsOf_cons (v : Byte) (y : List Byte) : bitsOf (v :: y) = byteBits v ++ bitsOf y := by simp [bitsOf]

@[simp] theorem byteBits_length (v : Byte) : (byteBits v).length = 8 := rfl

theorem bitsOf_length (x : List Byte) : (bitsOf x).length = 8 * x.length := by
  induction x with
  | nil => rfl
  | cons v x ih => simp [bitsOf_cons, ih]; omega

/-- `WriteBit` keeps the accumulator's invariant, and appends its bit to what is out and held (R190, R193). -/
theorem writeBit_bits (s : State) (b : Bool) (h : s.acc.toNat < 2 ^ s.wcnt.val) :
    (s.writeBit b).acc.toNat < 2 ^ (s.writeBit b).wcnt.val ∧
    bitsOf (s.writeBit b).out ++ heldBits (s.writeBit b).acc (s.writeBit b).wcnt =
      bitsOf s.out ++ heldBits s.acc s.wcnt ++ [b] := by
  have := held_step s.wcnt s.acc b h
  unfold State.writeBit
  split
  · rename_i hw
    rw [if_pos hw] at this
    simp [bitsOf_append, this]
  · rename_i hw
    rw [if_neg hw] at this
    simp [this.1, this.2]

theorem writeBits_bits (s : State) (x : Bits) (h : s.acc.toNat < 2 ^ s.wcnt.val) :
    (s.writeBits x).acc.toNat < 2 ^ (s.writeBits x).wcnt.val ∧
    bitsOf (s.writeBits x).out ++ heldBits (s.writeBits x).acc (s.writeBits x).wcnt =
      bitsOf s.out ++ heldBits s.acc s.wcnt ++ x := by
  induction x generalizing s with
  | nil => simp [h]
  | cons b x ih =>
    have h1 := writeBit_bits s b h
    have h2 := ih (s.writeBit b) h1.1
    exact ⟨h2.1, by simp [h2.2, h1.2]⟩

/-- `Flush` empties the writer and fills the last byte with zeros (R191, R193). -/
theorem flush_bits (s : State) (h : s.acc.toNat < 2 ^ s.wcnt.val) :
    s.flush.acc = 0#8 ∧ s.flush.wcnt = 0 ∧
    bitsOf s.flush.out = bitsOf s.out ++ heldBits s.acc s.wcnt ++ List.replicate (padCount s.wcnt.val) false := by
  unfold State.flush
  split
  · rename_i hw
    have := held_flush s.wcnt s.acc h hw
    have hp : padCount s.wcnt.val = 8 - s.wcnt.val := by unfold padCount; omega
    simp [bitsOf_append, this, hp]
  · rename_i hw
    have hw0 : s.wcnt = 0 := by ext; simp; omega
    have ha : s.acc = 0#8 := by
      rw [hw0] at h
      apply BitVec.eq_of_toNat_eq
      simpa using h
    simp [hw0, ha, padCount]

/-! The reader. -/

/-- `NextBit()` is the head of the bits the reader will still deliver; it leaves their tail; it touches the reader and `IPTR` only
(R205, R207). -/
theorem nextBit_spec {s : State} (h : s.StreamInv) :
    match s.restBits with
    | [] => s.nextBit = none
    | b :: bs => ∃ t, s.nextBit = some (b, t) ∧ t.restBits = bs ∧ t.StreamInv ∧
        t = { s with cur := t.cur, rpos := t.rpos, iptr := t.iptr } := by
  have deliver : ∀ (c : Byte) (r : Fin 9), r.val < 8 →
      (byteBits c).drop r.val = c.getLsbD (7 - r.val) :: (byteBits c).drop (r + 1).val := by decide +kernel
  have hsp := inNext_spec h
  by_cases hr : s.rpos.val = 8
  · have h0 : (byteBits s.cur).drop s.rpos.val = [] := by simp [hr, byteBits]
    unfold State.restBits State.nextBit
    rw [h0, if_pos hr]
    cases e : s.inp.drop s.iptr.toNat with
    | nil => rw [e] at hsp; simp at hsp; simp [hsp]
    | cons v vs =>
      rw [e] at hsp
      obtain ⟨h1, h2, h3, h4⟩ := hsp
      have hd := deliver v 0 (by decide)
      simp at hd
      simp only [List.nil_append, bitsOf_cons, h1]
      rw [hd]
      refine ⟨_, rfl, ?_, ⟨h.short, ?_⟩, rfl⟩
      · show (byteBits v).drop ((0 : Fin 9) + 1).val ++ bitsOf (s.inp.drop (s.iptr + 1#40).toNat) = _
        rw [h2, h3]; simp
      · show (s.iptr + 1#40).toNat ≤ s.inp.length
        rw [h2]; omega
  · have hlt : s.rpos.val < 8 := by omega
    unfold State.restBits State.nextBit
    rw [if_neg hr, deliver s.cur s.rpos hlt]
    exact ⟨_, rfl, rfl, ⟨h.short, h.pointer⟩, rfl⟩

theorem bitsLeft_eq (s : State) : s.bitsLeft = s.restBits.length := by
  simp [State.bitsLeft, State.restBits, bitsOf_length, bytesLeft_eq]

/-! The ends of a body. -/

@[simp] theorem andThen_ok {α β : Type} (a : α) (f : α → Result β) : (Result.ok a).andThen f = f a := rfl
@[simp] theorem andThen_raised {α β : Type} (e : FaultCode) (s : State) (f : α → Result β) :
    (Result.raised e s).andThen f = .raised e s := rfl
@[simp] theorem andThen_stuck {α β : Type} (g : Fault) (f : α → Result β) : (Result.stuck g).andThen f = .stuck g := rfl
@[simp] theorem finish_ok (s : State) : (Result.ok s).finish = .next s := rfl
@[simp] theorem finish_raised (e : FaultCode) (s : State) : (Result.raised e s).finish = .next (s.takeFault e) := rfl
@[simp] theorem finish_stuck (g : Fault) : (Result.stuck g : Result State).finish = .fault g := rfl

theorem takeFault_status (s : State) (e : FaultCode) : (s.takeFault e).status = e.code ++ 0x1#4 := by
  have : ∀ e : FaultCode, e.code ++ BitVec.ofBool false ++ BitVec.ofBool false ++ BitVec.ofBool false ++ BitVec.ofBool true =
      e.code ++ 0x1#4 := by intro e; cases e <;> decide
  exact this e

end Sys2Proof.Machine
end

