-- ==== Sys2Proof/Laws/Trees.lean ====
section
/-! SUPPORT. The arena as abstract trees: what `Ser`, `Gen` and the walk do on them (`10_state.md` R35; `43_code_table.md` R161;
`44_tree_serdes.md` R171; `48_decoder.md` R238). -/

namespace Sys2Proof.Machine

/-! Everything about the arena depends on `NODE` and `NCNT` only. -/

theorem node_congr {s u : State} (h1 : s.nodes = u.nodes) (h2 : s.ncnt = u.ncnt) (i : Idx) : s.node i = u.node i := by
  simp [State.node, h1, h2]

theorem treeAt_congr {s u : State} (h1 : s.nodes = u.nodes) (h2 : s.ncnt = u.ncnt) (n : Nat) (i : Idx) :
    s.treeAt n i = u.treeAt n i := by
  induction n generalizing i with
  | zero => rfl
  | succ n ih => simp only [State.treeAt, node_congr h1 h2, ih]

theorem visit_congr {s u : State} (h1 : s.nodes = u.nodes) (h2 : s.ncnt = u.ncnt) (n : Nat) (i : Idx) :
    s.visit n i = u.visit n i := by
  induction n generalizing i with
  | zero => rfl
  | succ n ih => simp only [State.visit, node_congr h1 h2, ih]

theorem tree_congr {s u : State} (h1 : s.nodes = u.nodes) (h2 : s.ncnt = u.ncnt) (h3 : s.root = u.root) : s.tree = u.tree := by
  unfold State.tree; rw [h3]; exact treeAt_congr h1 h2 _ _

theorem wellFormed_congr {s u : State} (h1 : s.nodes = u.nodes) (h2 : s.ncnt = u.ncnt) (h3 : s.root = u.root) :
    s.wellFormed = u.wellFormed := by
  unfold State.wellFormed; rw [h3, visit_congr h1 h2, h2]

/-- Taking a subtree apart: a leaf entry, or an internal entry over two subtrees. -/
theorem treeAt_succ_cases {s : State} {n : Nat} {i : Idx} {t : Tree} (h : s.treeAt (n + 1) i = some t) :
    ∃ nd, s.node i = some nd ∧
      ((nd.leaf = true ∧ t = .leaf nd.val) ∨
       (nd.leaf = false ∧ ∃ l r, t = .node l r ∧ s.treeAt n nd.left = some l ∧ s.treeAt n nd.right = some r)) := by
  unfold State.treeAt at h
  split at h
  · cases h
  · rename_i nd hn
    refine ⟨nd, hn, ?_⟩
    split at h
    · rename_i hl; cases h; exact .inl ⟨hl, rfl⟩
    · rename_i hl
      split at h
      · rename_i l r h1 h2; cases h; exact .inr ⟨by simpa using hl, l, r, rfl, h1, h2⟩
      · cases h

theorem treeAt_leaf {s : State} {n : Nat} {i : Idx} {nd : NodeRec} (h : s.node i = some nd) (hl : nd.leaf = true) :
    s.treeAt (n + 1) i = some (.leaf nd.val) := by
  simp [State.treeAt, h, hl]

theorem treeAt_node {s : State} {n : Nat} {i : Idx} {nd : NodeRec} {l r : Tree} (h : s.node i = some nd) (hl : nd.leaf = false)
    (h1 : s.treeAt n nd.left = some l) (h2 : s.treeAt n nd.right = some r) : s.treeAt (n + 1) i = some (.node l r) := by
  simp [State.treeAt, h, hl, h1, h2]

theorem treeAt_mono {s : State} {n m : Nat} {i : Idx} {t : Tree} (h : s.treeAt n i = some t) (hm : n ≤ m) :
    s.treeAt m i = some t := by
  induction n generalizing m i t with
  | zero => cases h
  | succ n ih =>
    obtain ⟨m, rfl⟩ : ∃ k, m = k + 1 := ⟨m - 1, by omega⟩
    obtain ⟨nd, hn, ⟨hl, rfl⟩ | ⟨hl, l, r, rfl, h1, h2⟩⟩ := treeAt_succ_cases h
    · exact treeAt_leaf hn hl
    · exact treeAt_node hn hl (ih h1 (by omega)) (ih h2 (by omega))

theorem treeAt_depth {s : State} {n : Nat} {i : Idx} {t : Tree} (h : s.treeAt n i = some t) : t.depth < n := by
  induction n generalizing i t with
  | zero => cases h
  | succ n ih =>
    obtain ⟨nd, hn, ⟨hl, rfl⟩ | ⟨hl, l, r, rfl, h1, h2⟩⟩ := treeAt_succ_cases h
    · simp [Tree.depth]
    · have := ih h1; have := ih h2; simp only [Tree.depth]; omega

/-! The abstract tree's sizes. -/

theorem nodeCount_leaves (t : Tree) : t.nodeCount + 1 = 2 * t.leaves.length := by
  induction t with
  | leaf v => rfl
  | node l r h1 h2 => simp only [Tree.nodeCount, Tree.leaves, List.length_append]; omega

theorem depth_lt_leaves (t : Tree) : t.depth < t.leaves.length := by
  induction t with
  | leaf v => simp [Tree.depth, Tree.leaves]
  | node l r h1 h2 => simp only [Tree.depth, Tree.leaves, List.length_append]; omega

theorem leftDepth_le_depth (t : Tree) : t.leftDepth ≤ t.depth := by
  induction t with
  | leaf v => simp [Tree.leftDepth, Tree.depth]
  | node l r h1 h2 => simp only [Tree.leftDepth, Tree.depth]; omega

theorem pathsFrom_map_fst (t : Tree) (bits : Bits) : (t.pathsFrom bits).map Prod.fst = t.leaves := by
  induction t generalizing bits with
  | leaf v => rfl
  | node l r h1 h2 => simp [Tree.pathsFrom, Tree.leaves, h1, h2]

theorem pathsFrom_length {t : Tree} {bits : Bits} {p : Byte × Bits} (h : p ∈ t.pathsFrom bits) :
    bits.length ≤ p.2.length ∧ p.2.length ≤ bits.length + t.depth := by
  induction t generalizing bits with
  | leaf v => simp [Tree.pathsFrom] at h; simp [h, Tree.depth]
  | node l r h1 h2 =>
    simp only [Tree.pathsFrom, List.mem_append] at h
    rcases h with h | h
    · have := h1 h; simp at this; simp only [Tree.depth]; omega
    · have := h2 h; simp at this; simp only [Tree.depth]; omega

/-- Every path extends the one it starts from. -/
theorem pathsFrom_prefix {t : Tree} {bits : Bits} {p : Byte × Bits} (h : p ∈ t.pathsFrom bits) : bits <+: p.2 := by
  induction t generalizing bits with
  | leaf v => simp [Tree.pathsFrom] at h; simp [h]
  | node l r h1 h2 =>
    simp only [Tree.pathsFrom, List.mem_append] at h
    rcases h with h | h
    · exact (List.prefix_append _ _).trans (h1 h)
    · exact (List.prefix_append _ _).trans (h2 h)

theorem pathsFrom_node_length {l r : Tree} {bits : Bits} {p : Byte × Bits} (h : p ∈ (Tree.node l r).pathsFrom bits) :
    bits.length + 1 ≤ p.2.length := by
  simp only [Tree.pathsFrom, List.mem_append] at h
  rcases h with h | h <;> have := (pathsFrom_length h).1 <;> simpa using this

/-! `Ser`. -/

theorem ser_eq (n : Nat) (i : Idx) (s : State) : ser n i s = (s.treeAt n i).map fun t => s.writeBits t.serBits := by
  induction n generalizing i s with
  | zero => rfl
  | succ n ih =>
    unfold ser State.treeAt
    cases hn : s.node i with
    | none => rfl
    | some nd =>
      simp only
      cases hl : nd.leaf with
      | true => simp [Tree.serBits]
      | false =>
        have c : ∀ j, (s.writeBit false).treeAt n j = s.treeAt n j := fun j => treeAt_congr (by simp) (by simp) n j
        simp only [Bool.false_eq_true, if_false, ih, c]
        cases h1 : s.treeAt n nd.left with
        | none => rfl
        | some l =>
          have c2 : ∀ x j, ((s.writeBit false).writeBits x).treeAt n j = s.treeAt n j :=
            fun x j => treeAt_congr (by simp) (by simp) n j
          simp only [Option.map_some, c2]
          cases h2 : s.treeAt n nd.right with
          | none => rfl
          | some r => simp [Tree.serBits, writeBits_append]

/-! `Gen`. -/

/-- A sequence of `CT[v] <- bits`, the first one first. -/
def State.setCodes (s : State) : List (Byte × Bits) → State
  | [] => s
  | p :: ps => (s.setCode p.1 p.2).setCodes ps

theorem setCodes_append (s : State) (x y : List (Byte × Bits)) : s.setCodes (x ++ y) = (s.setCodes x).setCodes y := by
  induction x generalizing s with
  | nil => rfl
  | cons p x ih => exact ih _

theorem setCodes_frame (s : State) (x : List (Byte × Bits)) : s.setCodes x = { s with ct := (s.setCodes x).ct } := by
  induction x generalizing s with
  | nil => rfl
  | cons p x ih =>
    show (s.setCode p.1 p.2).setCodes x = _
    rw [ih]; rfl

theorem setCode_code (s : State) (v u : Byte) (x : Bits) : (s.setCode v x).code u = if v = u then some x else s.code u := by
  simp only [State.code, State.setCode, Vector.getElem_set]
  by_cases h : v = u
  · simp [h]
  · have : v.toNat ≠ u.toNat := fun e => h (BitVec.eq_of_toNat_eq e)
    simp [h, this]

/-- The last entry for a value wins (`43_code_table.md` R163). -/
theorem setCodes_code (s : State) (x : List (Byte × Bits)) (u : Byte) :
    (s.setCodes x).code u = match x.reverse.find? (fun p => p.1 == u) with
      | some p => some p.2
      | none => s.code u := by
  induction x generalizing s with
  | nil => rfl
  | cons p x ih =>
    show ((s.setCode p.1 p.2).setCodes x).code u = _
    rw [ih, List.reverse_cons, List.find?_append]
    cases x.reverse.find? (fun p => p.1 == u) with
    | some q => rfl
    | none =>
      by_cases h : p.1 = u
      · simp [setCode_code, h]
      · simp [setCode_code, h]

theorem gen_eq (n : Nat) (i : Idx) (bits : Bits) (s : State) :
    gen n i bits s = (s.treeAt n i).map fun t => s.setCodes (t.pathsFrom bits) := by
  induction n generalizing i bits s with
  | zero => rfl
  | succ n ih =>
    unfold gen State.treeAt
    cases hn : s.node i with
    | none => rfl
    | some nd =>
      simp only
      cases hl : nd.leaf with
      | true => rfl
      | false =>
        simp only [Bool.false_eq_true, if_false, ih]
        cases h1 : s.treeAt n nd.left with
        | none => rfl
        | some l =>
          have c : ∀ x j, (s.setCodes x).treeAt n j = s.treeAt n j := by
            intro x j
            exact treeAt_congr (by rw [setCodes_frame]) (by rw [setCodes_frame]) n j
          simp only [Option.map_some, c]
          cases h2 : s.treeAt n nd.right with
          | none => rfl
          | some r => simp [Tree.pathsFrom, setCodes_append]

theorem genRoot_eq (s : State) : genRoot s = s.tree.map fun t => s.setCodes t.codes := by
  unfold genRoot State.tree Config.treeFuel
  cases hn : s.node s.root with
  | none => simp [State.treeAt, hn]
  | some nd =>
    cases hl : nd.leaf with
    | true => simp [treeAt_leaf hn hl, Tree.codes, State.setCodes, hl]
    | false =>
      simp only [hl, Bool.false_eq_true, if_false, gen_eq]
      cases ht : s.treeAt 256 s.root with
      | none => rfl
      | some t =>
        obtain ⟨nd', hn', ⟨hl', rfl⟩ | ⟨hl', l, r, rfl, h1, h2⟩⟩ := treeAt_succ_cases ht
        · rw [hn] at hn'; cases hn'; rw [hl] at hl'; cases hl'
        · rfl

/-- What `CTGEN` leaves (`43_code_table.md` R160 to R163). -/
theorem ctgenBody_eq (s : State) (h : s.tv = true) :
    ctgenBody s = match s.tree with
      | none => .stuck .malformedArena
      | some t => .ok ((s.clearCodeValid.clearCodes.setCodes t.codes).setCodeValid) := by
  unfold ctgenBody
  rw [if_pos h, genRoot_eq]
  have : s.clearCodeValid.clearCodes.tree = s.tree := tree_congr rfl rfl rfl
  rw [this]
  cases s.tree <;> rfl

theorem clearCodes_setCodes_code (s : State) (t : Tree) (v : Byte) :
    ((s.clearCodeValid.clearCodes.setCodes t.codes).setCodeValid).code v = t.codeOf v := by
  show (s.clearCodeValid.clearCodes.setCodes t.codes).code v = _
  rw [setCodes_code]
  unfold Tree.codeOf
  cases t.codes.reverse.find? (fun p => p.1 == v) with
  | none => simp [State.code]
  | some p => rfl

/-- What `TSER` leaves (`44_tree_serdes.md` R170, R171). -/
theorem tserBody_eq (s : State) (h : s.tv = true) :
    tserBody s = match s.tree with
      | none => .stuck .malformedArena
      | some t => .ok (s.writeBits t.serBits) := by
  unfold tserBody
  have e : s.treeAt Config.treeFuel s.root = s.tree := rfl
  rw [if_pos h, ser_eq, e]
  cases s.tree <;> rfl

/-! Well-formedness. -/

/-- The visit and the tree are defined together, and the visit meets as many entries as the tree has nodes. -/
theorem visit_treeAt (s : State) (n : Nat) (i : Idx) :
    match s.visit n i, s.treeAt n i with
    | none, none => True
    | some l, some t => l.length = t.nodeCount ∧ ∀ j ∈ l, ∃ nd, s.node j = some nd
    | _, _ => False := by
  induction n generalizing i with
  | zero => trivial
  | succ n ih =>
    unfold State.visit State.treeAt
    cases hn : s.node i with
    | none => trivial
    | some nd =>
      cases hl : nd.leaf with
      | true => simp [Tree.nodeCount, hl, hn]
      | false =>
        have h1 := ih nd.left
        have h2 := ih nd.right
        simp only [hl, Bool.false_eq_true, if_false]
        revert h1 h2
        cases s.visit n nd.left <;> cases s.treeAt n nd.left <;> cases s.visit n nd.right <;> cases s.treeAt n nd.right <;>
          intro h1 h2 <;> first | exact h1.elim | exact h2.elim | trivial | skip
        refine ⟨by simp [Tree.nodeCount, h1.1, h2.1]; omega, ?_⟩
        intro j hj
        simp only [List.mem_cons, List.mem_append] at hj
        rcases hj with rfl | hj | hj
        · exact ⟨nd, hn⟩
        · exact h1.2 j hj
        · exact h2.2 j hj

theorem wellFormed_tree {s : State} (h : s.wellFormed = true) :
    ∃ t, s.tree = some t ∧ t.nodeCount = s.ncnt.val ∧ t.depth ≤ 255 := by
  unfold State.wellFormed at h
  have hv := visit_treeAt s Config.treeFuel s.root
  cases e : s.visit Config.treeFuel s.root with
  | none => rw [e] at h; cases h
  | some l =>
    rw [e] at h hv
    cases e2 : s.treeAt Config.treeFuel s.root with
    | none => rw [e2] at hv; exact hv.elim
    | some t =>
      rw [e2] at hv
      simp only [Bool.and_eq_true, decide_eq_true_eq] at h
      have := treeAt_depth e2
      simp only [Config.treeFuel] at this
      exact ⟨t, e2, by rw [← hv.1, h.2], by omega⟩

end Sys2Proof.Machine
end

