-- ==== Sys2Proof/Laws/Format.lean ====
section
/-! SUPPORT. Packed bits and serialized trees (`30_encoding.md` R99, R101; `45_bit_writer.md` R195; `44_tree_serdes.md` R172). -/

namespace Sys2Proof.Machine

theorem packByte_bits (x : Bits) (j : Nat) :
    byteBits (packByte x j) = (List.range 8).map fun m => x.getD (8 * j + m) false := by
  have key : ∀ a b c d e f g h : Bool,
      byteBits (shiftIn (shiftIn (shiftIn (shiftIn (shiftIn (shiftIn (shiftIn (shiftIn 0#8 a) b) c) d) e) f) g) h) =
        [a, b, c, d, e, f, g, h] := by decide +kernel
  exact key _ _ _ _ _ _ _ _

theorem bitsOf_getD (l : List Byte) (j m : Nat) (hm : m < 8) :
    (bitsOf l).getD (8 * j + m) false = ((l[j]?).map fun v => (byteBits v).getD m false).getD false := by
  induction l generalizing j with
  | nil => simp
  | cons v l ih =>
    rw [bitsOf_cons]
    cases j with
    | zero =>
      simp only [Nat.mul_zero, Nat.zero_add, List.getD_eq_getElem?_getD]
      rw [List.getElem?_append_left (by simpa using hm)]; simp
    | succ j =>
      have e : 8 * (j + 1) + m = 8 + (8 * j + m) := by omega
      rw [e, List.getD_append_right _ _ _ _ (by simp)]
      simpa using ih j

theorem serBits_length (t : Tree) : t.serBits.length + 1 = 10 * t.leaves.length := by
  induction t with
  | leaf v => rfl
  | node l r h1 h2 => simp only [Tree.serBits, Tree.leaves, List.length_cons, List.length_append]; omega

theorem pack_length (x : Bits) : (pack x).length = (x.length + 7) / 8 := by simp [pack]

/-- The packed bits in reading order are the bits, then the pad of zeros (R101, R195). -/
theorem bitsOf_pack (x : Bits) : bitsOf (pack x) = x ++ List.replicate (padCount x.length) false := by
  have hp : x.length + padCount x.length = 8 * ((x.length + 7) / 8) := by unfold padCount; omega
  apply List.ext_getElem
  · simp [bitsOf_length, pack_length, hp]
  · intro n h1 h2
    have h3 : (bitsOf (pack x)).getD n false = x.getD n false := by
      have hn : n = 8 * (n / 8) + n % 8 := by omega
      rw [bitsOf_length, pack_length] at h1
      have hj : (pack x)[n / 8]? = some (packByte x (n / 8)) := by
        rw [pack, List.getElem?_map, List.getElem?_range (by omega)]; rfl
      conv_lhs => rw [hn]
      rw [bitsOf_getD _ _ _ (by omega), hj, Option.map_some, Option.getD_some, packByte_bits]
      have : n % 8 < 8 := by omega
      simp only [List.getD_eq_getElem?_getD, List.getElem?_map, List.getElem?_range this, Option.map_some, Option.getD_some]
      rw [← hn]
    rw [List.getD_eq_getElem _ _ h1] at h3
    rw [h3, List.getElem_append]
    split
    · rename_i h; exact List.getD_eq_getElem _ _ h
    · rename_i h; simp [List.getD_eq_getElem?_getD, List.getElem?_eq_none (Nat.le_of_not_lt h)]

theorem bitsOf_injective {x y : List Byte} (h : bitsOf x = bitsOf y) : x = y := by
  have inv : ∀ a : Byte, (byteBits a).foldl shiftIn 0#8 = a := by decide +kernel
  have inj : ∀ a b : Byte, byteBits a = byteBits b → a = b := fun a b h => by rw [← inv a, h, inv b]
  induction x generalizing y with
  | nil => cases y with
    | nil => rfl
    | cons b y => simp [bitsOf_cons, byteBits] at h
  | cons a x ih => cases y with
    | nil => simp [bitsOf_cons, byteBits] at h
    | cons b y =>
      rw [bitsOf_cons, bitsOf_cons] at h
      obtain ⟨h1, h2⟩ := List.append_inj h rfl
      rw [inj _ _ h1, ih h2]

end Sys2Proof.Machine
end

