-- ==== Sys2Proof/Laws/Loops.lean ====
section
/-! SUPPORT. The loops over the input: `FCNT` (`41_frequency_counter.md` R130, R131), `EMIT` (`47_encoder.md` R216), `RSKIP3`
(`48_decoder.md` R237), `WALK` (`48_decoder.md` R238 to R240): everything each can do, said once. -/

namespace Sys2Proof.Machine

/-- The bytes still to be read. -/
def State.rest (s : State) : List Byte := s.inp.drop s.iptr.toNat

theorem StreamInv.congr {s t : State} (h : s.StreamInv) (h1 : t.inp = s.inp) (h2 : t.iptr.toNat ≤ s.inp.length) : t.StreamInv :=
  ⟨by rw [h1]; exact h.short, by rw [h1]; exact h2⟩

theorem ptr_add_one {s : State} (h : s.StreamInv) (hl : s.iptr.toNat < s.inp.length) : (s.iptr + 1#40).toNat = s.iptr.toNat + 1 := by
  have := h.short
  simp only [Config.inputLimit] at this
  rw [BitVec.toNat_add]
  show (s.iptr.toNat + 1) % 2 ^ 40 = _
  omega

theorem toNat_end {s : State} (h : s.StreamInv) : (BitVec.ofNat 40 s.inp.length).toNat = s.inp.length := by
  have := h.short
  simp only [Config.inputLimit] at this
  simpa using Nat.mod_eq_of_lt this

theorem ptr_eq_of_toNat {a : Ptr} {n : Nat} (h : a.toNat = n) : a = BitVec.ofNat 40 n := by
  apply BitVec.eq_of_toNat_eq
  have := a.isLt
  simp [h]; omega

/-! `FCNT`. -/

theorem setCount_count (s : State) (v u : Byte) (c : Count) : (s.setCount v c).count u = if v = u then c else s.count u := by
  simp only [State.count, State.setCount, Vector.getElem_set]
  by_cases h : v = u
  · simp [h]
  · have : v.toNat ≠ u.toNat := fun e => h (BitVec.eq_of_toNat_eq e)
    simp [h, this]

theorem countByte_count (s : State) (v u : Byte) (h : s.count v ≠ Config.countMax) :
    ((s.countByte v).count u).toNat = (s.count u).toNat + if v = u then 1 else 0 := by
  have : (s.countByte v).count u = (s.setCount v (s.count v + 1#32)).count u := rfl
  rw [this, setCount_count]
  split
  · rename_i e; subst e
    have h1 : (s.count v).toNat ≠ 2 ^ 32 - 1 := fun e => h (BitVec.eq_of_toNat_eq e)
    have h2 := (s.count v).isLt
    rw [BitVec.toNat_add]
    show ((s.count v).toNat + 1) % 2 ^ 32 = _
    omega
  · rfl

/-- `FCNT`'s loop counts every byte, or stops just past the first one whose count is full. -/
theorem fcntLoop_cases (n : Nat) (s : State) (h : s.StreamInv) (hn : s.rest.length ≤ n) :
    (∃ t, fcntLoop n s = .ok t ∧ (∀ v, (t.count v).toNat = (s.count v).toNat + s.rest.count v) ∧
      t.total = s.total + BitVec.ofNat 40 s.rest.length ∧ t.iptr.toNat = s.inp.length ∧
      t = { s with ft := t.ft, total := t.total, iptr := t.iptr }) ∨
    (∃ t p v q, fcntLoop n s = .raised .countOverflow t ∧ s.rest = p ++ v :: q ∧ (∀ u, (s.count u).toNat + p.count u < 2 ^ 32) ∧
      (s.count v).toNat + p.count v = 2 ^ 32 - 1 ∧ t.iptr.toNat = s.iptr.toNat + p.length + 1 ∧
      t = { s with ft := t.ft, total := t.total, iptr := t.iptr }) := by
  induction n generalizing s with
  | zero =>
    left
    have h0 : s.rest = [] := List.length_eq_zero_iff.mp (by omega)
    refine ⟨s, rfl, by simp [h0], by simp [h0], ?_, rfl⟩
    have := h.pointer
    simp [State.rest] at h0; omega
  | succ n ih =>
    have hs := inNext_spec h
    change match s.rest with | [] => _ | v :: vs => _ at hs
    unfold fcntLoop
    cases e : s.rest with
    | nil =>
      rw [e] at hs; simp only at hs
      left
      rw [hs]
      refine ⟨s, rfl, by simp, by simp, ?_, rfl⟩
      have := h.pointer
      simp [State.rest] at e; omega
    | cons v vs =>
      rw [e] at hs; simp only at hs
      obtain ⟨h1, h2, h3, h4⟩ := hs
      rw [h1]; simp only
      split
      · rename_i hc
        right
        refine ⟨_, [], v, vs, rfl, rfl, fun u => by simpa using (s.count u).isLt, ?_, by simp [h2], rfl⟩
        have : s.count v = Config.countMax := hc
        rw [this]; rfl
      · rename_i hc
        have hc' : s.count v ≠ Config.countMax := hc
        have hr : (({ s with iptr := s.iptr + 1#40 } : State).countByte v).rest = vs := by
          show s.inp.drop (s.iptr + 1#40).toNat = vs
          rw [h2, h3]
        have hi : (({ s with iptr := s.iptr + 1#40 } : State).countByte v).StreamInv :=
          StreamInv.congr h rfl (by show (s.iptr + 1#40).toNat ≤ _; omega)
        have hcount : ∀ u, ((({ s with iptr := s.iptr + 1#40 } : State).countByte v).count u).toNat =
            (s.count u).toNat + if v = u then 1 else 0 := fun u => countByte_count _ v u hc
        have hit : (({ s with iptr := s.iptr + 1#40 } : State).countByte v).iptr.toNat = s.iptr.toNat + 1 := h2
        rcases ih _ hi (by rw [hr]; rw [e] at hn; simpa using hn) with ⟨t, g1, g2, g3, g4, g5⟩ | ⟨t, p, w, q, g1, g2, g3, g4, g5, g6⟩
        · left
          refine ⟨t, g1, fun u => ?_, ?_, g4, ?_⟩
          · rw [g2, hcount, hr, List.count_cons]
            by_cases hv : v = u <;> simp [hv]; omega
          · rw [g3, hr]
            show s.total + 1#40 + _ = _
            rw [BitVec.add_assoc, List.length_cons, Nat.add_comm vs.length 1, BitVec.ofNat_add]
          · rw [g5]; rfl
        · right
          rw [hr] at g2
          refine ⟨t, v :: p, w, q, g1, by rw [g2]; rfl, fun u => ?_, ?_, ?_, ?_⟩
          · have := g3 u
            rw [hcount] at this
            rw [List.count_cons]
            by_cases hv : v = u <;> simp [hv] at this ⊢ <;> omega
          · rw [hcount] at g4
            rw [List.count_cons]
            by_cases hv : v = w <;> simp [hv] at g4 ⊢ <;> omega
          · rw [g5, hit, List.length_cons]; omega
          · rw [g6]; rfl

/-! `EMIT`. -/

theorem writeBits_code (s : State) (x : Bits) : (s.writeBits x).code = s.code := by
  funext v; simp [State.code]

/-- `EMIT`'s loop writes the codes of all bytes left, or stops just past the first one that has no code. -/
theorem emitLoop_cases (n : Nat) (s : State) (h : s.StreamInv) (hn : s.rest.length ≤ n) :
    (∃ x, codeBits s.code s.rest = some x ∧
      emitLoop n s = .ok { s.writeBits x with iptr := BitVec.ofNat 40 s.inp.length }) ∨
    (∃ p v q x, s.rest = p ++ v :: q ∧ codeBits s.code p = some x ∧ s.code v = none ∧
      emitLoop n s = .raised .noCode { s.writeBits x with iptr := BitVec.ofNat 40 (s.iptr.toNat + p.length + 1) }) := by
  induction n generalizing s with
  | zero =>
    left
    have h0 : s.rest = [] := List.length_eq_zero_iff.mp (by omega)
    refine ⟨[], by rw [h0]; rfl, ?_⟩
    have := h.pointer
    have hp : s.iptr = BitVec.ofNat 40 s.inp.length := ptr_eq_of_toNat (by simp [State.rest] at h0; omega)
    show Result.ok s = .ok { s with iptr := _ }
    rw [← hp]
  | succ n ih =>
    have hs := inNext_spec h
    change match s.rest with | [] => _ | v :: vs => _ at hs
    unfold emitLoop
    cases e : s.rest with
    | nil =>
      rw [e] at hs; simp only at hs
      left
      rw [hs]
      refine ⟨[], rfl, ?_⟩
      have := h.pointer
      have hp : s.iptr = BitVec.ofNat 40 s.inp.length := ptr_eq_of_toNat (by simp [State.rest] at e; omega)
      show Result.ok s = .ok { s with iptr := _ }
      rw [← hp]
    | cons v vs =>
      rw [e] at hs; simp only at hs
      obtain ⟨h1, h2, h3, h4⟩ := hs
      rw [h1]
      show _ ∨ _
      have hcode : ({ s with iptr := s.iptr + 1#40 } : State).code v = s.code v := rfl
      simp only [hcode]
      cases ec : s.code v with
      | none =>
        right
        refine ⟨[], v, vs, [], rfl, rfl, ec, ?_⟩
        simp only [List.length_nil, Nat.add_zero, writeBits_nil]
        rw [← h2, BitVec.ofNat_toNat, BitVec.setWidth_eq]
      | some x =>
        simp only
        have hr : (({ s with iptr := s.iptr + 1#40 } : State).writeBits x).rest = vs := by
          unfold State.rest
          rw [writeBits_inp, writeBits_iptr]
          show s.inp.drop (s.iptr + 1#40).toNat = vs
          rw [h2, h3]
        have hi : (({ s with iptr := s.iptr + 1#40 } : State).writeBits x).StreamInv :=
          StreamInv.congr h (by simp) (by rw [writeBits_iptr]; show (s.iptr + 1#40).toNat ≤ _; omega)
        have hc : (({ s with iptr := s.iptr + 1#40 } : State).writeBits x).code = s.code := by rw [writeBits_code]; rfl
        have hw : ∀ y (q : Ptr), ({ (({ s with iptr := s.iptr + 1#40 } : State).writeBits x).writeBits y with iptr := q } : State) =
            { s.writeBits (x ++ y) with iptr := q } := by
          intro y q
          rw [writeBits_iptr_comm s x, writeBits_iptr_comm (s.writeBits x) y, writeBits_append]
        rcases ih _ hi (by rw [hr]; rw [e] at hn; simpa using hn) with ⟨y, g1, g2⟩ | ⟨p, w, q, y, g1, g2, g3, g4⟩
        · left
          rw [hr, hc] at g1
          refine ⟨x ++ y, by simp [codeBits, ec, g1], ?_⟩
          rw [g2, hw]; simp
        · right
          rw [hr] at g1; rw [hc] at g2 g3
          refine ⟨v :: p, w, q, x ++ y, by rw [g1]; rfl, by simp [codeBits, ec, g2], g3, ?_⟩
          rw [g4, hw, writeBits_iptr]
          have : (s.iptr + 1#40).toNat + p.length + 1 = s.iptr.toNat + (v :: p).length + 1 := by rw [h2, List.length_cons]; omega
          simp only [this]

/-! `RSKIP3`. -/

theorem skipBytes_cases (n : Nat) (s : State) (h : s.StreamInv) :
    (s.iptr.toNat + n ≤ s.inp.length → skipBytes n s = .ok { s with iptr := s.iptr + BitVec.ofNat 40 n }) ∧
    (s.inp.length < s.iptr.toNat + n → skipBytes n s = .raised .endOfStream { s with iptr := BitVec.ofNat 40 s.inp.length }) := by
  induction n generalizing s with
  | zero =>
    refine ⟨fun _ => ?_, fun hc => absurd h.pointer (by omega)⟩
    show Result.ok s = .ok { s with iptr := s.iptr + 0#40 }
    rw [BitVec.add_zero]
  | succ n ih =>
    have hs := inNext_spec h
    have hp := h.pointer
    unfold skipBytes
    cases e : s.inp.drop s.iptr.toNat with
    | nil =>
      rw [e] at hs; simp only at hs
      have hl : s.inp.length = s.iptr.toNat := by simp at e; omega
      rw [hs]
      refine ⟨fun hc => by omega, fun _ => ?_⟩
      show Result.raised _ s = _
      rw [← ptr_eq_of_toNat hl.symm]
    | cons v vs =>
      rw [e] at hs; simp only at hs
      obtain ⟨h1, h2, h3, h4⟩ := hs
      rw [h1]
      have hi : ({ s with iptr := s.iptr + 1#40 } : State).StreamInv :=
        StreamInv.congr h rfl (by show (s.iptr + 1#40).toNat ≤ _; omega)
      have := ih _ hi
      obtain ⟨g1, g2⟩ := this
      refine ⟨fun hc => ?_, fun hc => ?_⟩
      · simp only
        rw [g1 (by show (s.iptr + 1#40).toNat + n ≤ _; rw [h2]; exact (by omega : s.iptr.toNat + 1 + n ≤ s.inp.length))]
        show Result.ok { s with iptr := s.iptr + 1#40 + BitVec.ofNat 40 n } = _
        rw [BitVec.add_assoc, Nat.add_comm n 1, BitVec.ofNat_add]
      · simp only
        rw [g2 (by show s.inp.length < (s.iptr + 1#40).toNat + n; rw [h2]; omega)]

/-! `WALK`. -/

/-- The walk's position: the root, or an internal node strictly below it. -/
def State.walkAt (s : State) (tr e : Tree) : Prop :=
  s.treeAt Config.treeFuel s.pos = some e ∧ ((s.pos = s.root ∧ e = tr) ∨ ((∃ l r, e = .node l r) ∧ e.nodeCount < tr.nodeCount))

theorem treeAt_moved (s : State) (o : List Byte) (p q : Idx) (n : Nat) :
    ({ s with out := o, pos := p } : State).treeAt n q = s.treeAt n q := by apply treeAt_congr <;> rfl

theorem walkAt_root {s : State} {tr e : Tree} (ht : s.tree = some tr) (h : s.walkAt tr e) : s.pos = s.root ↔ e = tr := by
  obtain ⟨h1, ⟨h2, h3⟩ | ⟨h2, h3⟩⟩ := h
  · exact ⟨fun _ => h3, fun _ => h2⟩
  · constructor
    · intro hp; rw [hp] at h1; exact Option.some.inj (h1.symm.trans ht)
    · intro he; rw [he] at h3; omega

theorem bits_nil_iff {s : State} (h : s.StreamInv) : s.restBits = [] ↔ s.rpos = 8 ∧ s.iptr.toNat = s.inp.length := by
  have := h.pointer
  have hr := s.rpos.isLt
  rw [← List.length_eq_zero_iff, ← bitsLeft_eq, State.bitsLeft, State.bytesLeft]
  constructor
  · intro h0; exact ⟨Fin.ext (by show s.rpos.val = 8; omega), by omega⟩
  · rintro ⟨h1, h2⟩; rw [h1, h2]; simp

/-- One bit of the walk, on the arena and on the abstract tree. -/
theorem walkBit_cases {s : State} {tr e : Tree} (b : Bool) (ht : s.tree = some tr) (h : s.walkAt tr e) (bs : Bits) :
    (∃ o p e', walkBit b s = .ok { s with out := s.out ++ o, pos := p } ∧ ({ s with out := s.out ++ o, pos := p } : State).walkAt tr e' ∧
      tr.walkFrom e (b :: bs) = (o ++ (tr.walkFrom e' bs).1, (tr.walkFrom e' bs).2)) ∨
    (walkBit b s = .raised .corruptStream s ∧ tr.walkFrom e (b :: bs) = ([], none)) := by
  obtain ⟨h1, h2⟩ := h
  obtain ⟨nd, hn, ⟨hl, rfl⟩ | ⟨hl, l, r, rfl, e1, e2⟩⟩ := treeAt_succ_cases (n := 255) h1
  · obtain ⟨hp, rfl⟩ | ⟨⟨l, r, hc⟩, _⟩ := h2
    · unfold walkBit
      simp only [hn, hl, if_true]
      cases b with
      | true => right; exact ⟨rfl, rfl⟩
      | false =>
        left
        refine ⟨[nd.val], s.pos, .leaf nd.val, rfl, ⟨?_, .inl ⟨hp, rfl⟩⟩, rfl⟩
        rw [treeAt_moved]; exact h1
    · cases hc
  · left
    have hsz : (Tree.node l r).nodeCount ≤ tr.nodeCount := by
      rcases h2 with ⟨_, h2⟩ | ⟨_, h2⟩
      · rw [h2]
      · omega
    unfold walkBit
    have key : ∀ (c : Idx) (sub : Tree), s.treeAt 255 c = some sub → sub.nodeCount < (Tree.node l r).nodeCount →
        (match s.node c with
          | none => Result.stuck Fault.malformedArena
          | some md => if md.leaf then Result.ok ((s.emitByte md.val).moveTo s.root) else Result.ok (s.moveTo c)) =
        (match sub with
          | .leaf v => Result.ok { s with out := s.out ++ [v], pos := s.root }
          | .node _ _ => Result.ok { s with pos := c }) := by
      intro c sub hc _
      obtain ⟨md, hm, ⟨hl2, rfl⟩ | ⟨hl2, l2, r2, rfl, _, _⟩⟩ := treeAt_succ_cases (n := 254) hc
      · simp only [hm, hl2, if_true]; rfl
      · simp only [hm, hl2, Bool.false_eq_true, if_false]; rfl
    have fin : ∀ (c : Idx) (sub : Tree), s.treeAt 255 c = some sub → sub.nodeCount < (Tree.node l r).nodeCount →
        (∀ bs, tr.walkFrom (.node l r) (b :: bs) = match sub with
          | .leaf v => (v :: (tr.walkFrom tr bs).1, (tr.walkFrom tr bs).2)
          | .node l' r' => tr.walkFrom (.node l' r') bs) →
        ∃ o p e', (match s.node c with
          | none => Result.stuck Fault.malformedArena
          | some md => if md.leaf then Result.ok ((s.emitByte md.val).moveTo s.root) else Result.ok (s.moveTo c)) =
            Result.ok { s with out := s.out ++ o, pos := p } ∧ ({ s with out := s.out ++ o, pos := p } : State).walkAt tr e' ∧
          tr.walkFrom (.node l r) (b :: bs) = (o ++ (tr.walkFrom e' bs).1, (tr.walkFrom e' bs).2) := by
      intro c sub hc hlt hw
      rw [key c sub hc hlt, hw bs]
      cases sub with
      | leaf v =>
        refine ⟨[v], s.root, tr, rfl, ⟨?_, .inl ⟨rfl, rfl⟩⟩, rfl⟩
        rw [treeAt_moved]; exact ht
      | node l2 r2 =>
        refine ⟨[], c, .node l2 r2, by simp, ⟨?_, .inr ⟨⟨l2, r2, rfl⟩, by omega⟩⟩, by simp⟩
        rw [treeAt_moved]; exact treeAt_mono hc (by decide)
    simp only [hn, hl, Bool.false_eq_true, if_false]
    cases b with
    | false => exact fin nd.left l e1 (by simp only [Tree.nodeCount]; omega) (fun _ => rfl)
    | true => exact fin nd.right r e2 (by simp only [Tree.nodeCount]; omega) (fun _ => rfl)

/-- The whole walk, from a position on the tree. -/
theorem walkLoop_cases (n : Nat) (s : State) (tr e : Tree) (h : s.StreamInv) (ht : s.tree = some tr) (hw : s.walkAt tr e)
    (hn : s.restBits.length ≤ n) :
    (∃ e' t, (tr.walkFrom e s.restBits).2 = some e' ∧ walkLoop n s = .ok t ∧ t.out = s.out ++ (tr.walkFrom e s.restBits).1 ∧
      t.iptr.toNat = s.inp.length ∧ t.rpos = 8 ∧ t.walkAt tr e' ∧
      t = { s with out := t.out, iptr := t.iptr, cur := t.cur, rpos := t.rpos, pos := t.pos }) ∨
    (∃ t, (tr.walkFrom e s.restBits).2 = none ∧ walkLoop n s = .raised .corruptStream t ∧
      t.out = s.out ++ (tr.walkFrom e s.restBits).1 ∧ t.iptr.toNat ≤ s.inp.length ∧
      t = { s with out := t.out, iptr := t.iptr, cur := t.cur, rpos := t.rpos, pos := t.pos }) := by
  induction n generalizing s e with
  | zero =>
    left
    have h0 : s.restBits = [] := List.length_eq_zero_iff.mp (by omega)
    obtain ⟨h1, h2⟩ := (bits_nil_iff h).mp h0
    rw [h0]
    cases e <;> exact ⟨_, s, rfl, rfl, by simp [Tree.walkFrom], h2, h1, hw, rfl⟩
  | succ n ih =>
    have hs := nextBit_spec h
    unfold walkLoop
    cases er : s.restBits with
    | nil =>
      rw [er] at hs; simp only at hs
      left
      obtain ⟨h1, h2⟩ := (bits_nil_iff h).mp er
      rw [hs]
      cases e <;> exact ⟨_, s, rfl, rfl, by simp [Tree.walkFrom], h2, h1, hw, rfl⟩
    | cons b bs =>
      rw [er] at hs; simp only at hs
      obtain ⟨u, h1, h2, h3, h4⟩ := hs
      rw [h1]; simp only
      have htu : u.tree = some tr := by rw [← ht]; exact tree_congr (by rw [h4]) (by rw [h4]) (by rw [h4])
      have hwu : u.walkAt tr e := by
        have hp : u.pos = s.pos := by rw [h4]
        have hr : u.root = s.root := by rw [h4]
        refine ⟨?_, by rw [hp, hr]; exact hw.2⟩
        rw [hp, ← hw.1]; exact treeAt_congr (by rw [h4]) (by rw [h4]) _ _
      have hinp : u.inp = s.inp := by rw [h4]
      have hout : u.out = s.out := by rw [h4]
      rcases walkBit_cases b htu hwu bs with ⟨o, p, e', g1, g2, g3⟩ | ⟨g1, g3⟩
      · rw [g1, andThen_ok]
        have hi : ({ u with out := u.out ++ o, pos := p } : State).StreamInv := ⟨h3.short, h3.pointer⟩
        have hrb : ({ u with out := u.out ++ o, pos := p } : State).restBits = bs := h2
        have ht' : ({ u with out := u.out ++ o, pos := p } : State).tree = some tr := by
          rw [← htu]; apply tree_congr <;> rfl
        rcases ih _ e' hi ht' g2 (by rw [hrb]; rw [er] at hn; simpa using hn) with
          ⟨e2, t, k1, k2, k3, k4, k5, k6, k7⟩ | ⟨t, k1, k2, k3, k4, k5⟩
        · left
          rw [hrb] at k1 k3
          refine ⟨e2, t, by rw [g3]; exact k1, k2, ?_, by rw [k4]; exact congrArg _ hinp, k5, k6, ?_⟩
          · rw [k3, g3]; show (u.out ++ o) ++ _ = _; rw [hout, List.append_assoc]
          · rw [k7, h4]
        · right
          rw [hrb] at k1 k3
          refine ⟨t, by rw [g3]; exact k1, k2, ?_, by rw [← hinp]; exact k4, ?_⟩
          · rw [k3, g3]; show (u.out ++ o) ++ _ = _; rw [hout, List.append_assoc]
          · rw [k5, h4]
      · right
        rw [g1, g3]
        exact ⟨u, rfl, rfl, by simp [hout], by rw [← hinp]; exact h3.pointer, by rw [h4]⟩

end Sys2Proof.Machine
end

