-- ==== Sys2Proof/Laws/Des.lean ====
section
/-! SUPPORT. `Des`: everything it can do (`44_tree_serdes.md` R174 to R178), and the arena it leaves. -/

namespace Sys2Proof.Machine

/-- `nodes` holds `t` in pre-order from entry `k` on, as `Des` writes it (`10_state.md` R34 item 6). -/
def placed (nodes : Vector NodeRec 511) : Nat → Tree → Prop
  | k, .leaf v => nodes[k]? = some (leafRec v 0#40)
  | k, .node l r =>
    nodes[k]? = some (innerRec 0#40 (BitVec.ofNat 9 (k + 1)) (BitVec.ofNat 9 (k + 1 + l.nodeCount))) ∧
    placed nodes (k + 1) l ∧ placed nodes (k + 1 + l.nodeCount) r

theorem nodeCount_pos (t : Tree) : 0 < t.nodeCount := by cases t <;> simp only [Tree.nodeCount] <;> omega

theorem depth_lt_nodeCount (t : Tree) : t.depth < t.nodeCount := by
  have := nodeCount_leaves t; have := depth_lt_leaves t; omega

theorem placed_congr {a b : Vector NodeRec 511} {k : Nat} {t : Tree}
    (h : ∀ i, k ≤ i → i < k + t.nodeCount → b[i]? = a[i]?) (hp : placed a k t) : placed b k t := by
  induction t generalizing k with
  | leaf v => show b[k]? = _; rw [h k (by omega) (by simp [Tree.nodeCount])]; exact hp
  | node l r h1 h2 =>
    obtain ⟨g1, g2, g3⟩ := hp
    simp only [Tree.nodeCount] at h
    refine ⟨by rw [h k (by omega) (by omega)]; exact g1, h1 (fun i hi hj => h i (by omega) (by omega)) g2,
      h2 (fun i hi hj => h i (by omega) (by omega)) g3⟩

/-- What `Des` may change. -/
def State.desFrame (s u : State) : Prop :=
  u = { s with nodes := u.nodes, ncnt := u.ncnt, cur := u.cur, rpos := u.rpos, iptr := u.iptr }

theorem desFrame_refl (s : State) : s.desFrame s := rfl
theorem desFrame_trans {s u w : State} (h1 : s.desFrame u) (h2 : u.desFrame w) : s.desFrame w := by
  unfold State.desFrame at *; rw [h2, h1]

theorem desFrame_of_read {s u : State} (h : u = { s with cur := u.cur, rpos := u.rpos, iptr := u.iptr }) : s.desFrame u := by
  unfold State.desFrame; rw [h]

theorem desFrame_alloc (s : State) : s.desFrame s.allocNode := rfl
theorem desFrame_setNode (s : State) (i : Idx) (n : NodeRec) : s.desFrame (s.setNode i n) := rfl

/-- One bit inside `TDES`. -/
theorem desBit_cases {s : State} (h : s.StreamInv) :
    match s.restBits with
    | [] => desBit s = .raised .corruptStream s
    | b :: bs => ∃ t, desBit s = .ok (b, t) ∧ t.restBits = bs ∧ t.StreamInv ∧
        t = { s with cur := t.cur, rpos := t.rpos, iptr := t.iptr } := by
  have := nextBit_spec h
  unfold desBit
  split
  · rename_i e; rw [e] at this; simp only at this; rw [this]
  · rename_i b bs e
    rw [e] at this; simp only at this
    obtain ⟨t, h1, h2⟩ := this
    exact ⟨t, by rw [h1], h2⟩

/-- The value bits of a leaf: all of them, or the end of the input. -/
theorem desValue_cases (n : Nat) (v : Byte) (s : State) (h : s.StreamInv) :
    (∃ t, n ≤ s.restBits.length ∧ desValue n v s = .ok ((s.restBits.take n).foldl shiftIn v, t) ∧ t.restBits = s.restBits.drop n ∧
      t.StreamInv ∧ t = { s with cur := t.cur, rpos := t.rpos, iptr := t.iptr }) ∨
    (∃ t, s.restBits.length < n ∧ desValue n v s = .raised .corruptStream t ∧ t.restBits = [] ∧ t.StreamInv ∧
      t = { s with cur := t.cur, rpos := t.rpos, iptr := t.iptr }) := by
  induction n generalizing v s with
  | zero => left; exact ⟨s, by omega, rfl, rfl, h, rfl⟩
  | succ n ih =>
    have hb := desBit_cases h
    unfold desValue
    cases e : s.restBits with
    | nil =>
      rw [e] at hb; simp only at hb
      right
      rw [hb]; exact ⟨s, by simp, rfl, e, h, rfl⟩
    | cons b bs =>
      rw [e] at hb; simp only at hb
      obtain ⟨u, h1, h2, h3, h4⟩ := hb
      rw [h1, andThen_ok]
      rcases ih (shiftIn v b) u h3 with ⟨t, g0, g1, g2, g3, g4⟩ | ⟨t, g0, g1, g2, g3, g4⟩
      · left
        rw [h2] at g0 g1 g2
        exact ⟨t, by simpa using g0, g1, by simpa using g2, g3, by rw [g4, h4]⟩
      · right
        rw [h2] at g0
        exact ⟨t, by simpa using g0, g1, g2, g3, by rw [g4, h4]⟩

theorem foldl_shiftIn_byteBits (v : Byte) : (byteBits v).foldl shiftIn 0#8 = v := by
  revert v; decide +kernel

theorem byteBits_foldl : ∀ a b c d e f g h : Bool,
    byteBits (([a, b, c, d, e, f, g, h] : Bits).foldl shiftIn 0#8) = [a, b, c, d, e, f, g, h] := by decide +kernel

theorem byteBits_of_take {x : Bits} (h : 8 ≤ x.length) : byteBits ((x.take 8).foldl shiftIn 0#8) = x.take 8 := by
  match x, h with
  | a :: b :: c :: d :: e :: f :: g :: i :: y, _ => exact byteBits_foldl a b c d e f g i

theorem allocNode_next {s : State} (h : s.ncnt.val ≠ 511) : s.allocNode.ncnt.val = s.ncnt.val + 1 := by
  have := s.ncnt.isLt
  show (s.ncnt + 1).val = _
  rw [Fin.val_add]
  show (s.ncnt.val + 1) % 512 = _
  omega

theorem nextIdx_toNat (s : State) : s.nextIdx.toNat = s.ncnt.val := by
  have := s.ncnt.isLt
  simp only [State.nextIdx, BitVec.toNat_ofNat]; omega

theorem setNode_get (s : State) (i : Idx) (n : NodeRec) (k : Nat) :
    (s.setNode i n).nodes[k]? = if k = i.toNat ∧ k < 511 then some n else s.nodes[k]? := by
  unfold State.setNode
  simp only [Vector.getElem?_setIfInBounds]
  by_cases h1 : i.toNat = k
  · subst h1
    by_cases h2 : i.toNat < 511
    · simp [h2]
    · simp [h2]
  · simp [h1, Ne.symm h1]

/-- `Des` on the bits of a tree: the tree if it fits, `TreeTooLarge` if it does not. -/
theorem des_tree (n : Nat) (t : Tree) (x : Bits) (s : State) (h : s.StreamInv) (hb : s.restBits = t.serBits ++ x)
    (hn : 512 ≤ n + s.ncnt.val) :
    (s.ncnt.val + t.nodeCount ≤ 511 → ∃ u, des n s = .ok (s.nextIdx, u) ∧ u.restBits = x ∧ u.StreamInv ∧
      u.ncnt.val = s.ncnt.val + t.nodeCount ∧ placed u.nodes s.ncnt.val t ∧ (∀ i, i < s.ncnt.val → u.nodes[i]? = s.nodes[i]?) ∧
      s.desFrame u) ∧
    (511 < s.ncnt.val + t.nodeCount → ∃ u, des n s = .raised .treeTooLarge u ∧ u.StreamInv ∧ s.desFrame u) := by
  induction n generalizing t x s with
  | zero => exact absurd s.ncnt.isLt (by omega)
  | succ n ih =>
    have hlt := s.ncnt.isLt
    have hpos := nodeCount_pos t
    unfold des
    by_cases hfull : s.ncnt.val = Config.nodeMax
    · rw [if_pos hfull]
      simp only [Config.nodeMax] at hfull
      exact ⟨fun hc => by omega, fun _ => ⟨s, rfl, h, desFrame_refl s⟩⟩
    · rw [if_neg hfull]
      have hd := desBit_cases h
      cases t with
      | leaf v =>
        have hb2 : s.restBits = true :: (byteBits v ++ x) := hb
        rw [hb2] at hd; simp only at hd
        obtain ⟨u, h1, h2, h3, h4⟩ := hd
        have hc : u.ncnt = s.ncnt := by rw [h4]
        have hcur : u.ncnt.val ≠ 511 := by rw [hc]; exact hfull
        have ha : u.allocNode.restBits = byteBits v ++ x := h2
        have hs : u.allocNode.StreamInv := ⟨h3.short, h3.pointer⟩
        refine ⟨fun _ => ?_, fun hbad => by simp only [Tree.nodeCount] at hbad; simp only [Config.nodeMax] at hfull; omega⟩
        rw [h1, andThen_ok]
        simp only [if_true]
        rcases desValue_cases 8 0#8 u.allocNode hs with ⟨w, g0, g1, g2, g3, g4⟩ | ⟨w, g0, _⟩
        · rw [ha] at g1 g2
          rw [List.take_left' (byteBits_length v), foldl_shiftIn_byteBits] at g1
          rw [List.drop_left' (byteBits_length v)] at g2
          rw [g1, andThen_ok]
          have hix : u.nextIdx = s.nextIdx := by unfold State.nextIdx; rw [hc]
          refine ⟨w.setNode u.nextIdx (leafRec v 0#40), by rw [hix], g2, ⟨g3.short, g3.pointer⟩, ?_, ?_, ?_, ?_⟩
          · show w.ncnt.val = _
            rw [g4]; show u.allocNode.ncnt.val = _
            rw [allocNode_next hcur, hc]; rfl
          · show (w.setNode u.nextIdx (leafRec v 0#40)).nodes[s.ncnt.val]? = some (leafRec v 0#40)
            rw [setNode_get, nextIdx_toNat, hc]
            simp only [Config.nodeMax] at hfull
            rw [if_pos ⟨rfl, by omega⟩]
          · intro i hi
            rw [setNode_get, nextIdx_toNat, hc, if_neg (by omega), g4]
            show u.nodes[i]? = _
            rw [h4]
          · exact desFrame_trans (desFrame_of_read h4) (desFrame_trans (desFrame_alloc u)
              (desFrame_trans (desFrame_of_read g4) (desFrame_setNode _ _ _)))
        · rw [ha] at g0; simp at g0
      | node l r =>
        have hb2 : s.restBits = false :: (l.serBits ++ (r.serBits ++ x)) := by rw [hb]; simp [Tree.serBits]
        rw [hb2] at hd; simp only at hd
        obtain ⟨u, h1, h2, h3, h4⟩ := hd
        have hc : u.ncnt = s.ncnt := by rw [h4]
        have hcur : u.ncnt.val ≠ 511 := by rw [hc]; exact hfull
        have hac := allocNode_next hcur
        rw [hc] at hac
        have hs : u.allocNode.StreamInv := ⟨h3.short, h3.pointer⟩
        have hfr : s.desFrame u.allocNode := desFrame_trans (desFrame_of_read h4) (desFrame_alloc u)
        obtain ⟨L1, L2⟩ := ih l (r.serBits ++ x) u.allocNode hs h2 (by rw [hac]; omega)
        rw [hac] at L1 L2
        rw [h1, andThen_ok]
        simp only [Bool.false_eq_true, if_false]
        simp only [Tree.nodeCount]
        by_cases hl : s.ncnt.val + 1 + l.nodeCount ≤ 511
        · obtain ⟨w, k1, k2, k3, k4, k5, k6, k7⟩ := L1 hl
          obtain ⟨R1, R2⟩ := ih r x w k3 k2 (by rw [k4]; omega)
          rw [k4] at R1 R2
          rw [k1, andThen_ok]
          refine ⟨fun hfit => ?_, fun hbad => ?_⟩
          · obtain ⟨y, q1, q2, q3, q4, q5, q6, q7⟩ := R1 (by omega)
            rw [q1, andThen_ok]
            have hix : u.nextIdx = s.nextIdx := by unfold State.nextIdx; rw [hc]
            have e1 : u.allocNode.nextIdx = BitVec.ofNat 9 (s.ncnt.val + 1) := by unfold State.nextIdx; rw [hac]
            have e2 : w.nextIdx = BitVec.ofNat 9 (s.ncnt.val + 1 + l.nodeCount) := by unfold State.nextIdx; rw [k4]
            have hget : ∀ i, i ≠ s.ncnt.val →
                (y.setNode u.nextIdx (innerRec 0#40 u.allocNode.nextIdx w.nextIdx)).nodes[i]? = y.nodes[i]? := by
              intro i hi
              rw [setNode_get, nextIdx_toNat, hc, if_neg (by omega)]
            refine ⟨y.setNode u.nextIdx (innerRec 0#40 u.allocNode.nextIdx w.nextIdx), by rw [hix], q2, ⟨q3.short, q3.pointer⟩, ?_,
              ⟨?_, ?_, ?_⟩, ?_, ?_⟩
            · show y.ncnt.val = _
              rw [q4]; omega
            · rw [setNode_get, nextIdx_toNat, hc, e1, e2]
              simp only [Config.nodeMax] at hfull
              rw [if_pos ⟨rfl, by omega⟩]
            · exact placed_congr (fun i hi hj => by rw [hget i (by omega), q6 i (by omega)]) k5
            · exact placed_congr (fun i hi hj => by rw [hget i (by omega)]) q5
            · intro i hi
              rw [hget i (by omega), q6 i (by omega), k6 i (by omega)]
              show u.nodes[i]? = _
              rw [h4]
            · exact desFrame_trans hfr (desFrame_trans k7 (desFrame_trans q7 (desFrame_setNode _ _ _)))
          · obtain ⟨y, q1, q2, q3⟩ := R2 (by omega)
            rw [q1, andThen_raised]
            exact ⟨y, rfl, q2, desFrame_trans hfr (desFrame_trans k7 q3)⟩
        · refine ⟨fun hfit => absurd hfit (by omega), fun _ => ?_⟩
          obtain ⟨y, q1, q2, q3⟩ := L2 (by omega)
          rw [q1, andThen_raised]
          exact ⟨y, rfl, q2, desFrame_trans hfr q3⟩

/-- `Des` on any input: a tree stands next and fits, or the input ends inside it, or it is too large. -/
theorem des_cases (n : Nat) (s : State) (h : s.StreamInv) (hn : 512 ≤ n + s.ncnt.val) :
    (∃ (t : Tree) (x : Bits), s.restBits = t.serBits ++ x ∧ s.ncnt.val + t.nodeCount ≤ 511) ∨
    (∃ u, des n s = .raised .corruptStream u ∧ u.restBits = [] ∧ u.StreamInv ∧ s.desFrame u) ∨
    (∃ u, des n s = .raised .treeTooLarge u ∧ u.StreamInv ∧ s.desFrame u) := by
  induction n generalizing s with
  | zero => exact absurd s.ncnt.isLt (by omega)
  | succ n ih =>
    have hlt := s.ncnt.isLt
    by_cases hfull : s.ncnt.val = Config.nodeMax
    · right; right
      refine ⟨s, ?_, h, desFrame_refl s⟩
      unfold des; rw [if_pos hfull]
    · have hf2 : s.ncnt.val ≠ 511 := hfull
      have hd := desBit_cases h
      cases e : s.restBits with
      | nil =>
        rw [e] at hd; simp only at hd
        right; left
        refine ⟨s, ?_, e, h, desFrame_refl s⟩
        unfold des; rw [if_neg hfull, hd, andThen_raised]
      | cons b bs =>
        rw [e] at hd; simp only at hd
        obtain ⟨u, h1, h2, h3, h4⟩ := hd
        have hc : u.ncnt = s.ncnt := by rw [h4]
        have hac := allocNode_next (s := u) (by rw [hc]; exact hfull)
        rw [hc] at hac
        have hs : u.allocNode.StreamInv := ⟨h3.short, h3.pointer⟩
        have hfr : s.desFrame u.allocNode := desFrame_trans (desFrame_of_read h4) (desFrame_alloc u)
        have hrb : u.allocNode.restBits = bs := h2
        cases b with
        | true =>
          rcases desValue_cases 8 0#8 u.allocNode hs with ⟨w, g0, g1, g2, g3, g4⟩ | ⟨w, g0, g1, g2, g3, g4⟩
          · left
            rw [hrb] at g0
            refine ⟨.leaf ((bs.take 8).foldl shiftIn 0#8), bs.drop 8, ?_, by simp only [Tree.nodeCount]; omega⟩
            show true :: bs = true :: (byteBits _ ++ _)
            rw [byteBits_of_take g0, List.take_append_drop]
          · right; left
            refine ⟨w, ?_, g2, g3, desFrame_trans hfr (desFrame_of_read g4)⟩
            unfold des; rw [if_neg hfull, h1, andThen_ok]
            simp only [if_true]
            rw [g1, andThen_raised]
        | false =>
          have hdes : ∀ r, (des n u.allocNode).andThen (fun (p : Idx × State) =>
              (des n p.2).andThen fun (q : Idx × State) => .ok (u.nextIdx, q.2.setNode u.nextIdx (innerRec 0#40 p.1 q.1))) = r →
              des (n + 1) s = r := by
            intro r hr
            rw [← hr]
            conv_lhs => unfold des
            rw [if_neg hfull, h1, andThen_ok]
            simp only [Bool.false_eq_true, if_false]
          rcases ih u.allocNode hs (by rw [hac]; omega) with ⟨l, y, k1, k2⟩ | ⟨w, k1, k2, k3, k4⟩ | ⟨w, k1, k2, k3⟩
          · rw [hac] at k2
            obtain ⟨w, q1, q2, q3, q4, -, -, q7⟩ := (des_tree n l y u.allocNode hs k1 (by rw [hac]; omega)).1 (by rw [hac]; exact k2)
            rw [hac] at q4
            rcases ih w q3 (by rw [q4]; omega) with ⟨r, z, m1, m2⟩ | ⟨v, m1, m2, m3, m4⟩ | ⟨v, m1, m2, m3⟩
            · left
              refine ⟨.node l r, z, ?_, by simp only [Tree.nodeCount]; omega⟩
              rw [← hrb, k1, ← q2, m1]; simp [Tree.serBits]
            · right; left
              refine ⟨v, hdes _ ?_, m2, m3, desFrame_trans hfr (desFrame_trans q7 m4)⟩
              rw [q1, andThen_ok, m1, andThen_raised]
            · right; right
              refine ⟨v, hdes _ ?_, m2, desFrame_trans hfr (desFrame_trans q7 m3)⟩
              rw [q1, andThen_ok, m1, andThen_raised]
          · right; left
            exact ⟨w, hdes _ (by rw [k1, andThen_raised]), k2, k3, desFrame_trans hfr k4⟩
          · right; right
            exact ⟨w, hdes _ (by rw [k1, andThen_raised]), k2, desFrame_trans hfr k3⟩

/-! The arena that `Des` leaves. -/

theorem node_of_get {s : State} {k : Nat} {nd : NodeRec} (h : s.nodes[k]? = some nd) (hk : k < s.ncnt.val) :
    s.node (BitVec.ofNat 9 k) = some nd := by
  have hlt := s.ncnt.isLt
  have : (BitVec.ofNat 9 k).toNat = k := by simp only [BitVec.toNat_ofNat]; omega
  unfold State.node
  rw [this, if_pos hk, h]

theorem placed_treeAt {s : State} {t : Tree} {k : Nat} (h : placed s.nodes k t) (hk : k + t.nodeCount ≤ s.ncnt.val) :
    s.treeAt (t.depth + 1) (BitVec.ofNat 9 k) = some t := by
  induction t generalizing k with
  | leaf v => exact treeAt_leaf (node_of_get h (by simp only [Tree.nodeCount] at hk; omega)) rfl
  | node l r h1 h2 =>
    simp only [Tree.nodeCount] at hk
    obtain ⟨g1, g2, g3⟩ := h
    refine treeAt_node (node_of_get g1 (by omega)) rfl ?_ ?_
    · exact treeAt_mono (h1 g2 (by omega)) (by simp only [Tree.depth]; omega)
    · exact treeAt_mono (h2 g3 (by omega)) (by simp only [Tree.depth]; omega)

theorem placed_visit {s : State} {t : Tree} {k n : Nat} (h : placed s.nodes k t) (hk : k + t.nodeCount ≤ s.ncnt.val) (hn : t.depth < n) :
    s.visit n (BitVec.ofNat 9 k) = some ((List.range' k t.nodeCount).map (BitVec.ofNat 9)) := by
  induction t generalizing k n with
  | leaf v =>
    obtain ⟨n, rfl⟩ : ∃ m, n = m + 1 := ⟨n - 1, by omega⟩
    unfold State.visit
    rw [node_of_get h (by simp only [Tree.nodeCount] at hk; omega)]
    rfl
  | node l r h1 h2 =>
    obtain ⟨n, rfl⟩ : ∃ m, n = m + 1 := ⟨n - 1, by omega⟩
    simp only [Tree.nodeCount] at hk
    simp only [Tree.depth] at hn
    obtain ⟨g1, g2, g3⟩ := h
    unfold State.visit
    rw [node_of_get g1 (by omega)]
    simp only [innerRec, Bool.false_eq_true, if_false]
    rw [h1 g2 (by omega) (by omega), h2 g3 (by omega) (by omega)]
    simp only [Tree.nodeCount]
    rw [show 1 + l.nodeCount + r.nodeCount = l.nodeCount + r.nodeCount + 1 by omega, List.range'_succ, List.map_cons,
      ← List.range'_append_1, List.map_append]

theorem placed_wellFormed {s : State} {t : Tree} (h : placed s.nodes 0 t) (hk : t.nodeCount = s.ncnt.val) (hr : s.root = 0#9) :
    s.wellFormed = true ∧ s.tree = some t := by
  have hlt := s.ncnt.isLt
  have h1 := nodeCount_leaves t
  have h2 := depth_lt_leaves t
  have e0 : s.root = BitVec.ofNat 9 0 := hr
  constructor
  · unfold State.wellFormed
    rw [e0, placed_visit h (by omega) (by simp only [Config.treeFuel]; omega)]
    simp only [Bool.and_eq_true, decide_eq_true_eq, List.length_map, List.length_range']
    refine ⟨?_, hk⟩
    refine List.Nodup.map_on ?_ List.nodup_range'
    intro a ha b hb hab
    have := congrArg BitVec.toNat hab
    simp only [List.mem_range'_1] at ha hb
    simp only [BitVec.toNat_ofNat] at this
    omega
  · unfold State.tree
    rw [e0]
    exact treeAt_mono (placed_treeAt h (by omega)) (by simp only [Config.treeFuel]; omega)

/-- Every entry of a placed tree: weight 0, the left child next, the right one later (`10_state.md` R34 item 6). -/
theorem placed_entry {nodes : Vector NodeRec 511} {t : Tree} {k i : Nat} (h : placed nodes k t) (h1 : k ≤ i) (h2 : i < k + t.nodeCount)
    (hk : k + t.nodeCount ≤ 511) : ∃ nd, nodes[i]? = some nd ∧ nd.wt = 0#40 ∧
      (nd.leaf = false → nd.left.toNat = i + 1 ∧ i + 1 < nd.right.toNat ∧ nd.right.toNat < k + t.nodeCount) := by
  induction t generalizing k with
  | leaf v =>
    simp only [Tree.nodeCount] at h2
    obtain rfl : i = k := by omega
    exact ⟨_, h, rfl, fun hc => by cases hc⟩
  | node l r ih1 ih2 =>
    have hp1 := nodeCount_pos l
    have hp2 := nodeCount_pos r
    simp only [Tree.nodeCount] at h2 hk ⊢
    obtain ⟨g1, g2, g3⟩ := h
    by_cases hik : i = k
    · subst hik
      refine ⟨_, g1, rfl, fun _ => ?_⟩
      simp only [innerRec, BitVec.toNat_ofNat]
      omega
    · by_cases hil : i < k + 1 + l.nodeCount
      · obtain ⟨nd, q1, q2, q3⟩ := ih1 g2 (by omega) (by omega) (by omega)
        exact ⟨nd, q1, q2, fun hc => by have := q3 hc; omega⟩
      · obtain ⟨nd, q1, q2, q3⟩ := ih2 g3 (by omega) (by omega) (by omega)
        exact ⟨nd, q1, q2, fun hc => by have := q3 hc; omega⟩

/-- `TDES`, all of it. -/
theorem tdesBody_cases (s : State) (h : s.StreamInv) :
    (∃ (t : Tree) (x : Bits) (u : State), s.restBits = t.serBits ++ x ∧ t.nodeCount ≤ 511 ∧ tdesBody s = .ok u ∧ u.restBits = x ∧ u.StreamInv ∧
      u.ncnt.val = t.nodeCount ∧ placed u.nodes 0 t ∧ u.root = 0#9 ∧ u.pos = 0#9 ∧ u.tv = true ∧ u.cv = false ∧
      u = { s with nodes := u.nodes, ncnt := u.ncnt, root := u.root, pos := u.pos, tv := u.tv, cv := u.cv,
                   cur := u.cur, rpos := u.rpos, iptr := u.iptr }) ∨
    (∃ u, tdesBody s = .raised .corruptStream u ∧ u.restBits = [] ∧ u.StreamInv ∧
      ({ s.clearTreeValid with ncnt := 0 } : State).desFrame u) ∨
    (∃ u, tdesBody s = .raised .treeTooLarge u ∧ u.StreamInv ∧ ({ s.clearTreeValid with ncnt := 0 } : State).desFrame u) := by
  have hs : ({ s.clearTreeValid with ncnt := 0 } : State).StreamInv := ⟨h.short, h.pointer⟩
  have hn : 512 ≤ Config.desFuel + ({ s.clearTreeValid with ncnt := 0 } : State).ncnt.val := by
    show 512 ≤ 512 + _; omega
  unfold tdesBody
  rcases des_cases Config.desFuel _ hs hn with ⟨t, x, k1, k2⟩ | ⟨u, k1, k2, k3, k4⟩ | ⟨u, k1, k2, k3⟩
  · left
    have hz : ({ s.clearTreeValid with ncnt := 0 } : State).ncnt.val = 0 := rfl
    obtain ⟨u, q1, q2, q3, q4, q5, q6, q7⟩ := (des_tree Config.desFuel t x _ hs k1 hn).1 k2
    rw [hz, Nat.zero_add] at q4 k2
    rw [hz] at q5
    rw [q1, andThen_ok]
    have hcv : (u.setTree 0#9).cv = false := by show u.cv = false; rw [q7]; rfl
    refine ⟨t, x, u.setTree 0#9, k1, k2, rfl, q2, ⟨q3.short, q3.pointer⟩, q4, q5, rfl, rfl, rfl, hcv, ?_⟩
    unfold State.desFrame at q7
    rw [hcv]
    conv_lhs => rw [q7]
    rfl
  · right; left
    exact ⟨u, by rw [k1, andThen_raised], k2, k3, k4⟩
  · right; right
    exact ⟨u, by rw [k1, andThen_raised], k2, k3⟩

/-- `TDES` where the next bits are those of a tree too large. -/
theorem tdesBody_large {s : State} (h : s.StreamInv) {t : Tree} {x : Bits} (hb : s.restBits = t.serBits ++ x) (hl : 511 < t.nodeCount) :
    ∃ u, tdesBody s = .raised .treeTooLarge u ∧ u.StreamInv ∧ ({ s.clearTreeValid with ncnt := 0 } : State).desFrame u := by
  have hs : ({ s.clearTreeValid with ncnt := 0 } : State).StreamInv := ⟨h.short, h.pointer⟩
  have hn : 512 ≤ Config.desFuel + ({ s.clearTreeValid with ncnt := 0 } : State).ncnt.val := by
    show 512 ≤ 512 + _; omega
  obtain ⟨u, q1, q2, q3⟩ := (des_tree Config.desFuel t x _ hs hb hn).2 (by show 511 < 0 + _; omega)
  unfold tdesBody
  exact ⟨u, by rw [q1, andThen_raised], q2, q3⟩

/-- A bit string starts with the bits of at most one tree. -/
theorem serBits_append_inj {t u : Tree} {x y : Bits} (h : t.serBits ++ x = u.serBits ++ y) : t = u ∧ x = y := by
  induction t generalizing u x y with
  | leaf v =>
    cases u with
    | leaf w =>
      simp only [Tree.serBits, List.cons_append, List.cons.injEq, true_and] at h
      obtain ⟨h1, h2⟩ := List.append_inj h rfl
      have := congrArg (fun b => b.foldl shiftIn 0#8) h1
      simp only [foldl_shiftIn_byteBits] at this
      exact ⟨by rw [this], h2⟩
    | node l r => simp [Tree.serBits] at h
  | node l r h1 h2 =>
    cases u with
    | leaf w => simp [Tree.serBits] at h
    | node l2 r2 =>
      simp only [Tree.serBits, List.cons_append, List.append_assoc, List.cons.injEq, true_and] at h
      obtain ⟨rfl, g⟩ := h1 h
      obtain ⟨rfl, g2⟩ := h2 g
      exact ⟨rfl, g2⟩

end Sys2Proof.Machine
end

