-- ==== Sys2Proof/Laws/Build.lean ====
section
/-! SUPPORT. `TBUILD`: the queue, the leaves, the merges, and the tree it leaves (`42_tree_builder.md` R140 to R149). -/

namespace Sys2Proof.Machine

/-! Keys. -/

theorem keyLess_iff (a b : Weight × Nat) : keyLess a b = true ↔ a.1 < b.1 ∨ (a.1 = b.1 ∧ a.2 < b.2) := by
  simp [keyLess]

theorem keyLess_trans {a b c : Weight × Nat} (h1 : keyLess a b = true) (h2 : keyLess b c = true) : keyLess a c = true := by
  rw [keyLess_iff] at *
  simp only [BitVec.lt_def, ← BitVec.toNat_inj] at *
  omega

theorem keyLess_total {a b : Weight × Nat} (h : keyLess a b = false) (hne : a.2 ≠ b.2) : keyLess b a = true := by
  have h' : ¬ keyLess a b = true := by rw [h]; decide
  rw [keyLess_iff] at *
  simp only [BitVec.lt_def, ← BitVec.toNat_inj] at *
  omega

/-- The least key of a part of the queue (`42_tree_builder.md` R143). -/
theorem leastKey_spec (i : Nat) (qs : List Bool) (ns : List NodeRec) (h : qs.length = ns.length) :
    match leastKey i qs ns with
    | none => ∀ j : Nat, qs[j]? ≠ some true
    | some (w, m) => i ≤ m ∧ qs[m - i]? = some true ∧ (∃ nd, ns[m - i]? = some nd ∧ nd.wt = w) ∧
        ∀ (j : Nat) (nd : NodeRec), qs[j]? = some true → ns[j]? = some nd → i + j ≠ m → keyLess (w, m) (nd.wt, i + j) = true := by
  induction qs generalizing i ns with
  | nil => cases ns <;> simp [leastKey]
  | cons q qs ih =>
    cases ns with
    | nil => simp at h
    | cons n ns =>
      have hi := ih (i + 1) ns (by simpa using h)
      unfold leastKey
      cases hk : leastKey (i + 1) qs ns with
      | none =>
        rw [hk] at hi; simp only at hi
        cases q with
        | false =>
          simp only [Bool.false_eq_true, if_false, lesserKey]
          intro j
          cases j with
          | zero => simp
          | succ j => simpa using hi j
        | true =>
          simp only [if_true, lesserKey]
          refine ⟨le_refl i, by simp, ⟨n, by simp⟩, ?_⟩
          intro j nd h1 h2 h3
          cases j with
          | zero => exact absurd rfl h3
          | succ j => exact absurd (by simpa using h1) (hi j)
      | some p =>
        obtain ⟨w, m⟩ := p
        rw [hk] at hi; simp only at hi
        obtain ⟨g1, g2, g3, g4⟩ := hi
        have e : m - i = (m - (i + 1)) + 1 := by omega
        have tail : i ≤ m ∧ (q :: qs)[m - i]? = some true ∧ (∃ nd, (n :: ns)[m - i]? = some nd ∧ nd.wt = w) :=
          ⟨by omega, by rw [e]; simpa using g2, by rw [e]; simpa using g3⟩
        cases q with
        | false =>
          simp only [Bool.false_eq_true, if_false, lesserKey]
          refine ⟨tail.1, tail.2.1, tail.2.2, ?_⟩
          intro j nd h1 h2 h3
          cases j with
          | zero => simp at h1
          | succ j =>
            have := g4 j nd (by simpa using h1) (by simpa using h2) (by omega)
            rwa [show i + 1 + j = i + (j + 1) by omega] at this
        | true =>
          simp only [if_true, lesserKey]
          cases hb : keyLess (w, m) (n.wt, i) with
          | true =>
            rw [if_pos rfl]
            refine ⟨tail.1, tail.2.1, tail.2.2, ?_⟩
            intro j nd h1 h2 h3
            cases j with
            | zero => simp at h2; subst h2; exact hb
            | succ j =>
              have := g4 j nd (by simpa using h1) (by simpa using h2) (by omega)
              rwa [show i + 1 + j = i + (j + 1) by omega] at this
          | false =>
            simp only [Bool.false_eq_true, if_false]
            have hlt : keyLess (n.wt, i) (w, m) = true := keyLess_total hb (by show m ≠ i; omega)
            refine ⟨le_refl i, by simp, ⟨n, by simp⟩, ?_⟩
            intro j nd h1 h2 h3
            cases j with
            | zero => exact absurd rfl h3
            | succ j =>
              by_cases hm : i + 1 + j = m
              · obtain ⟨nd', k1, k2⟩ := g3
                have : nd = nd' := by
                  rw [← hm, show i + 1 + j - (i + 1) = j by omega] at k1
                  have h2' : ns[j]? = some nd := by simpa using h2
                  exact Option.some.inj (h2'.symm.trans k1)
                rw [show i + (j + 1) = m by omega, this, k2]
                exact hlt
              · have := g4 j nd (by simpa using h1) (by simpa using h2) hm
                rw [show i + 1 + j = i + (j + 1) by omega] at this
                exact keyLess_trans hlt this

/-- A member of the queue. -/
def State.member (s : State) (i : Nat) : Prop := s.inq[i]? = some true

theorem member_lt {s : State} {i : Nat} (h : s.member i) : i < 511 := by
  by_contra hc
  unfold State.member at h
  rw [Vector.getElem?_eq_none (Nat.le_of_not_lt hc)] at h
  cases h

theorem minMember_spec (s : State) :
    match s.minMember with
    | none => ∀ j, ¬ s.member j
    | some m => s.member m ∧ ∃ nd, s.nodes[m]? = some nd ∧
        ∀ j nj, s.member j → s.nodes[j]? = some nj → j ≠ m → keyLess (nd.wt, m) (nj.wt, j) = true := by
  have h := leastKey_spec 0 s.inq.toList s.nodes.toList (by simp)
  unfold State.minMember State.member
  cases hk : leastKey 0 s.inq.toList s.nodes.toList with
  | none =>
    rw [hk] at h
    simpa using h
  | some p =>
    obtain ⟨w, m⟩ := p
    rw [hk] at h; simp only [Option.map_some] at h ⊢
    obtain ⟨-, g2, ⟨nd, g3, g4⟩, g5⟩ := h
    refine ⟨by simpa using g2, nd, by simpa using g3, ?_⟩
    intro j nj h1 h2 h3
    have := g5 j nj (by simpa using h1) (by simpa using h2) (by omega)
    rw [g4]
    simpa using this

theorem extractMin_some {s : State} {k : Nat} (h : s.member k) :
    ∃ m nd, s.extractMin = some (BitVec.ofNat 9 m, { s with inq := s.inq.setIfInBounds m false }) ∧ s.member m ∧
      s.nodes[m]? = some nd ∧ ∀ j nj, s.member j → s.nodes[j]? = some nj → j ≠ m → keyLess (nd.wt, m) (nj.wt, j) = true := by
  have hm := minMember_spec s
  unfold State.extractMin
  cases e : s.minMember with
  | none => rw [e] at hm; exact absurd h (hm k)
  | some m =>
    rw [e] at hm
    obtain ⟨h1, nd, h2, h3⟩ := hm
    exact ⟨m, nd, rfl, h1, h2, h3⟩

theorem member_remove {s : State} {m i : Nat} :
    ({ s with inq := s.inq.setIfInBounds m false } : State).member i ↔ s.member i ∧ i ≠ m := by
  unfold State.member
  simp only [Vector.getElem?_setIfInBounds]
  by_cases h : m = i
  · subst h; simp
  · simp [h, Ne.symm h]

theorem count_true_eq (l : List Bool) : l.count true = ((List.range l.length).filter (fun i => l[i]? == some true)).length := by
  have h : l = (List.range l.length).map (fun i => l.getD i false) := by
    apply List.ext_getElem
    · simp
    · intro n h1 h2; simp [List.getD_eq_getElem?_getD, h1]
  conv_lhs => rw [h]
  rw [List.count_eq_countP, List.countP_map, List.countP_eq_length_filter]
  congr 1
  apply List.filter_congr
  intro i hi
  have hl : i < l.length := by simpa using hi
  simp [List.getElem?_eq_getElem hl]

/-- The queue's size is the number of its members, however they are listed. -/
theorem queueSize_eq {s : State} {ms : List Nat} (hn : ms.Nodup) (hm : ∀ i, s.member i ↔ i ∈ ms) : s.queueSize = ms.length := by
  unfold State.queueSize
  rw [count_true_eq]
  apply List.Perm.length_eq
  rw [List.perm_ext_iff_of_nodup (List.nodup_range.filter _) hn]
  intro i
  rw [← hm, List.mem_filter, List.mem_range]
  constructor
  · rintro ⟨-, h⟩
    have : s.inq.toList[i]? = some true := by simpa using h
    show s.inq[i]? = some true
    simpa using this
  · intro h
    have hl := member_lt h
    refine ⟨by simpa using hl, ?_⟩
    have : s.inq[i]? = some true := h
    have h2 : s.inq.toList[i]? = some true := by simpa using this
    simp [h2]

/-! Trees with their indices. -/

/-- A tree that remembers the arena index of each node. -/
inductive ITree where
  | leaf (i : Nat) (v : Byte)
  | node (i : Nat) (l r : ITree)

def ITree.idx : ITree → Nat
  | .leaf i _ => i
  | .node i _ _ => i

def ITree.idxs : ITree → List Nat
  | .leaf i _ => [i]
  | .node i l r => i :: (l.idxs ++ r.idxs)

def ITree.erase : ITree → Tree
  | .leaf _ v => .leaf v
  | .node _ l r => .node l.erase r.erase

/-- The arena holds the tree. -/
def ITree.ok (nodes : Vector NodeRec 511) : ITree → Prop
  | .leaf i v => ∃ nd, nodes[i]? = some nd ∧ nd.leaf = true ∧ nd.val = v
  | .node i l r => (∃ w, nodes[i]? = some (innerRec w (BitVec.ofNat 9 l.idx) (BitVec.ofNat 9 r.idx))) ∧ l.ok nodes ∧ r.ok nodes

@[simp] theorem idx_node (i : Nat) (l r : ITree) : (ITree.node i l r).idx = i := rfl

theorem idx_mem (t : ITree) : t.idx ∈ t.idxs := by cases t <;> simp [ITree.idx, ITree.idxs]

theorem ok_congr {a b : Vector NodeRec 511} {t : ITree} (h : ∀ i ∈ t.idxs, b[i]? = a[i]?) (ho : t.ok a) : t.ok b := by
  induction t with
  | leaf i v => obtain ⟨nd, h1, h2⟩ := ho; exact ⟨nd, by rw [h i (by simp [ITree.idxs])]; exact h1, h2⟩
  | node i l r h1 h2 =>
    obtain ⟨⟨w, g1⟩, g2, g3⟩ := ho
    refine ⟨⟨w, by rw [h i (by simp [ITree.idxs])]; exact g1⟩, h1 (fun j hj => h j ?_) g2, h2 (fun j hj => h j ?_) g3⟩ <;>
      simp [ITree.idxs, hj]

theorem idxs_length (t : ITree) : t.idxs.length = t.erase.nodeCount := by
  induction t with
  | leaf i v => rfl
  | node i l r h1 h2 => simp only [ITree.idxs, ITree.erase, Tree.nodeCount, List.length_cons, List.length_append]; omega

theorem ok_treeAt {s : State} {t : ITree} (ho : t.ok s.nodes) (hi : ∀ i ∈ t.idxs, i < s.ncnt.val) :
    s.treeAt (t.erase.depth + 1) (BitVec.ofNat 9 t.idx) = some t.erase := by
  induction t with
  | leaf i v =>
    obtain ⟨nd, h1, h2, rfl⟩ := ho
    exact treeAt_leaf (node_of_get h1 (hi i (by simp [ITree.idxs]))) h2
  | node i l r h1 h2 =>
    obtain ⟨⟨w, g1⟩, g2, g3⟩ := ho
    refine treeAt_node (node_of_get g1 (hi i (by simp [ITree.idxs]))) rfl ?_ ?_
    · exact treeAt_mono (h1 g2 (fun j hj => hi j (by simp [ITree.idxs, hj]))) (by simp only [ITree.erase, Tree.depth]; omega)
    · exact treeAt_mono (h2 g3 (fun j hj => hi j (by simp [ITree.idxs, hj]))) (by simp only [ITree.erase, Tree.depth]; omega)

theorem ok_visit {s : State} {t : ITree} {n : Nat} (ho : t.ok s.nodes) (hi : ∀ i ∈ t.idxs, i < s.ncnt.val) (hn : t.erase.depth < n) :
    s.visit n (BitVec.ofNat 9 t.idx) = some (t.idxs.map (BitVec.ofNat 9)) := by
  induction t generalizing n with
  | leaf i v =>
    obtain ⟨n, rfl⟩ : ∃ m, n = m + 1 := ⟨n - 1, by omega⟩
    obtain ⟨nd, h1, h2, rfl⟩ := ho
    unfold State.visit
    have : s.node (BitVec.ofNat 9 (ITree.leaf i nd.val).idx) = some nd := node_of_get h1 (hi i (by simp [ITree.idxs]))
    rw [this]; simp only [h2, if_true]; rfl
  | node i l r h1 h2 =>
    obtain ⟨n, rfl⟩ : ∃ m, n = m + 1 := ⟨n - 1, by omega⟩
    obtain ⟨⟨w, g1⟩, g2, g3⟩ := ho
    simp only [ITree.erase, Tree.depth] at hn
    unfold State.visit
    have : s.node (BitVec.ofNat 9 (ITree.node i l r).idx) = some (innerRec w (BitVec.ofNat 9 l.idx) (BitVec.ofNat 9 r.idx)) :=
      node_of_get g1 (hi i (by simp [ITree.idxs]))
    rw [this]
    simp only [innerRec, Bool.false_eq_true, if_false]
    rw [h1 g2 (fun j hj => hi j (by simp [ITree.idxs, hj])) (by omega), h2 g3 (fun j hj => hi j (by simp [ITree.idxs, hj])) (by omega)]
    simp [ITree.idxs, ITree.idx]

/-- Every index below the root is a child of another. -/
theorem idxs_child {nodes : Vector NodeRec 511} {t : ITree} (ho : t.ok nodes) {k : Nat} (hk : k ∈ t.idxs) :
    k = t.idx ∨ ∃ j ∈ t.idxs, ∃ nj, nodes[j]? = some nj ∧ nj.leaf = false ∧ (nj.left = BitVec.ofNat 9 k ∨ nj.right = BitVec.ofNat 9 k) := by
  induction t with
  | leaf i v => left; simpa [ITree.idxs, ITree.idx] using hk
  | node i l r h1 h2 =>
    obtain ⟨⟨w, g1⟩, g2, g3⟩ := ho
    simp only [ITree.idxs, List.mem_cons, List.mem_append] at hk
    rcases hk with rfl | hk | hk
    · left; rfl
    · right
      rcases h1 g2 hk with rfl | ⟨j, hj, q⟩
      · exact ⟨i, by simp [ITree.idxs], _, g1, rfl, .inl rfl⟩
      · exact ⟨j, by simp [ITree.idxs, hj], q⟩
    · right
      rcases h2 g3 hk with rfl | ⟨j, hj, q⟩
      · exact ⟨i, by simp [ITree.idxs], _, g1, rfl, .inr rfl⟩
      · exact ⟨j, by simp [ITree.idxs, hj], q⟩

/-! The arena while `TBUILD` runs. -/

/-- An internal entry as a merge writes it: the two least of the entries that were no one's child (R143, R144). -/
def merged (nodes : Vector NodeRec 511) (i : Nat) : Prop :=
  ∃ l r nl nr, nodes[l]? = some nl ∧ nodes[r]? = some nr ∧ l < i ∧ r < i ∧ keyLess (nl.wt, l) (nr.wt, r) = true ∧
    nodes[i]? = some (innerRec (nl.wt + nr.wt) (BitVec.ofNat 9 l) (BitVec.ofNat 9 r)) ∧
    ∀ k nk, k < i → nodes[k]? = some nk →
      (∀ j nj, j ≤ i → nodes[j]? = some nj → nj.leaf = false → nj.left ≠ BitVec.ofNat 9 k ∧ nj.right ≠ BitVec.ofNat 9 k) →
      keyLess (nr.wt, r) (nk.wt, k) = true

theorem merged_congr {a b : Vector NodeRec 511} {i : Nat} (h : ∀ j, j ≤ i → b[j]? = a[j]?) (hm : merged a i) : merged b i := by
  obtain ⟨l, r, nl, nr, h1, h2, h3, h4, h5, h6, h7⟩ := hm
  refine ⟨l, r, nl, nr, by rw [h l (by omega)]; exact h1, by rw [h r (by omega)]; exact h2, h3, h4, h5,
    by rw [h i (le_refl i)]; exact h6, ?_⟩
  intro k nk hk hn hc
  refine h7 k nk hk (by rw [← h k (by omega)]; exact hn) ?_
  intro j nj hj hnj
  exact hc j nj hj (by rw [h j hj]; exact hnj)

/-- The forest invariant of the merge loop. -/
structure BuildInv (leaves : List (Byte × Count)) (s : State) (F : List ITree) : Prop where
  nodup : (F.map ITree.idx).Nodup
  mem : ∀ i, s.member i ↔ i ∈ F.map ITree.idx
  ok : ∀ t ∈ F, t.ok s.nodes
  cover : (F.flatMap ITree.idxs).Perm (List.range s.ncnt.val)
  values : (F.flatMap fun t => t.erase.leaves).Perm (leaves.map Prod.fst)
  size : s.ncnt.val + F.length = 2 * leaves.length
  few : leaves.length ≤ 256
  enough : leaves.length ≤ s.ncnt.val
  entries : ∀ (k : Nat) (p : Byte × Count), leaves[k]? = some p → s.nodes[k]? = some (leafRec p.1 (p.2.setWidth 40))
  inner : ∀ i, leaves.length ≤ i → i < s.ncnt.val → merged s.nodes i
  sum : (F.map fun t => (s.weight (BitVec.ofNat 9 t.idx)).toNat).sum = (leaves.map fun p => p.2.toNat).sum

theorem leafSum_lt {leaves : List (Byte × Count)} (h : leaves.length ≤ 256) : (leaves.map fun p => p.2.toNat).sum < 2 ^ 40 := by
  have : (leaves.map fun p => p.2.toNat).sum ≤ leaves.length * (2 ^ 32 - 1) := by
    clear h
    induction leaves with
    | nil => simp
    | cons p l ih =>
      have := p.2.isLt
      simp only [List.map_cons, List.sum_cons, List.length_cons]
      rw [Nat.add_mul]
      omega
  omega

theorem BuildInv.lt {leaves : List (Byte × Count)} {s : State} {F : List ITree} (h : BuildInv leaves s F) {t : ITree} (ht : t ∈ F) {i : Nat}
    (hi : i ∈ t.idxs) : i < s.ncnt.val := by
  have : i ∈ F.flatMap ITree.idxs := List.mem_flatMap.mpr ⟨t, ht, hi⟩
  simpa using h.cover.mem_iff.mp this

theorem BuildInv.perm {leaves : List (Byte × Count)} {s : State} {F G : List ITree} (h : BuildInv leaves s F) (hp : F.Perm G) :
    BuildInv leaves s G where
  nodup := (hp.map _).nodup_iff.mp h.nodup
  mem i := by rw [h.mem]; exact (hp.map _).mem_iff
  ok t ht := h.ok t (hp.mem_iff.mpr ht)
  cover := (hp.flatMap_right _).symm.trans h.cover
  values := (hp.flatMap_right _).symm.trans h.values
  size := by rw [← hp.length_eq]; exact h.size
  few := h.few
  enough := h.enough
  entries := h.entries
  inner := h.inner
  sum := by rw [← h.sum]; exact (hp.map _).sum_eq.symm

theorem insertNode_get (s : State) (n : NodeRec) (k : Nat) :
    (s.insertNode n).nodes[k]? = if k = s.ncnt.val ∧ k < 511 then some n else s.nodes[k]? := by
  have := setNode_get s s.nextIdx n k
  rw [nextIdx_toNat] at this
  exact this

theorem insertNode_member (s : State) (n : NodeRec) (h : s.ncnt.val < 511) (i : Nat) :
    (s.insertNode n).member i ↔ s.member i ∨ i = s.ncnt.val := by
  unfold State.member State.insertNode
  simp only [Vector.getElem?_setIfInBounds]
  by_cases hi : s.ncnt.val = i
  · subst hi; simp [h]
  · simp [hi, Ne.symm hi]

theorem insertNode_next {s : State} {n : NodeRec} (h : s.ncnt.val < 511) : (s.insertNode n).ncnt.val = s.ncnt.val + 1 := by
  have hh : s.ncnt.val ≠ 511 := by omega
  exact allocNode_next (s := s) hh

theorem weight_of_get {s : State} {k : Nat} {nd : NodeRec} (hk : k < 511) (h : s.nodes[k]? = some nd) :
    s.weight (BitVec.ofNat 9 k) = nd.wt := by
  have : (BitVec.ofNat 9 k).toNat = k := by simp only [BitVec.toNat_ofNat]; omega
  unfold State.weight
  rw [this, h]; rfl

/-- What the merge loop may change. -/
def State.buildFrame (s u : State) : Prop := u = { s with nodes := u.nodes, ncnt := u.ncnt, inq := u.inq }

theorem buildFrame_trans {s u w : State} (h1 : s.buildFrame u) (h2 : u.buildFrame w) : s.buildFrame w := by
  unfold State.buildFrame at *; rw [h2, h1]

/-- One merge. -/
theorem merge_step {leaves : List (Byte × Count)} {s : State} {F : List ITree} (h : BuildInv leaves s F) (h2 : 2 ≤ F.length) :
    ∃ a s1 b s2 G, s.extractMin = some (a, s1) ∧ s1.extractMin = some (b, s2) ∧ BuildInv leaves (s2.mergeNodes a b) G ∧
      G.length + 1 = F.length ∧ s.buildFrame (s2.mergeNodes a b) := by
  have hfew := h.few
  have hsize := h.size
  have hncnt : s.ncnt.val < 511 := by omega
  -- the first member
  obtain ⟨t0, ht0⟩ : ∃ t, t ∈ F := by
    cases F with
    | nil => simp at h2
    | cons t F => exact ⟨t, by simp⟩
  obtain ⟨m, nm, e1, hm1, hm2, hm3⟩ := extractMin_some ((h.mem _).mpr (List.mem_map_of_mem (f := ITree.idx) ht0))
  obtain ⟨ta, hta, hia⟩ := List.mem_map.mp ((h.mem m).mp hm1)
  obtain ⟨A, B, hAB⟩ := List.append_of_mem hta
  have hp1 : F.Perm (ta :: (A ++ B)) := by rw [hAB]; exact List.perm_middle
  have hI1 := h.perm hp1
  have hn1 := hI1.nodup
  simp only [List.map_cons, List.nodup_cons] at hn1
  -- the second member
  have hs1 : ∀ i, ({ s with inq := s.inq.setIfInBounds m false } : State).member i ↔ i ∈ (A ++ B).map ITree.idx := by
    intro i
    rw [member_remove, hI1.mem, List.map_cons, List.mem_cons, hia]
    constructor
    · rintro ⟨rfl | hi, hne⟩
      · exact absurd rfl hne
      · exact hi
    · intro hi
      exact ⟨.inr hi, fun e => hn1.1 (by rw [hia, ← e]; exact hi)⟩
  obtain ⟨t1, ht1⟩ : ∃ t, t ∈ A ++ B := by
    have hl := hp1.length_eq
    cases hC : A ++ B with
    | nil => rw [hC] at hl; simp at hl; omega
    | cons t C => exact ⟨t, by simp⟩
  obtain ⟨m2, n2, e2, hm21, hm22, hm23⟩ := extractMin_some ((hs1 _).mpr (List.mem_map_of_mem (f := ITree.idx) ht1))
  obtain ⟨tb, htb, hib⟩ := List.mem_map.mp ((hs1 m2).mp hm21)
  obtain ⟨C, D, hCD⟩ := List.append_of_mem htb
  have hp2 : F.Perm (ta :: tb :: (C ++ D)) := hp1.trans (List.Perm.cons _ (by rw [hCD]; exact List.perm_middle))
  have hI := h.perm hp2
  generalize C ++ D = F2 at hp2 hI
  have hn2 := hI.nodup
  simp only [List.map_cons, List.nodup_cons, List.mem_cons, not_or, hia, hib] at hn2
  obtain ⟨⟨hmm, hm_not⟩, hm2_not, hnd⟩ := hn2
  have hmlt : m < s.ncnt.val := by rw [← hia]; exact h.lt hta (idx_mem ta)
  have hm2lt : m2 < s.ncnt.val := by rw [← hib]; exact hI.lt (by simp) (idx_mem tb)
  have hm2s : s.member m2 := (member_remove.mp hm21).1
  have hmin : keyLess (nm.wt, m) (n2.wt, m2) = true := hm3 m2 n2 hm2s hm22 (Ne.symm hmm)
  -- the state after the two extractions
  refine ⟨BitVec.ofNat 9 m, _, BitVec.ofNat 9 m2, _, .node s.ncnt.val ta tb :: F2, e1, e2, ?_, ?_, rfl⟩
  · have hs2 : ∀ i, ({ ({ s with inq := s.inq.setIfInBounds m false } : State) with
        inq := ({ s with inq := s.inq.setIfInBounds m false } : State).inq.setIfInBounds m2 false } : State).member i ↔
        i ∈ F2.map ITree.idx := by
      intro i
      rw [member_remove, member_remove, hI.mem, List.map_cons, List.map_cons, List.mem_cons, List.mem_cons, hia, hib]
      constructor
      · rintro ⟨⟨rfl | rfl | hi, h3⟩, h4⟩
        · exact absurd rfl h3
        · exact absurd rfl h4
        · exact hi
      · intro hi
        exact ⟨⟨.inr (.inr hi), fun e => hm_not (by rw [← e]; exact hi)⟩, fun e => hm2_not (by rw [← e]; exact hi)⟩
    generalize hgs : ({ ({ s with inq := s.inq.setIfInBounds m false } : State) with
        inq := ({ s with inq := s.inq.setIfInBounds m false } : State).inq.setIfInBounds m2 false } : State) = s2 at hs2
    have hnodes : s2.nodes = s.nodes := by rw [← hgs]
    have hncnt2 : s2.ncnt = s.ncnt := by rw [← hgs]
    have hwa : s2.weight (BitVec.ofNat 9 m) = nm.wt := weight_of_get (by omega) (by rw [hnodes]; exact hm2)
    have hwb : s2.weight (BitVec.ofNat 9 m2) = n2.wt := weight_of_get (by omega) (by rw [hnodes]; exact hm22)
    have hwa' : s.weight (BitVec.ofNat 9 m) = nm.wt := weight_of_get (by omega) hm2
    have hwb' : s.weight (BitVec.ofNat 9 m2) = n2.wt := weight_of_get (by omega) hm22
    have hget : ∀ k, (s2.mergeNodes (BitVec.ofNat 9 m) (BitVec.ofNat 9 m2)).nodes[k]? =
        if k = s.ncnt.val then some (innerRec (nm.wt + n2.wt) (BitVec.ofNat 9 m) (BitVec.ofNat 9 m2)) else s.nodes[k]? := by
      intro k
      unfold State.mergeNodes
      rw [insertNode_get, hncnt2, hwa, hwb, hnodes]
      by_cases hk : k = s.ncnt.val
      · rw [if_pos hk, if_pos ⟨hk, by omega⟩]
      · rw [if_neg hk, if_neg (fun c => hk c.1)]
    have hgetlt : ∀ k, k < s.ncnt.val → (s2.mergeNodes (BitVec.ofNat 9 m) (BitVec.ofNat 9 m2)).nodes[k]? = s.nodes[k]? := by
      intro k hk; rw [hget, if_neg (by omega)]
    have hgeteq : (s2.mergeNodes (BitVec.ofNat 9 m) (BitVec.ofNat 9 m2)).nodes[s.ncnt.val]? =
        some (innerRec (nm.wt + n2.wt) (BitVec.ofNat 9 m) (BitVec.ofNat 9 m2)) := by rw [hget, if_pos rfl]
    have hcnt : (s2.mergeNodes (BitVec.ofNat 9 m) (BitVec.ofNat 9 m2)).ncnt.val = s.ncnt.val + 1 := by
      have := insertNode_next (s := s2) (n := innerRec (s2.weight (BitVec.ofNat 9 m) + s2.weight (BitVec.ofNat 9 m2))
        (BitVec.ofNat 9 m) (BitVec.ofNat 9 m2)) (by rw [hncnt2]; exact hncnt)
      rw [hncnt2] at this
      exact this
    have hokc : ∀ t ∈ (ta :: tb :: F2), t.ok (s2.mergeNodes (BitVec.ofNat 9 m) (BitVec.ofNat 9 m2)).nodes :=
      fun t ht => ok_congr (fun i hi => hgetlt i (hI.lt ht hi)) (hI.ok t ht)
    have hsum := hI.sum
    simp only [List.map_cons, List.sum_cons, hia, hib, hwa', hwb'] at hsum
    have hbound := leafSum_lt hfew
    have hwnew : (nm.wt + n2.wt).toNat = nm.wt.toNat + n2.wt.toNat := by
      rw [BitVec.toNat_add]
      show (nm.wt.toNat + n2.wt.toNat) % 2 ^ 40 = _
      omega
    have hFlen := hp2.length_eq
    simp only [List.length_cons] at hFlen
    exact {
      nodup := by
        simp only [List.map_cons, List.nodup_cons]
        refine ⟨fun hc => ?_, hnd⟩
        obtain ⟨t, ht, hti⟩ := List.mem_map.mp hc
        have := hI.lt (t := t) (by simp [ht]) (idx_mem t)
        rw [idx_node] at hti
        omega
      mem := by
        intro i
        unfold State.mergeNodes
        rw [insertNode_member _ _ (by rw [hncnt2]; exact hncnt), hs2, hncnt2, List.map_cons, List.mem_cons]
        exact or_comm
      ok := by
        intro t ht
        rcases List.mem_cons.mp ht with rfl | ht
        · exact ⟨⟨_, by rw [hia, hib]; exact hgeteq⟩, hokc ta (by simp), hokc tb (by simp)⟩
        · exact hokc t (by simp [ht])
      cover := by
        rw [hcnt, List.range_succ]
        have := hI.cover
        simp only [List.flatMap_cons, ITree.idxs, List.cons_append, List.append_assoc] at this ⊢
        exact (this.cons _).trans (List.perm_append_singleton _ _).symm
      values := by
        have := hI.values
        simpa only [List.flatMap_cons, ITree.erase, Tree.leaves, List.append_assoc] using this
      size := by rw [hcnt, List.length_cons]; omega
      few := hfew
      enough := by rw [hcnt]; have := h.enough; omega
      entries := by
        intro k p hk
        have hkl : k < leaves.length := by
          by_contra hc
          rw [List.getElem?_eq_none (Nat.le_of_not_lt hc)] at hk
          cases hk
        have := h.enough
        rw [hgetlt k (by omega)]
        exact h.entries k p hk
      inner := by
        intro i hi1 hi2
        rw [hcnt] at hi2
        by_cases hi : i < s.ncnt.val
        · exact merged_congr (fun j hj => hgetlt j (by omega)) (h.inner i hi1 hi)
        · obtain rfl : i = s.ncnt.val := by omega
          refine ⟨m, m2, nm, n2, by rw [hgetlt m hmlt]; exact hm2, by rw [hgetlt m2 hm2lt]; exact hm22, hmlt, hm2lt, hmin, hgeteq, ?_⟩
          intro k nk hk hnk hch
          rw [hgetlt k hk] at hnk
          have hmem : k ∈ F.flatMap ITree.idxs := h.cover.mem_iff.mpr (by simpa using hk)
          obtain ⟨t, ht, hkt⟩ := List.mem_flatMap.mp hmem
          have hroot : k = t.idx := by
            rcases idxs_child (h.ok t ht) hkt with hr | ⟨j, hj, nj, q1, q2, q3⟩
            · exact hr
            · have hjl := h.lt ht hj
              obtain ⟨c1, c2⟩ := hch j nj (by omega) (by rw [hgetlt j hjl]; exact q1) q2
              rcases q3 with q3 | q3
              · exact absurd q3 c1
              · exact absurd q3 c2
          have hks : s.member k := (h.mem k).mpr (by rw [hroot]; exact List.mem_map_of_mem ht)
          obtain ⟨c1, c2⟩ := hch s.ncnt.val _ (le_refl _) hgeteq rfl
          have hk1 : k ≠ m := fun e => c1 (by rw [e]; rfl)
          have hk2 : k ≠ m2 := fun e => c2 (by rw [e]; rfl)
          exact hm23 k nk (member_remove.mpr ⟨hks, hk1⟩) hnk hk2
      sum := by
        rw [← hsum]
        simp only [List.map_cons, List.sum_cons, idx_node]
        rw [weight_of_get hncnt hgeteq]
        have hrest : F2.map (fun t => ((s2.mergeNodes (BitVec.ofNat 9 m) (BitVec.ofNat 9 m2)).weight (BitVec.ofNat 9 t.idx)).toNat) =
            F2.map (fun t => (s.weight (BitVec.ofNat 9 t.idx)).toNat) := by
          apply List.map_congr_left
          intro t ht
          have hlt := hI.lt (t := t) (by simp [ht]) (idx_mem t)
          have h9 : (BitVec.ofNat 9 t.idx).toNat = t.idx := by simp only [BitVec.toNat_ofNat]; omega
          unfold State.weight
          rw [h9, hgetlt _ hlt]
        rw [hrest]
        show (nm.wt + n2.wt).toNat + _ = _
        rw [hwnew]; omega }
  · have := hp2.length_eq
    simp only [List.length_cons] at this ⊢
    omega

/-- The merge loop leaves one tree. -/
theorem mergeLoop_spec {leaves : List (Byte × Count)} (n : Nat) {s : State} {F : List ITree} (h : BuildInv leaves s F) (h1 : F ≠ [])
    (hn : F.length ≤ n + 1) : ∃ u t, mergeLoop n s = .ok u ∧ BuildInv leaves u [t] ∧ s.buildFrame u := by
  have single : F.length = 1 → ∃ t, F = [t] := fun h => List.length_eq_one_iff.mp h
  have hpos : 0 < F.length := List.length_pos_of_ne_nil h1
  induction n generalizing s F with
  | zero =>
    obtain ⟨t, rfl⟩ := single (by omega)
    exact ⟨s, t, rfl, h, rfl⟩
  | succ n ih =>
    have hq : s.queueSize = F.length := by
      rw [queueSize_eq h.nodup h.mem, List.length_map]
    unfold mergeLoop
    rw [hq]
    by_cases h2 : 2 ≤ F.length
    · rw [if_pos h2]
      obtain ⟨a, s1, b, s2, G, e1, e2, hG, hl, hf⟩ := merge_step h h2
      rw [e1]; simp only
      rw [e2]; simp only
      have hGne : G ≠ [] := fun e => by rw [e] at hl; simp at hl; omega
      obtain ⟨u, t, k1, k2, k3⟩ := ih hG hGne (by omega) (fun h => List.length_eq_one_iff.mp h) (by omega)
      exact ⟨u, t, k1, k2, buildFrame_trans hf k3⟩
    · rw [if_neg h2]
      obtain ⟨t, rfl⟩ := single (by omega)
      exact ⟨s, t, rfl, h, rfl⟩

/-! The leaves. -/

/-- The byte values below `k` that are present, ascending. -/
def State.presentBelow (s : State) (k : Nat) : List Byte :=
  ((List.range k).map (BitVec.ofNat 8)).filter (fun v => decide (0#32 < s.count v))

theorem presentBelow_length (s : State) (k : Nat) : (s.presentBelow k).length ≤ k := by
  have := List.length_filter_le (fun v => decide (0#32 < s.count v)) ((List.range k).map (BitVec.ofNat 8))
  simpa [State.presentBelow] using this

theorem addLeaves_spec (s : State) (h0 : s.ncnt.val = 0) (hq : ∀ i, ¬ s.member i) (k : Nat) (hk : k ≤ 256) :
    (s.addLeaves k).ncnt.val = (s.presentBelow k).length ∧
    (∀ (j : Nat) (v : Byte), (s.presentBelow k)[j]? = some v →
      (s.addLeaves k).nodes[j]? = some (leafRec v ((s.count v).setWidth 40))) ∧
    (∀ i, (s.addLeaves k).member i ↔ i < (s.presentBelow k).length) ∧ s.buildFrame (s.addLeaves k) := by
  induction k with
  | zero => exact ⟨h0, fun j v hj => by simp [State.presentBelow] at hj, fun i => by simp [State.presentBelow, State.addLeaves, hq], rfl⟩
  | succ k ih =>
    obtain ⟨g1, g2, g3, g4⟩ := ih (by omega)
    have hlen := presentBelow_length s k
    have hcount : ∀ v, (s.addLeaves k).count v = s.count v := fun v => by rw [g4]; rfl
    have hsplit : s.presentBelow (k + 1) =
        s.presentBelow k ++ (if 0#32 < s.count (BitVec.ofNat 8 k) then [BitVec.ofNat 8 k] else []) := by
      unfold State.presentBelow
      rw [List.range_succ, List.map_append, List.filter_append]
      congr 1
      simp only [List.map_cons, List.map_nil, List.filter_cons, List.filter_nil, decide_eq_true_eq]
    unfold State.addLeaves State.addLeaf
    rw [hsplit, hcount]
    by_cases hc : 0#32 < s.count (BitVec.ofNat 8 k)
    · rw [if_pos hc, if_pos hc]
      refine ⟨?_, ?_, ?_, ?_⟩
      · rw [insertNode_next (by omega), g1]; simp
      · intro j v hj
        rw [insertNode_get, g1]
        by_cases hjl : j = (s.presentBelow k).length
        · rw [if_pos ⟨hjl, by omega⟩]
          rw [hjl] at hj
          simp at hj
          rw [hj]
        · rw [if_neg (fun c => hjl c.1)]
          refine g2 j v ?_
          have hlt : j < (s.presentBelow k).length := by
            by_contra hc2
            rw [List.getElem?_eq_none (by simp; omega)] at hj
            cases hj
          rwa [List.getElem?_append_left hlt] at hj
      · intro i
        rw [insertNode_member _ _ (by omega), g3, g1]
        simp; omega
      · exact buildFrame_trans g4 rfl
    · rw [if_neg hc, if_neg hc, List.append_nil]
      exact ⟨g1, g2, g3, g4⟩

theorem present_eq (s : State) : s.present = s.presentBelow 256 := rfl

theorem mem_present {s : State} {v : Byte} : v ∈ s.present ↔ s.count v ≠ 0#32 := by
  unfold State.present
  simp only [List.mem_filter, List.mem_map, List.mem_range, decide_eq_true_eq]
  constructor
  · rintro ⟨-, h⟩ e; rw [e] at h; exact absurd h (by decide)
  · intro h
    refine ⟨⟨v.toNat, v.isLt, by simp⟩, ?_⟩
    rw [BitVec.lt_def]
    have : (s.count v).toNat ≠ 0 := fun e => h (BitVec.eq_of_toNat_eq e)
    show 0 < _
    omega

theorem present_nodup (s : State) : s.present.Nodup := by
  refine List.Nodup.filter _ ?_
  refine List.Nodup.map_on ?_ List.nodup_range
  intro a ha b hb hab
  have := congrArg BitVec.toNat hab
  simp only [List.mem_range] at ha hb
  simp only [BitVec.toNat_ofNat] at this
  omega

/-- The leaves with their counts. -/
def State.leafCounts (s : State) : List (Byte × Count) := s.present.map fun v => (v, s.count v)

/-- What `TBUILD` starts from. -/
def State.freshBuild (s : State) : State := ({ s.clearTreeValid with ncnt := 0 } : State).clearQueue

theorem plantLeaves_spec (s : State) :
    BuildInv s.leafCounts s.plantLeaves ((List.range s.present.length).map fun i => .leaf i (s.present.getD i 0#8)) ∧
    s.plantLeaves.ncnt.val = s.present.length ∧ s.freshBuild.buildFrame s.plantLeaves := by
  have hq : ∀ i, ¬ s.freshBuild.member i := by
    intro i h
    have hl := member_lt h
    have h' : (Vector.replicate 511 false)[i]? = some true := h
    rw [Vector.getElem?_eq_getElem hl] at h'
    simp at h'
  obtain ⟨g1, g2, g3, g4⟩ := addLeaves_spec s.freshBuild rfl hq 256 (le_refl _)
  have hplant : s.freshBuild.addLeaves 256 = s.plantLeaves := by unfold State.plantLeaves State.freshBuild; rfl
  have hpres : s.freshBuild.presentBelow 256 = s.present := by unfold State.presentBelow State.present; rfl
  have hcnt : s.freshBuild.count = s.count := rfl
  rw [hplant, hpres] at g1 g3
  rw [hplant, hpres, hcnt] at g2
  rw [hplant] at g4
  have hlen : s.present.length ≤ 256 := presentBelow_length s 256
  have hidx : (List.map (fun i => ITree.leaf i (s.present.getD i 0#8)) (List.range s.present.length)).map ITree.idx =
      List.range s.present.length := by
    rw [List.map_map]
    exact (List.map_congr_left (fun i _ => rfl)).trans (List.map_id _)
  have hget : ∀ i, i < s.present.length → s.present[i]? = some (s.present.getD i 0#8) := by
    intro i hi
    simp [List.getD_eq_getElem?_getD, hi]
  refine ⟨?_, g1, g4⟩
  exact {
    nodup := by rw [hidx]; exact List.nodup_range
    mem := by intro i; rw [hidx, g3, List.mem_range]
    ok := by
      intro t ht
      obtain ⟨i, hi, rfl⟩ := List.mem_map.mp ht
      exact ⟨_, g2 i _ (hget i (List.mem_range.mp hi)), rfl, rfl⟩
    cover := by
      rw [g1, List.flatMap_map]
      simp [ITree.idxs]
    values := by
      rw [List.flatMap_map]
      simp only [ITree.erase, Tree.leaves, State.leafCounts, List.map_map]
      have e1 : (List.range s.present.length).flatMap (fun i => [s.present.getD i 0#8]) =
          (List.range s.present.length).map (fun i => s.present.getD i 0#8) := by
        induction List.range s.present.length with
        | nil => rfl
        | cons a l ih => rw [List.flatMap_cons, ih]; rfl
      rw [e1]
      have e2 : (List.range s.present.length).map (fun i => s.present.getD i 0#8) = s.present := by
        apply List.ext_getElem
        · simp
        · intro n h1 h2; simp [List.getD_eq_getElem?_getD, h2]
      rw [e2]
      have e3 : s.present.map (Prod.fst ∘ fun v => (v, s.count v)) = s.present :=
        (List.map_congr_left (fun v _ => rfl)).trans (List.map_id _)
      rw [e3]
    size := by
      rw [g1]; simp [State.leafCounts]; omega
    few := by simpa [State.leafCounts] using hlen
    enough := by rw [g1]; simp [State.leafCounts]
    entries := by
      intro k p hk
      simp only [State.leafCounts, List.getElem?_map, Option.map_eq_some_iff] at hk
      obtain ⟨v, hv, rfl⟩ := hk
      exact g2 k v hv
    inner := by
      intro i h1 h2
      rw [g1] at h2
      simp [State.leafCounts] at h1
      omega
    sum := by
      rw [List.map_map]
      have e : (List.range s.present.length).map
          ((fun t => (s.plantLeaves.weight (BitVec.ofNat 9 t.idx)).toNat) ∘ fun i => ITree.leaf i (s.present.getD i 0#8)) =
          (List.range s.present.length).map (fun i => (s.count (s.present.getD i 0#8)).toNat) := by
        apply List.map_congr_left
        intro i hi
        have hi' := List.mem_range.mp hi
        show (s.plantLeaves.weight (BitVec.ofNat 9 i)).toNat = _
        rw [weight_of_get (by omega) (g2 i _ (hget i hi'))]
        simp only [leafRec, BitVec.toNat_setWidth]
        have := (s.count (s.present.getD i 0#8)).isLt
        omega
      rw [e]
      have e2 : (List.range s.present.length).map (fun i => (s.count (s.present.getD i 0#8)).toNat) =
          s.present.map (fun v => (s.count v).toNat) := by
        apply List.ext_getElem
        · simp
        · intro n h1 h2
          have h3 : n < s.present.length := by simpa using h2
          simp [List.getD_eq_getElem?_getD, h3]
      rw [e2, State.leafCounts, List.map_map]
      rfl }

/-- `TBUILD` with a count: the arena, the tree and the frame. -/
theorem tbuildBody_ok (s : State) (h : ∃ v, s.count v ≠ 0#32) :
    ∃ (u : State) (t : ITree), tbuildBody s = .ok u ∧ u.root = BitVec.ofNat 9 t.idx ∧ t.idx + 1 = u.ncnt.val ∧ u.pos = u.root ∧ u.tv = true ∧ u.cv = false ∧
      u.inq = Vector.replicate 511 false ∧ t.ok u.nodes ∧ t.idxs.Perm (List.range u.ncnt.val) ∧ t.erase.leaves.Perm s.present ∧
      u.ncnt.val + 1 = 2 * s.present.length ∧ s.present.length ≤ 256 ∧
      (∀ (k : Nat) (v : Byte), s.present[k]? = some v → u.nodes[k]? = some (leafRec v ((s.count v).setWidth 40))) ∧
      (∀ i, s.present.length ≤ i → i < u.ncnt.val → merged u.nodes i) ∧
      (∃ n, u.nodes[t.idx]? = some n ∧ n.wt.toNat = (s.present.map fun v => (s.count v).toNat).sum) ∧
      u = { s with nodes := u.nodes, ncnt := u.ncnt, root := u.root, pos := u.pos, tv := u.tv, cv := u.cv, inq := u.inq } := by
  obtain ⟨hI0, hn0, hf0⟩ := plantLeaves_spec s
  obtain ⟨v, hv⟩ := h
  have hpos : 0 < s.present.length := List.length_pos_of_mem (mem_present.mpr hv)
  have hlen : s.present.length ≤ 256 := presentBelow_length s 256
  have hll : s.leafCounts.length = s.present.length := by simp [State.leafCounts]
  obtain ⟨w, t, e1, hI, hf⟩ := mergeLoop_spec Config.mergeFuel hI0
    (List.ne_nil_of_length_pos (by rw [List.length_map, List.length_range]; exact hpos))
    (by rw [List.length_map, List.length_range]; simp only [Config.mergeFuel]; omega)
  obtain ⟨m, nm, e2, hm, hnm, -⟩ := extractMin_some ((hI.mem t.idx).mpr (by simp))
  have hmt : m = t.idx := by simpa using (hI.mem m).mp hm
  subst hmt
  have hfr := buildFrame_trans hf0 hf
  have hcover : t.idxs.Perm (List.range w.ncnt.val) := by simpa using hI.cover
  have hsize := hI.size
  rw [hll, List.length_singleton] at hsize
  have hlt : t.idx < w.ncnt.val := hI.lt (by simp) (idx_mem t)
  have hroot : t.idx + 1 = w.ncnt.val := by
    have hk : w.ncnt.val - 1 ∈ t.idxs := hcover.mem_iff.mpr (List.mem_range.mpr (by omega))
    rcases idxs_child (hI.ok t (by simp)) hk with hr | ⟨j, hj, nj, q1, q2, q3⟩
    · omega
    · exfalso
      have hjl : j < w.ncnt.val := hI.lt (by simp) hj
      have hjn : s.leafCounts.length ≤ j := by
        by_contra hc
        have hg : s.leafCounts[j]? = some s.leafCounts[j] := List.getElem?_eq_getElem (by omega)
        have := hI.entries j _ hg
        rw [q1] at this
        rw [Option.some.inj this] at q2
        cases q2
      obtain ⟨l, r, nl, nr, -, -, hl, hr, -, hrec, -⟩ := hI.inner j hjn hjl
      rw [q1] at hrec
      rw [Option.some.inj hrec] at q3
      have hwl := w.ncnt.isLt
      rcases q3 with q3 | q3 <;>
      · have := congrArg BitVec.toNat q3
        simp only [innerRec, BitVec.toNat_ofNat] at this
        omega
  have hbody : tbuildBody s =
      .ok (({ w with inq := w.inq.setIfInBounds t.idx false } : State).setTree (BitVec.ofNat 9 t.idx)) := by
    unfold tbuildBody
    rw [if_neg (by rw [hn0]; omega), e1, andThen_ok]
    unfold takeRoot
    rw [e2]
  have hcv : w.cv = false := by rw [hfr]; rfl
  refine ⟨_, t, hbody, rfl, hroot, rfl, rfl, hcv, ?_, hI.ok t (by simp), hcover, ?_, ?_, hlen, ?_, ?_, ?_, ?_⟩
  · apply Vector.ext
    intro i hi
    show (w.inq.setIfInBounds t.idx false)[i] = _
    rw [Vector.getElem_replicate]
    have hno : ¬ ({ w with inq := w.inq.setIfInBounds t.idx false } : State).member i := by
      rw [member_remove, hI.mem]
      simp
    unfold State.member at hno
    rw [Vector.getElem?_eq_getElem hi] at hno
    simpa using hno
  · have := hI.values
    simp only [List.flatMap_cons, List.flatMap_nil, List.append_nil, State.leafCounts, List.map_map] at this
    rwa [show s.present.map (Prod.fst ∘ fun v => (v, s.count v)) = s.present from
      (List.map_congr_left (fun v _ => rfl)).trans (List.map_id _)] at this
  · exact hsize
  · intro k v hk
    exact hI.entries k (v, s.count v) (by simp [State.leafCounts, hk])
  · intro i h1 h2
    exact hI.inner i (by rw [hll]; exact h1) h2
  · refine ⟨nm, hnm, ?_⟩
    have := hI.sum
    simp only [List.map_cons, List.map_nil, List.sum_cons, List.sum_nil, Nat.add_zero, State.leafCounts, List.map_map] at this
    rw [weight_of_get (by have := w.ncnt.isLt; omega) hnm] at this
    exact this
  · have hcv2 : (({ w with inq := w.inq.setIfInBounds t.idx false } : State).setTree (BitVec.ofNat 9 t.idx)).cv = false := hcv
    rw [hcv2]
    unfold State.buildFrame at hfr
    generalize w.inq = qq
    conv_lhs => rw [hfr]
    rfl

/-- `TBUILD` without a count. -/
theorem tbuildBody_empty (s : State) (h : ∀ v, s.count v = 0#32) :
    tbuildBody s = .raised .emptyInput s.plantLeaves ∧ s.plantLeaves.inp = s.inp ∧ s.plantLeaves.iptr = s.iptr ∧
    s.plantLeaves.out = s.out ∧ s.plantLeaves.inq = Vector.replicate 511 false ∧ s.plantLeaves.pending = s.pending ∧
    s.plantLeaves.readData = s.readData ∧ s.plantLeaves.free = s.free := by
  obtain ⟨hI, hn, hf⟩ := plantLeaves_spec s
  have he : s.present = [] := by
    rw [List.eq_nil_iff_forall_not_mem]; intro v hv; exact mem_present.mp hv (h v)
  have hq : s.plantLeaves.inq = Vector.replicate 511 false := by
    apply Vector.ext
    intro i hi
    rw [Vector.getElem_replicate]
    have hno : ¬ s.plantLeaves.member i := by rw [hI.mem, he]; simp
    unfold State.member at hno
    rw [Vector.getElem?_eq_getElem hi] at hno
    simpa using hno
  unfold State.buildFrame at hf
  have h1 := congrArg State.inp hf
  have h2 := congrArg State.iptr hf
  have h3 := congrArg State.out hf
  have h4 := congrArg State.pending hf
  have h5 := congrArg State.readData hf
  have h6 := congrArg State.free hf
  refine ⟨?_, h1, h2, h3, hq, h4, h5, h6⟩
  unfold tbuildBody
  rw [if_pos (by rw [hn, he]; rfl)]

/-- The tree that `TBUILD` leaves, as the arena shows it. -/
theorem built_tree {u : State} {t : ITree} (hr : u.root = BitVec.ofNat 9 t.idx) (ho : t.ok u.nodes)
    (hp : t.idxs.Perm (List.range u.ncnt.val)) : u.wellFormed = true ∧ u.tree = some t.erase := by
  have hlt : ∀ i ∈ t.idxs, i < u.ncnt.val := fun i hi => by simpa using hp.mem_iff.mp hi
  have hlen : t.erase.nodeCount = u.ncnt.val := by rw [← idxs_length, hp.length_eq, List.length_range]
  have h1 := nodeCount_leaves t.erase
  have h2 := depth_lt_leaves t.erase
  have hN := u.ncnt.isLt
  constructor
  · unfold State.wellFormed
    rw [hr, ok_visit ho hlt (by simp only [Config.treeFuel]; omega)]
    simp only [Bool.and_eq_true, decide_eq_true_eq, List.length_map]
    refine ⟨?_, by rw [hp.length_eq, List.length_range]⟩
    refine List.Nodup.map_on ?_ (hp.nodup_iff.mpr List.nodup_range)
    intro a ha b hb hab
    have := congrArg BitVec.toNat hab
    have := hlt a ha
    have := hlt b hb
    simp only [BitVec.toNat_ofNat] at *
    omega
  · unfold State.tree
    rw [hr]
    exact treeAt_mono (ok_treeAt ho hlt) (by simp only [Config.treeFuel]; omega)

end Sys2Proof.Machine
end

