-- ==== Sys2Proof/Laws/Bodies.lean ====
section
/-! SUPPORT. What the body of each command may change, from any state (`40_control.md` to `48_decoder.md`, each command's "State"
lines), and what it keeps. -/

namespace Sys2Proof.Machine

/-- A body that ends normally ends where `P` holds; one that ends at a `raise` ends where `Q` holds. -/
def Result.All {α : Type} (P : α → Prop) (Q : FaultCode → State → Prop) : Result α → Prop
  | .ok a => P a
  | .raised e s => Q e s
  | .stuck _ => True

theorem all_andThen {α β : Type} {P : α → Prop} {P' : β → Prop} {Q : FaultCode → State → Prop} {r : Result α} {f : α → Result β}
    (h : r.All P Q) (hf : ∀ a, P a → (f a).All P' Q) : (r.andThen f).All P' Q := by
  cases r with
  | ok a => exact hf a h
  | raised e s => exact h
  | stuck g => trivial

theorem all_mono {α : Type} {P P' : α → Prop} {Q Q' : FaultCode → State → Prop} {r : Result α} (h : r.All P Q)
    (h1 : ∀ a, P a → P' a) (h2 : ∀ e s, Q e s → Q' e s) : r.All P' Q' := by
  cases r with
  | ok a => exact h1 a h
  | raised e s => exact h2 e s h
  | stuck g => trivial

theorem all_and {α : Type} {P P' : α → Prop} {Q Q' : FaultCode → State → Prop} {r : Result α} (h : r.All P Q) (h' : r.All P' Q') :
    r.All (fun a => P a ∧ P' a) (fun e s => Q e s ∧ Q' e s) := by
  cases r with
  | ok a => exact ⟨h, h'⟩
  | raised e s => exact ⟨h, h'⟩
  | stuck g => trivial

theorem all_endAsCorrupt {α : Type} {P : α → Prop} {Q : FaultCode → State → Prop} {r : Result α} (h : r.All P Q)
    (hq : ∀ s, Q .endOfStream s → Q .corruptStream s) : r.endAsCorrupt.All P Q := by
  cases r with
  | ok a => exact h
  | raised e s => cases e <;> first | exact hq s h | exact h
  | stuck g => trivial

/-- How a command ends, from how its body ends. -/
theorem finish_cases {P : State → Prop} {Q : FaultCode → State → Prop} {r : Result State} {t : State} (h : r.All P Q)
    (ht : r.finish = .next t) : P t ∨ ∃ e u, Q e u ∧ t = u.takeFault e := by
  cases r with
  | ok a => cases ht; exact .inl h
  | raised e s => cases ht; exact .inr ⟨e, s, h, rfl⟩
  | stuck g => cases ht

/-! Frames. -/

theorem inNext_frame {s t : State} {v : Byte} (h : s.inNext = some (v, t)) : t = { s with iptr := t.iptr } := by
  rw [((inNext_some_iff s t v).mp h).2]

theorem nextBit_frame {s t : State} {b : Bool} (h : s.nextBit = some (b, t)) :
    t = { s with cur := t.cur, rpos := t.rpos, iptr := t.iptr } := by
  unfold State.nextBit at h
  split at h
  · split at h
    · cases h
    · rename_i v u hu
      have := inNext_frame hu
      cases h
      conv_lhs => rw [this]
      rfl
  · cases h; rfl

/-- `FCNT` writes `FT`, `TOTAL`, `IPTR`. -/
def State.countFrame (s t : State) : Prop := t = { s with ft := t.ft, total := t.total, iptr := t.iptr }

theorem fcntLoop_frame (n : Nat) (s : State) :
    (fcntLoop n s).All s.countFrame (fun e t => e = .countOverflow ∧ s.countFrame t) := by
  induction n generalizing s with
  | zero => exact (rfl : s = _)
  | succ n ih =>
    unfold fcntLoop
    cases h : s.inNext with
    | none => exact (rfl : s = _)
    | some p =>
      obtain ⟨v, u⟩ := p
      have hu := inNext_frame h
      simp only
      split
      · exact ⟨rfl, by unfold State.countFrame; rw [hu]⟩
      · refine all_mono (ih _) (fun t ht => ?_) (fun e t ht => ⟨ht.1, ?_⟩)
        · unfold State.countFrame at *; rw [ht, hu]; rfl
        · have ht := ht.2; unfold State.countFrame at *; rw [ht, hu]; rfl

theorem fcntBody_frame (s : State) : (fcntBody s).All s.countFrame (fun e t => e = .countOverflow ∧ s.countFrame t) := by
  refine all_mono (fcntLoop_frame s.bytesLeft s.clearCounts) (fun t ht => ?_) (fun e t ht => ⟨ht.1, ?_⟩)
  · unfold State.countFrame at *; rw [ht]; rfl
  · have ht := ht.2; unfold State.countFrame at *; rw [ht]; rfl

/-- `EMIT` writes the writer, `OUT`, `IPTR`. -/
def State.emitFrame (s t : State) : Prop := t = { s with out := t.out, acc := t.acc, wcnt := t.wcnt, iptr := t.iptr }

theorem emitLoop_frame (n : Nat) (s : State) : (emitLoop n s).All s.emitFrame (fun e t => e = .noCode ∧ s.emitFrame t) := by
  induction n generalizing s with
  | zero => exact (rfl : s = _)
  | succ n ih =>
    unfold emitLoop
    cases h : s.inNext with
    | none => exact (rfl : s = _)
    | some p =>
      obtain ⟨v, u⟩ := p
      have hu := inNext_frame h
      simp only
      split
      · exact ⟨rfl, by unfold State.emitFrame; rw [hu]⟩
      · rename_i x _
        have hw := writeBits_frame u x
        refine all_mono (ih _) (fun t ht => ?_) (fun e t ht => ⟨ht.1, ?_⟩)
        · unfold State.emitFrame at *; rw [ht, hw, hu]
        · have ht := ht.2; unfold State.emitFrame at *; rw [ht, hw, hu]

theorem emitBody_frame (s : State) : (emitBody s).All s.emitFrame (fun e t => e = .noCode ∧ s.emitFrame t) := by
  unfold emitBody
  split
  · exact emitLoop_frame _ s
  · exact ⟨rfl, rfl⟩

/-- `TDES` writes the arena, the reader, `IPTR`; `RSEED`, `RSKIP3`, `RBIT` the last two only. -/
theorem desBit_frame (s : State) :
    (desBit s).All (fun p => p.2 = { s with cur := p.2.cur, rpos := p.2.rpos, iptr := p.2.iptr }) (fun e t => e = .corruptStream ∧ t = s) := by
  unfold desBit
  split
  · exact ⟨rfl, rfl⟩
  · rename_i h; exact nextBit_frame h

theorem desValue_frame (n : Nat) (v : Byte) (s : State) :
    (desValue n v s).All (fun p => p.2 = { s with cur := p.2.cur, rpos := p.2.rpos, iptr := p.2.iptr })
      (fun e t => e = .corruptStream ∧ t = { s with cur := t.cur, rpos := t.rpos, iptr := t.iptr }) := by
  induction n generalizing v s with
  | zero => exact (rfl : s = _)
  | succ n ih =>
    unfold desValue
    refine all_andThen (all_mono (desBit_frame s) (fun p hp => hp) (fun e t ht => ⟨ht.1, by rw [ht.2]⟩)) ?_
    rintro ⟨b, u⟩ hu
    simp only at hu
    refine all_mono (ih _ u) (fun p hp => by rw [hp, hu]) (fun e t ht => ⟨ht.1, ?_⟩)
    rw [ht.2, hu]

/-- `Des` from any state: a placed tree on top of what was there, or one of two faults. -/
theorem des_frame (n : Nat) (s : State) :
    (des n s).All
      (fun p => p.1 = s.nextIdx ∧ s.desFrame p.2 ∧ ∃ t : Tree, s.ncnt.val + t.nodeCount ≤ 511 ∧
        p.2.ncnt.val = s.ncnt.val + t.nodeCount ∧ placed p.2.nodes s.ncnt.val t ∧ (∀ i, i < s.ncnt.val → p.2.nodes[i]? = s.nodes[i]?))
      (fun e t => (e = .corruptStream ∨ e = .treeTooLarge) ∧ s.desFrame t) := by
  induction n generalizing s with
  | zero => exact ⟨.inr rfl, desFrame_refl s⟩
  | succ n ih =>
    unfold des
    split
    · exact ⟨.inr rfl, desFrame_refl s⟩
    · rename_i hfull
      have hne : s.ncnt.val ≠ 511 := hfull
      have hlt := s.ncnt.isLt
      refine all_andThen (all_mono (desBit_frame s) (fun p hp => hp) (fun e t ht => ⟨.inl ht.1, by rw [ht.2]; exact desFrame_refl s⟩)) ?_
      rintro ⟨b, u⟩ hu
      simp only at hu
      have hc : u.ncnt = s.ncnt := by rw [hu]
      have hnodes : u.nodes = s.nodes := by rw [hu]
      have hac := allocNode_next (s := u) (by rw [hc]; exact hne)
      rw [hc] at hac
      have hfr : s.desFrame u.allocNode := desFrame_trans (desFrame_of_read hu) (desFrame_alloc u)
      have hix : u.nextIdx = s.nextIdx := by unfold State.nextIdx; rw [hc]
      have hik : u.nextIdx.toNat = s.ncnt.val := by rw [nextIdx_toNat, hc]
      cases b with
      | true =>
        simp only [if_true]
        refine all_andThen (all_mono (desValue_frame 8 0#8 u.allocNode) (fun p hp => hp)
          (fun e t ht => ⟨.inl ht.1, desFrame_trans hfr (desFrame_of_read ht.2)⟩)) ?_
        rintro ⟨v, w⟩ hw
        simp only at hw
        refine ⟨hix, desFrame_trans hfr (desFrame_trans (desFrame_of_read hw) (desFrame_setNode _ _ _)), .leaf v,
          by simp only [Tree.nodeCount]; omega, ?_, ?_, ?_⟩
        · show w.ncnt.val = _
          rw [hw]; exact hac
        · show (w.setNode u.nextIdx (leafRec v 0#40)).nodes[s.ncnt.val]? = _
          rw [setNode_get, hik, if_pos ⟨rfl, by omega⟩]
        · intro i hi
          rw [setNode_get, hik, if_neg (by omega), hw]
          show u.nodes[i]? = _
          rw [hnodes]
      | false =>
        simp only [Bool.false_eq_true, if_false]
        refine all_andThen (all_mono (ih u.allocNode) (fun p hp => hp) (fun e t ht => ⟨ht.1, desFrame_trans hfr ht.2⟩)) ?_
        rintro ⟨l, w⟩ ⟨h1, h2, tl, h3, h4, h5, h6⟩
        simp only at h1 h2 h4 h5 h6
        rw [hac] at h3 h4 h5 h6
        refine all_andThen (all_mono (ih w) (fun p hp => hp) (fun e t ht => ⟨ht.1, desFrame_trans hfr (desFrame_trans h2 ht.2)⟩)) ?_
        rintro ⟨r, y⟩ ⟨k1, k2, tr, k3, k4, k5, k6⟩
        simp only at k1 k2 k4 k5 k6
        rw [h4] at k3 k4 k5 k6
        have hget : ∀ i, i ≠ s.ncnt.val → (y.setNode u.nextIdx (innerRec 0#40 l r)).nodes[i]? = y.nodes[i]? := by
          intro i hi
          rw [setNode_get, hik, if_neg (by omega)]
        refine ⟨hix, desFrame_trans hfr (desFrame_trans h2 (desFrame_trans k2 (desFrame_setNode _ _ _))), .node tl tr,
          by simp only [Tree.nodeCount]; omega, ?_, ⟨?_, ?_, ?_⟩, ?_⟩
        · show y.ncnt.val = _
          rw [k4]; simp only [Tree.nodeCount]; omega
        · rw [setNode_get, hik, if_pos ⟨rfl, by omega⟩, h1, k1]
          unfold State.nextIdx
          rw [hac, h4]
        · exact placed_congr (fun i hi hj => by rw [hget i (by omega), k6 i (by omega)]) h5
        · exact placed_congr (fun i hi hj => by rw [hget i (by omega)]) k5
        · intro i hi
          rw [hget i (by omega), k6 i (by omega), h6 i (by omega)]
          show u.nodes[i]? = _
          rw [hnodes]

/-- What `TDES` may change. -/
def State.tdesFrame (s t : State) : Prop :=
  t = { s with nodes := t.nodes, ncnt := t.ncnt, root := t.root, pos := t.pos, tv := t.tv, cv := t.cv,
               cur := t.cur, rpos := t.rpos, iptr := t.iptr }

theorem tdesBody_frame (s : State) :
    (tdesBody s).All
      (fun u => s.tdesFrame u ∧ u.wellFormed = true ∧ u.root = 0#9 ∧ u.pos = 0#9 ∧ u.tv = true ∧ u.cv = false ∧
        ∃ t : Tree, u.tree = some t ∧ u.ncnt.val = t.nodeCount)
      (fun e u => (e = .corruptStream ∨ e = .treeTooLarge) ∧ s.tdesFrame u) := by
  unfold tdesBody
  have base : ∀ u, ({ s.clearTreeValid with ncnt := 0 } : State).desFrame u → s.tdesFrame u := by
    intro u hu
    unfold State.tdesFrame State.desFrame at *
    rw [hu]; rfl
  refine all_andThen (all_mono (des_frame _ _) (fun p hp => hp) (fun e t ht => ⟨ht.1, base t ht.2⟩)) ?_
  rintro ⟨r, u⟩ ⟨h1, h2, t, h3, h4, h5, -⟩
  have hz : ({ s.clearTreeValid with ncnt := 0 } : State).ncnt.val = 0 := rfl
  rw [hz, Nat.zero_add] at h4
  rw [hz] at h5
  have hr : r = 0#9 := h1
  subst hr
  replace h2 : ({ s.clearTreeValid with ncnt := 0 } : State).desFrame u := h2
  have hcv : u.cv = false := by rw [h2]; rfl
  obtain ⟨hw, ht⟩ := placed_wellFormed (s := u.setTree 0#9) h5 h4.symm rfl
  refine ⟨?_, hw, rfl, rfl, rfl, hcv, t, ht, h4⟩
  have := base u h2
  unfold State.tdesFrame at *
  conv_lhs => rw [this]
  rfl

/-- The reader and `IPTR`. -/
def State.readFrame (s t : State) : Prop := t = { s with cur := t.cur, rpos := t.rpos, iptr := t.iptr }

theorem rseedBody_frame (s : State) : (rseedBody s).All s.readFrame (fun e t => e = .endOfStream ∧ t = s) := by
  unfold rseedBody
  split
  · exact ⟨rfl, rfl⟩
  · rename_i v u h
    have := inNext_frame h
    show u.loadByte v = _
    conv_lhs => rw [this]
    rfl

theorem skipBytes_frame (n : Nat) (s : State) : (skipBytes n s).All s.readFrame (fun e t => e = .endOfStream ∧ s.readFrame t) := by
  induction n generalizing s with
  | zero => exact (rfl : s = _)
  | succ n ih =>
    unfold skipBytes
    split
    · exact ⟨rfl, rfl⟩
    · rename_i v u h
      have hu := inNext_frame h
      refine all_mono (ih u) (fun t ht => ?_) (fun e t ht => ⟨ht.1, ?_⟩)
      · unfold State.readFrame at *; rw [ht, hu]
      · have ht := ht.2; unfold State.readFrame at *; rw [ht, hu]

theorem rbitBody_frame (s : State) :
    (rbitBody s).All (fun t => t = { s with cur := t.cur, rpos := t.rpos, iptr := t.iptr, res := t.res }) (fun e t => e = .endOfStream ∧ t = s) := by
  unfold rbitBody
  split
  · exact ⟨rfl, rfl⟩
  · rename_i b u h
    have := nextBit_frame h
    show u.setResult b = _
    conv_lhs => rw [this]
    rfl

/-- `POS` is the root or an internal node (`48_decoder.md` R238). -/
def State.atInner (s : State) : Prop := ∃ n, s.node s.pos = some n ∧ (s.pos = s.root ∨ n.leaf = false)

/-- What `WALK` may change. -/
def State.walkFrame (s t : State) : Prop :=
  t = { s with out := t.out, cur := t.cur, rpos := t.rpos, iptr := t.iptr, pos := t.pos }

theorem walkFrame_trans {s u w : State} (h1 : s.walkFrame u) (h2 : u.walkFrame w) : s.walkFrame w := by
  unfold State.walkFrame at *; rw [h2, h1]

theorem atInner_congr {s u : State} (h1 : s.nodes = u.nodes) (h2 : s.ncnt = u.ncnt) (h3 : s.root = u.root) (h4 : s.pos = u.pos)
    (h : s.atInner) : u.atInner := by
  obtain ⟨n, a, b⟩ := h
  exact ⟨n, by rw [← node_congr h1 h2, ← h4]; exact a, by rw [← h3, ← h4]; exact b⟩

theorem walkBit_writes (b : Bool) (s : State) :
    (walkBit b s).All s.walkFrame (fun e t => (e = .corruptStream ∨ e = .noTree) ∧ s.walkFrame t) := by
  unfold walkBit
  repeat' first | split | trivial

theorem walkLoop_writes (n : Nat) (s : State) :
    (walkLoop n s).All s.walkFrame (fun e t => (e = .corruptStream ∨ e = .noTree) ∧ s.walkFrame t) := by
  induction n generalizing s with
  | zero => exact (rfl : s = _)
  | succ n ih =>
    unfold walkLoop
    split
    · exact (rfl : s = _)
    · rename_i b u hu
      have hf := nextBit_frame hu
      have hsu : s.walkFrame u := by unfold State.walkFrame; rw [hf]
      refine all_andThen (all_mono (walkBit_writes b u) (fun _ h => h) (fun _ _ h => ⟨h.1, walkFrame_trans hsu h.2⟩)) ?_
      exact fun w hw => all_mono (ih w) (fun x hx => walkFrame_trans hsu (walkFrame_trans hw hx))
        (fun _ _ hx => ⟨hx.1, walkFrame_trans hsu (walkFrame_trans hw hx.2)⟩)

/-- `WALK` from any state. -/
theorem walkBody_writes (s : State) :
    (walkBody s).All (fun t => s.walkFrame t ∧ s.tv = true) (fun e t => (e = .corruptStream ∨ e = .noTree) ∧ s.walkFrame t) := by
  unfold walkBody
  have hbase : s.walkFrame (s.moveTo s.root) := rfl
  split
  · rename_i htv
    exact all_mono (walkLoop_writes _ _) (fun u hu => ⟨walkFrame_trans hbase hu, htv⟩) (fun _ u hu => ⟨hu.1, walkFrame_trans hbase hu.2⟩)
  · exact ⟨.inr rfl, rfl⟩

theorem walkBit_frame (b : Bool) (s : State) (hr : ∃ n, s.node s.root = some n) (h : s.atInner) :
    (walkBit b s).All (fun t => s.walkFrame t ∧ t.atInner) (fun e t => e = .corruptStream ∧ s.walkFrame t) := by
  unfold walkBit
  split
  · trivial
  · rename_i nd hn
    split
    · split
      · exact ⟨rfl, rfl⟩
      · exact ⟨rfl, atInner_congr rfl rfl rfl rfl h⟩
    · split
      · trivial
      · rename_i md hm
        split
        · obtain ⟨rn, hrn⟩ := hr
          exact ⟨rfl, rn, hrn, .inl rfl⟩
        · rename_i hl
          exact ⟨rfl, md, hm, .inr (by simpa using hl)⟩

theorem walkLoop_frame (n : Nat) (s : State) (hr : ∃ m, s.node s.root = some m) (h : s.atInner) :
    (walkLoop n s).All (fun t => s.walkFrame t ∧ t.atInner) (fun e t => e = .corruptStream ∧ s.walkFrame t) := by
  induction n generalizing s with
  | zero => exact ⟨rfl, h⟩
  | succ n ih =>
    unfold walkLoop
    split
    · exact ⟨rfl, h⟩
    · rename_i b u hu
      have hf := nextBit_frame hu
      have hsu : s.walkFrame u := by unfold State.walkFrame; rw [hf]
      have hur : ∃ m, u.node u.root = some m := by
        obtain ⟨m, hm⟩ := hr
        exact ⟨m, by rw [← hm, node_congr (s := u) (u := s) (by rw [hf]) (by rw [hf])]; rw [hf]⟩
      refine all_andThen (all_mono (walkBit_frame b u hur (atInner_congr (by rw [hf]) (by rw [hf]) (by rw [hf]) (by rw [hf]) h))
        (fun t ht => ht) (fun e t ht => ⟨ht.1, walkFrame_trans hsu ht.2⟩)) ?_
      rintro w ⟨hw1, hw2⟩
      have hwr : ∃ m, w.node w.root = some m := by
        obtain ⟨m, hm⟩ := hur
        have hw1' := hw1
        unfold State.walkFrame at hw1'
        exact ⟨m, by rw [← hm, node_congr (s := w) (u := u) (by rw [hw1']) (by rw [hw1'])]; rw [hw1']⟩
      exact all_mono (ih w hwr hw2) (fun t ht => ⟨walkFrame_trans hsu (walkFrame_trans hw1 ht.1), ht.2⟩)
        (fun e t ht => ⟨ht.1, walkFrame_trans hsu (walkFrame_trans hw1 ht.2)⟩)

theorem walkBody_frame (s : State) (hr : s.tv = true → ∃ m, s.node s.root = some m) :
    (walkBody s).All (fun t => s.walkFrame t ∧ t.atInner ∧ s.tv = true) (fun e t => (e = .corruptStream ∨ e = .noTree) ∧ s.walkFrame t) := by
  unfold walkBody
  split
  · rename_i htv
    obtain ⟨m, hm⟩ := hr htv
    have hbase : s.walkFrame (s.moveTo s.root) := rfl
    exact all_mono (walkLoop_frame _ (s.moveTo s.root) ⟨m, hm⟩ ⟨m, hm, .inl rfl⟩)
      (fun t ht => ⟨walkFrame_trans hbase ht.1, ht.2, htv⟩) (fun e t ht => ⟨.inl ht.1, walkFrame_trans hbase ht.2⟩)
  · exact ⟨.inr rfl, rfl⟩

/-- A well-formed arena has its root entry. -/
theorem wellFormed_root {s : State} (h : s.wellFormed = true) : ∃ m, s.node s.root = some m := by
  obtain ⟨t, ht, -⟩ := wellFormed_tree h
  obtain ⟨nd, hn, -⟩ := treeAt_succ_cases (n := 255) ht
  exact ⟨nd, hn⟩

/-- What `TBUILD` may change. -/
def State.tbuildFrame (s t : State) : Prop :=
  t = { s with nodes := t.nodes, ncnt := t.ncnt, root := t.root, pos := t.pos, tv := t.tv, cv := t.cv, inq := t.inq }

/-- `TBUILD`, all of it. The body is named by an equation: its leaves are planted by a loop of 256 steps, which Lean would unfold
when it looks through `Result.All`. -/
theorem tbuildBody_frame {s : State} {r : Result State} (hr : tbuildBody s = r) :
    r.All
      (fun u => s.tbuildFrame u ∧ u.wellFormed = true ∧ u.pos = u.root ∧ u.tv = true ∧ u.cv = false ∧ u.inq = Vector.replicate 511 false)
      (fun e u => e = .emptyInput ∧ u.inp = s.inp ∧ u.iptr = s.iptr ∧ u.inq = Vector.replicate 511 false ∧ u.pending = s.pending) := by
  have h1 : ∀ h : ∃ v, s.count v ≠ 0#32, _ := fun h => tbuildBody_ok s h
  have h2 : ∀ h : ∀ v, s.count v = 0#32, _ := fun h => tbuildBody_empty s h
  have h3 : (∃ v, s.count v ≠ 0#32) ∨ ∀ v, s.count v = 0#32 :=
    (Classical.em (∃ v, s.count v ≠ 0#32)).imp id (fun hn v => Classical.byContradiction fun hc => hn ⟨v, hc⟩)
  rw [hr] at h1 h2
  rcases h3 with h | h
  · obtain ⟨u, t, h1, h2, -, h4, h5, h6, h7, h8, h9, -, -, -, -, -, -, h16⟩ := h1 h
    rw [h1]
    exact ⟨h16, (built_tree h2 h8 h9).1, h4, h5, h6, h7⟩
  · obtain ⟨h1, h2, h3, -, h5, h6, -⟩ := h2 h
    rw [h1]
    exact ⟨rfl, h2, h3, h5, h6⟩

/-- `CTGEN` writes `CT` and `CV`. -/
theorem ctgenBody_frame (s : State) :
    (ctgenBody s).All (fun u => u = { s with ct := u.ct, cv := true } ∧ s.tv = true ∧ ∃ t, s.tree = some t ∧ ∀ v, u.code v = t.codeOf v)
      (fun e u => e = .noTree ∧ u = s) := by
  by_cases h : s.tv = true
  · rw [ctgenBody_eq s h]
    cases ht : s.tree with
    | none => trivial
    | some t =>
      refine ⟨?_, h, t, rfl, clearCodes_setCodes_code s t⟩
      conv_lhs => rw [setCodes_frame]
      rfl
  · unfold ctgenBody; rw [if_neg h]; exact ⟨rfl, rfl⟩

/-- `TSER` writes the writer and `OUT`. -/
theorem tserBody_frame (s : State) :
    (tserBody s).All (fun u => ∃ t, s.tree = some t ∧ u = s.writeBits t.serBits) (fun e u => e = .noTree ∧ u = s) := by
  cases h : s.tv with
  | false => unfold tserBody; rw [h]; exact ⟨rfl, rfl⟩
  | true =>
    rw [tserBody_eq s h]
    cases ht : s.tree with
    | none => trivial
    | some t => exact ⟨t, rfl, rfl⟩

end Sys2Proof.Machine
end

