-- ==== Sys2Proof/Laws/Codes.lean ====
section
/-! SUPPORT. The codes of a tree, and the payload walk over them (`30_encoding.md` R100 to R102; `48_decoder.md` R238 to R240). -/

namespace Sys2Proof.Machine

theorem codes_bounds {t : Tree} (hd : t.depth ≤ 255) {p : Byte × Bits} (h : p ∈ t.codes) : 1 ≤ p.2.length ∧ p.2.length ≤ 255 := by
  cases t with
  | leaf v => simp [Tree.codes] at h; simp [h]
  | node l r =>
    have h1 := pathsFrom_node_length h
    have h2 := (pathsFrom_length h).2
    simp at h1 h2; omega

theorem codeOf_mem {t : Tree} {v : Byte} {x : Bits} (h : t.codeOf v = some x) : (v, x) ∈ t.codes := by
  unfold Tree.codeOf at h
  cases e : t.codes.reverse.find? (fun p => p.1 == v) with
  | none => rw [e] at h; cases h
  | some p =>
    rw [e] at h; simp at h
    have h1 := List.mem_of_find?_eq_some e
    have h2 := List.find?_some e
    simp at h1 h2
    rw [← h2, ← h]; exact h1

theorem codes_fst (t : Tree) : t.codes.map Prod.fst = t.leaves := by
  cases t with
  | leaf v => rfl
  | node l r => exact pathsFrom_map_fst _ _

theorem codeOf_isSome {t : Tree} {v : Byte} : (t.codeOf v).isSome = true ↔ v ∈ t.leaves := by
  rw [← codes_fst]
  unfold Tree.codeOf
  rw [Option.isSome_map, List.find?_isSome]
  simp only [List.mem_reverse, beq_iff_eq, List.mem_map]

/-- In a tree without repeated values, a code that continues another is the same leaf's (`30_encoding.md` R102). -/
theorem pathsFrom_sym {t : Tree} {bits : Bits} (hn : t.leaves.Nodup) {p q : Byte × Bits} (hp : p ∈ t.pathsFrom bits)
    (hq : q ∈ t.pathsFrom bits) (hpre : p.2 <+: q.2) : p.1 = q.1 := by
  induction t generalizing bits with
  | leaf v => simp [Tree.pathsFrom] at hp hq; rw [hp, hq]
  | node l r h1 h2 =>
    simp only [Tree.leaves, List.nodup_append] at hn
    obtain ⟨hnl, hnr, -⟩ := hn
    have cross : ∀ (x y : Bits) (b c : Bool), bits ++ [b] <+: x → bits ++ [c] <+: y → x <+: y → b = c := by
      intro x y b c hx hy hxy
      obtain ⟨z, hz⟩ := hx.trans hxy
      obtain ⟨w, hw⟩ := hy
      rw [← hw, List.append_assoc, List.append_assoc] at hz
      have := List.append_cancel_left hz
      simpa using congrArg List.head? this
    simp only [Tree.pathsFrom, List.mem_append] at hp hq
    rcases hp with hp | hp <;> rcases hq with hq | hq
    · exact h1 hnl hp hq
    · exact absurd (cross _ _ _ _ (pathsFrom_prefix hp) (pathsFrom_prefix hq) hpre) (by decide)
    · exact absurd (cross _ _ _ _ (pathsFrom_prefix hp) (pathsFrom_prefix hq) hpre) (by decide)
    · exact h2 hnr hp hq

/-- Walking a leaf's path from an internal node emits its value and returns to the root. -/
theorem walk_path (root : Tree) {l r : Tree} {pre c : Bits} {v : Byte} (h : (v, pre ++ c) ∈ (Tree.node l r).pathsFrom pre) (bs : Bits) :
    root.walkFrom (.node l r) (c ++ bs) = (v :: (root.walkFrom root bs).1, (root.walkFrom root bs).2) := by
  have key : ∀ (e l r : Tree) (pre c : Bits), e = .node l r → (v, pre ++ c) ∈ e.pathsFrom pre →
      root.walkFrom e (c ++ bs) = (v :: (root.walkFrom root bs).1, (root.walkFrom root bs).2) := by
    intro e
    induction e with
    | leaf _ => intro l r pre c he; cases he
    | node a b ih1 ih2 =>
      intro l r pre c _ hm
      have sub : ∀ (d : Bool) (t : Tree), (v, pre ++ c) ∈ t.pathsFrom (pre ++ [d]) → ∃ c', c = d :: c' ∧ (v, (pre ++ [d]) ++ c') ∈ t.pathsFrom (pre ++ [d]) := by
        intro d t ht
        obtain ⟨z, hz⟩ := pathsFrom_prefix ht
        have hc : c = d :: z := by
          rw [List.append_assoc] at hz
          simpa using (List.append_cancel_left hz).symm
        exact ⟨z, hc, by rw [hz]; exact ht⟩
      simp only [Tree.pathsFrom, List.mem_append] at hm
      rcases hm with hm | hm
      · obtain ⟨c', rfl, h'⟩ := sub false a hm
        cases a with
        | leaf w =>
          simp only [Tree.pathsFrom, List.mem_singleton, Prod.mk.injEq] at h'
          obtain ⟨rfl, hc⟩ := h'
          have : c' = [] := by simpa using hc
          subst this; rfl
        | node x y => exact ih1 x y _ c' rfl h'
      · obtain ⟨c', rfl, h'⟩ := sub true b hm
        cases b with
        | leaf w =>
          simp only [Tree.pathsFrom, List.mem_singleton, Prod.mk.injEq] at h'
          obtain ⟨rfl, hc⟩ := h'
          have : c' = [] := by simpa using hc
          subst this; rfl
        | node x y => exact ih2 x y _ c' rfl h'
  exact key _ l r pre c rfl h

theorem walk_code (t : Tree) {v : Byte} {c : Bits} (h : t.codeOf v = some c) (bs : Bits) :
    t.walkFrom t (c ++ bs) = (v :: (t.walkFrom t bs).1, (t.walkFrom t bs).2) := by
  have hm := codeOf_mem h
  cases t with
  | leaf w =>
    simp only [Tree.codes, List.mem_singleton, Prod.mk.injEq] at hm
    obtain ⟨rfl, rfl⟩ := hm
    rfl
  | node l r => exact walk_path _ (pre := []) hm bs

/-- The walk inverts the code of any byte sequence (`30_encoding.md` R100, R102). -/
theorem walk_codes (t : Tree) (l : List Byte) {x : Bits} (h : codeBits t.codeOf l = some x) (bs : Bits) :
    t.walkFrom t (x ++ bs) = (l ++ (t.walkFrom t bs).1, (t.walkFrom t bs).2) := by
  induction l generalizing x with
  | nil => cases h; rfl
  | cons v l ih =>
    unfold codeBits at h
    cases hv : t.codeOf v with
    | none => rw [hv] at h; cases h
    | some a =>
      cases hl : codeBits t.codeOf l with
      | none => rw [hv, hl] at h; cases h
      | some b =>
        rw [hv, hl] at h; cases h
        rw [List.append_assoc, walk_code t hv, ih hl]; rfl

theorem leftDepth_pos (l r : Tree) : 0 < (Tree.node l r).leftDepth := by simp only [Tree.leftDepth]; omega

/-- Zeros go down to the leftmost leaf and back (`30_encoding.md` R101, `48_decoder.md` R240). -/
theorem walk_zeros_down (root : Tree) (e : Tree) : ∀ l r, e = .node l r → ∀ n,
    (n < e.leftDepth → ∃ e', root.walkFrom e (List.replicate n false) = ([], some e') ∧ e'.leftDepth = e.leftDepth - n ∧ e'.nodeCount ≤ e.nodeCount ∧
      (0 < n → e'.nodeCount < e.nodeCount)) ∧
    (e.leftDepth ≤ n → root.walkFrom e (List.replicate n false) =
      (e.leftmost :: (root.walkFrom root (List.replicate (n - e.leftDepth) false)).1, (root.walkFrom root (List.replicate (n - e.leftDepth) false)).2)) := by
  induction e with
  | leaf v => intro l r he; cases he
  | node a b ih _ =>
    intro l r _ n
    cases n with
    | zero =>
      refine ⟨fun _ => ⟨_, rfl, rfl, Nat.le_refl _, fun h => absurd h (by omega)⟩, fun h => ?_⟩
      have := leftDepth_pos a b; omega
    | succ n =>
      cases a with
      | leaf w =>
        refine ⟨fun h => ?_, fun _ => ?_⟩
        · simp only [Tree.leftDepth] at h; omega
        · simp [List.replicate_succ, Tree.walkFrom, Tree.leftDepth, Tree.leftmost]
      | node c d =>
        obtain ⟨h1, h2⟩ := ih c d rfl n
        have hs : root.walkFrom (.node (.node c d) b) (List.replicate (n + 1) false) = root.walkFrom (.node c d) (List.replicate n false) := by
          rw [List.replicate_succ]; rfl
        have hd : (Tree.node (.node c d) b).leftDepth = 1 + (Tree.node c d).leftDepth := rfl
        have hn : (Tree.node (.node c d) b).nodeCount = 1 + (Tree.node c d).nodeCount + b.nodeCount := rfl
        have hm : (Tree.node (.node c d) b).leftmost = (Tree.node c d).leftmost := rfl
        rw [hs, hd, hn, hm]
        refine ⟨fun h => ?_, fun h => ?_⟩
        · obtain ⟨e', g1, g2, g3, -⟩ := h1 (by omega)
          exact ⟨e', g1, by omega, by omega, fun _ => by omega⟩
        · rw [h2 (by omega), show n + 1 - (1 + (Tree.node c d).leftDepth) = n - (Tree.node c d).leftDepth by omega]

/-- What the walk makes of `n` zeros from the root (`48_decoder.md` R243). -/
theorem walk_zeros (t : Tree) (n : Nat) :
    (t.walkFrom t (List.replicate n false)).1 = List.replicate (n / max t.leftDepth 1) t.leftmost ∧
    ∃ e, (t.walkFrom t (List.replicate n false)).2 = some e ∧ (e = t ↔ n % max t.leftDepth 1 = 0) := by
  cases t with
  | leaf v =>
    induction n with
    | zero => exact ⟨by simp [Tree.walkFrom], _, rfl, by simp⟩
    | succ n ih =>
      obtain ⟨h1, e, h2, h3⟩ := ih
      have hd : max (Tree.leaf v).leftDepth 1 = 1 := rfl
      rw [hd] at h1 h3 ⊢
      have hs : (Tree.leaf v).walkFrom (.leaf v) (List.replicate (n + 1) false) =
          (v :: ((Tree.leaf v).walkFrom (.leaf v) (List.replicate n false)).1, ((Tree.leaf v).walkFrom (.leaf v) (List.replicate n false)).2) := by
        rw [List.replicate_succ]; rfl
      rw [hs]
      refine ⟨by simp only [h1, Nat.div_one]; rfl, e, h2, by rw [h3]; simp [Nat.mod_one]⟩
  | node l r =>
    have hp := leftDepth_pos l r
    have hd : max (Tree.node l r).leftDepth 1 = (Tree.node l r).leftDepth := by omega
    rw [hd]
    generalize ht : Tree.node l r = t at *
    induction n using Nat.strongRecOn with
    | ind n ih =>
      obtain ⟨h1, h2⟩ := walk_zeros_down t t l r ht.symm n
      by_cases hn : n < t.leftDepth
      · obtain ⟨e', g1, -, -, g4⟩ := h1 hn
        rw [g1, Nat.div_eq_of_lt hn, Nat.mod_eq_of_lt hn]
        refine ⟨rfl, e', rfl, ?_⟩
        constructor
        · intro he
          by_contra h0
          have := g4 (by omega)
          rw [he] at this; omega
        · intro h0
          subst h0
          subst ht
          have : ((Tree.node l r).walkFrom (.node l r) (List.replicate 0 false)) = ([], some (.node l r)) := rfl
          rw [this] at g1
          cases g1; rfl
      · rw [h2 (by omega)]
        obtain ⟨k1, e, k2, k3⟩ := ih (n - t.leftDepth) (by omega)
        have e1 : n = n - t.leftDepth + t.leftDepth := by omega
        have q1 : n / t.leftDepth = (n - t.leftDepth) / t.leftDepth + 1 := by
          conv_lhs => rw [e1]
          exact Nat.add_div_right _ hp
        have q2 : n % t.leftDepth = (n - t.leftDepth) % t.leftDepth := by
          conv_lhs => rw [e1]
          exact Nat.add_mod_right _ _
        refine ⟨?_, e, k2, by rw [k3, q2]⟩
        rw [q1, List.replicate_succ]
        simp only [k1]

end Sys2Proof.Machine
end

