-- ==== Sys2Proof/Laws/PerInstr.lean ====
section
/-! SUPPORT. Statements about every command as syntax, one lemma per constructor (LAWS.json). -/

/-- The two fields of a command's word are its opcode and its operand (`30_encoding.md` R90). -/
def Sys2Proof.Laws.WordFields.Statement (i : Sys2Proof.Instr) : Prop :=
  Sys2Proof.opcodeOf (Sys2Proof.encode i) = Sys2Proof.opcode i ∧ Sys2Proof.operandOf (Sys2Proof.encode i) = Sys2Proof.operand i

theorem Sys2Proof.Laws.WordFields.nop : Sys2Proof.Laws.WordFields.Statement .nop := ⟨by decide, by decide⟩
theorem Sys2Proof.Laws.WordFields.clr : Sys2Proof.Laws.WordFields.Statement .clr := ⟨by decide, by decide⟩
theorem Sys2Proof.Laws.WordFields.rewind : Sys2Proof.Laws.WordFields.Statement .rewind := ⟨by decide, by decide⟩
theorem Sys2Proof.Laws.WordFields.fcnt : Sys2Proof.Laws.WordFields.Statement .fcnt := ⟨by decide, by decide⟩
theorem Sys2Proof.Laws.WordFields.tbuild : Sys2Proof.Laws.WordFields.Statement .tbuild := ⟨by decide, by decide⟩
theorem Sys2Proof.Laws.WordFields.ctgen : Sys2Proof.Laws.WordFields.Statement .ctgen := ⟨by decide, by decide⟩
theorem Sys2Proof.Laws.WordFields.tser : Sys2Proof.Laws.WordFields.Statement .tser := ⟨by decide, by decide⟩
theorem Sys2Proof.Laws.WordFields.tdes : Sys2Proof.Laws.WordFields.Statement .tdes := ⟨by decide, by decide⟩
theorem Sys2Proof.Laws.WordFields.wbit (b : Bool) : Sys2Proof.Laws.WordFields.Statement (.wbit b) := by
  cases b <;> exact ⟨by decide, by decide⟩
theorem Sys2Proof.Laws.WordFields.wflush : Sys2Proof.Laws.WordFields.Statement .wflush := ⟨by decide, by decide⟩
theorem Sys2Proof.Laws.WordFields.rbit : Sys2Proof.Laws.WordFields.Statement .rbit := ⟨by decide, by decide⟩
theorem Sys2Proof.Laws.WordFields.wmark : Sys2Proof.Laws.WordFields.Statement .wmark := ⟨by decide, by decide⟩
theorem Sys2Proof.Laws.WordFields.emit : Sys2Proof.Laws.WordFields.Statement .emit := ⟨by decide, by decide⟩
theorem Sys2Proof.Laws.WordFields.encode : Sys2Proof.Laws.WordFields.Statement .encode := ⟨by decide, by decide⟩
theorem Sys2Proof.Laws.WordFields.rseed : Sys2Proof.Laws.WordFields.Statement .rseed := ⟨by decide, by decide⟩
theorem Sys2Proof.Laws.WordFields.ralign : Sys2Proof.Laws.WordFields.Statement .ralign := ⟨by decide, by decide⟩
theorem Sys2Proof.Laws.WordFields.rskip3 : Sys2Proof.Laws.WordFields.Statement .rskip3 := ⟨by decide, by decide⟩
theorem Sys2Proof.Laws.WordFields.walk : Sys2Proof.Laws.WordFields.Statement .walk := ⟨by decide, by decide⟩
theorem Sys2Proof.Laws.WordFields.decode : Sys2Proof.Laws.WordFields.Statement .decode := ⟨by decide, by decide⟩
end

