-- ==== Sys2Proof/Laws/Port.lean ====
section
/-! SUPPORT. The register port: which number names which register, and what each register shows (`10_state.md` R33). -/

namespace Sys2Proof.Machine

theorem portReg_ft (b : Byte) : portReg (0x100 + b.toNat) = some (.ft b) := by
  have := b.isLt
  have hb : BitVec.ofNat 8 (0x100 + b.toNat - 0x100) = b := by rw [Nat.add_sub_cancel_left]; simp
  unfold portReg
  repeat rw [if_neg (by omega)]
  rw [if_pos (by omega), hb]

theorem portReg_ctlen (b : Byte) : portReg (0x200 + b.toNat) = some (.ctlen b) := by
  have := b.isLt
  have hb : BitVec.ofNat 8 (0x200 + b.toNat - 0x200) = b := by rw [Nat.add_sub_cancel_left]; simp
  unfold portReg
  repeat rw [if_neg (by omega)]
  rw [if_pos (by omega), hb]

theorem portReg_ctbits (b : Byte) : portReg (0x300 + b.toNat) = some (.ctbits b) := by
  have := b.isLt
  have hb : BitVec.ofNat 8 (0x300 + b.toNat - 0x300) = b := by rw [Nat.add_sub_cancel_left]; simp
  unfold portReg
  repeat rw [if_neg (by omega)]
  rw [if_pos (by omega), hb]

theorem portReg_node (n : Nat) (h : n < 511) : portReg (0x400 + n) = some (.node ⟨n, h⟩) := by
  unfold portReg
  repeat rw [if_neg (by omega)]
  rw [dif_pos (by omega)]
  simp

/-- Above the nine single registers a number stands in one of the four windows or names nothing (`10_state.md` R33). -/
theorem portReg_window {n : Nat} (hn : 9 ≤ n) {r : PortReg} (h : portReg n = some r) :
    (∃ b, r = .ft b) ∨ (∃ b, r = .ctlen b) ∨ (∃ b, r = .ctbits b) ∨ ∃ i, r = .node i := by
  unfold portReg at h
  repeat rw [if_neg (by omega)] at h
  by_cases hf : 0x100 ≤ n ∧ n < 0x200
  · rw [if_pos hf] at h; exact .inl ⟨_, (Option.some.inj h).symm⟩
  rw [if_neg hf] at h
  by_cases hl : 0x200 ≤ n ∧ n < 0x300
  · rw [if_pos hl] at h; exact .inr (.inl ⟨_, (Option.some.inj h).symm⟩)
  rw [if_neg hl] at h
  by_cases hb : 0x300 ≤ n ∧ n < 0x400
  · rw [if_pos hb] at h; exact .inr (.inr (.inl ⟨_, (Option.some.inj h).symm⟩))
  rw [if_neg hb] at h
  by_cases ha : 0x400 ≤ n ∧ n < 0x5FF
  · rw [dif_pos ha] at h; exact .inr (.inr (.inr ⟨_, (Option.some.inj h).symm⟩))
  · rw [dif_neg ha] at h; cases h

/-- Only two numbers name a register that stays defined while halted (`60_exceptions.md` R270). -/
theorem definedInFault_iff {n : Nat} {r : PortReg} (h : portReg n = some r) : r.definedInFault = true ↔ n = 0x001 ∨ n = 0x008 := by
  rcases Nat.lt_or_ge n 9 with hn | hn
  · have single : ∀ m : Fin 9, (portReg m.val).map PortReg.definedInFault = some (decide (m.val = 0x001 ∨ m.val = 0x008)) := by decide
    have e := single ⟨n, hn⟩
    rw [h] at e
    rw [Option.some.inj e, decide_eq_true_iff]
  · have window : r.definedInFault = false := by
      obtain ⟨_, rfl⟩ | ⟨_, rfl⟩ | ⟨_, rfl⟩ | ⟨_, rfl⟩ := portReg_window hn h <;> rfl
    rw [window]
    exact ⟨fun hc => (nomatch hc), fun hc => by omega⟩
/-- Without a fault a read gives what the register shows. -/
theorem portValue_eq_shown {n : Nat} {r : PortReg} {s : State} {any : PortData} (h : portReg n = some r) (hf : s.fault = false) :
    portValue n s any = r.shown s any := by
  unfold portValue; rw [h]; simp [PortReg.value, hf]

theorem shown_ctlen_some {s : State} {b : Byte} {x : Bits} (any : PortData) (h : s.code b = some x) :
    (PortReg.ctlen b).shown s any = (1#1 ++ codeLen x).setWidth 255 := by simp only [PortReg.shown, h]

theorem shown_ctlen_none {s : State} {b : Byte} (any : PortData) (h : s.code b = none) :
    (PortReg.ctlen b).shown s any = lowBits 8 any := by simp only [PortReg.shown, h]

theorem shown_ctbits_some {s : State} {b : Byte} {x : Bits} (any : PortData) (h : s.code b = some x) :
    (PortReg.ctbits b).shown s any = codePacked x := by simp only [PortReg.shown, h]

theorem shown_ctbits_none {s : State} {b : Byte} (any : PortData) (h : s.code b = none) :
    (PortReg.ctbits b).shown s any = any := by simp only [PortReg.shown, h]

theorem shown_node_some {s : State} {i : Fin 511} {n : NodeRec} (any : PortData) (h : s.node (BitVec.ofNat 9 i.val) = some n) :
    (PortReg.node i).shown s any = (nodePacked n).setWidth 255 := by simp only [PortReg.shown, h]

theorem shown_node_none {s : State} {i : Fin 511} (any : PortData) (h : s.node (BitVec.ofNat 9 i.val) = none) :
    (PortReg.node i).shown s any = lowBits 67 any := by simp only [PortReg.shown, h]

theorem code_none_of_invalid {s : State} {b : Byte} (h : s.codeValid b = false) : s.code b = none := by
  unfold State.codeValid at h
  simpa using h

theorem setWidth_lt {w : Nat} (x : BitVec w) : (x.setWidth 255).toNat < 2 ^ w := by
  rw [BitVec.toNat_setWidth]
  exact lt_of_le_of_lt (Nat.mod_le _ _) x.isLt

theorem toNat_setWidth_of_le {w : Nat} (x : BitVec w) (h : w ≤ 255) : (x.setWidth 255).toNat = x.toNat := by
  rw [BitVec.toNat_setWidth]
  exact Nat.mod_eq_of_lt (lt_of_lt_of_le x.isLt (Nat.pow_le_pow_right (by decide) h))

theorem lowBits_lt (w : Nat) (d : PortData) : (lowBits w d).toNat < 2 ^ w := setWidth_lt (d.setWidth w)

/-- Two fields side by side, as a number. -/
theorem toNat_fields {v w : Nat} (x : BitVec v) (y : BitVec w) : (x ++ y).toNat = y.toNat + 2 ^ w * x.toNat := by
  rw [BitVec.toNat_append, ← Nat.shiftLeft_add_eq_or_of_lt y.isLt, Nat.shiftLeft_eq, Nat.mul_comm, Nat.add_comm]

/-- The bits of a code at the port. -/
theorem codePacked_bit {x : Bits} (hx : x.length ≤ 255) {k : Nat} (hk : k < 255) : (codePacked x).getLsbD (254 - k) = x.getD k false := by
  unfold codePacked
  simp only [Config.codeMax]
  rw [BitVec.getLsbD_shiftLeft, BitVec.getLsbD_setWidth]
  by_cases hkl : k < x.length
  · have h1 : ¬ (254 - k < 255 - x.length) := by omega
    have h2 : 254 - k - (255 - x.length) < 255 := by omega
    have h3 : 254 - k < 255 := by omega
    simp only [h1, h2, h3, decide_true, decide_false, Bool.true_and, Bool.not_false]
    rw [BitVec.getLsbD_ofBoolListBE]
    have h4 : 254 - k - (255 - x.length) < x.length := by omega
    have h5 : x.length - 1 - (254 - k - (255 - x.length)) = k := by omega
    simp [h4, h5]
  · have h1 : 254 - k < 255 - x.length := by omega
    simp only [h1, decide_true, Bool.not_true, Bool.false_and, Bool.and_false]
    rw [List.getD_eq_getElem?_getD, List.getElem?_eq_none (by omega)]; rfl

/-- A record at the port, as a number. -/
theorem nodePacked_toNat (n : NodeRec) :
    (nodePacked n).toNat =
      n.wt.toNat + 2 ^ 40 * (n.val.toNat + 2 ^ 8 * (n.left.toNat + 2 ^ 9 * (n.right.toNat + 2 ^ 9 * n.leaf.toNat))) := by
  refine (toNat_fields (BitVec.ofBool n.leaf ++ n.right ++ n.left ++ n.val) n.wt).trans ?_
  congr 2
  refine (toNat_fields (BitVec.ofBool n.leaf ++ n.right ++ n.left) n.val).trans ?_
  congr 2
  refine (toNat_fields (BitVec.ofBool n.leaf ++ n.right) n.left).trans ?_
  congr 2
  refine (toNat_fields (BitVec.ofBool n.leaf) n.right).trans ?_
  congr 2
  cases n.leaf <;> rfl

end Sys2Proof.Machine
end

