-- ==== Sys2Proof/Laws/Steps.lean ====
section
/-! SUPPORT. What a step can do, said once (`70_reset_and_hazards.md` R296), and what the composites keep (`47_encoder.md` R217,
`48_decoder.md` R241). -/

namespace Sys2Proof.Machine

/-- Everything a step can do: wait, ignore, run a command, reject a word, answer a read, bind, reset. -/
theorem step_cases {s t : State} (h : step s = .next t) :
    t = s ∨ ∃ u : State, (∃ rest, u = { s with pending := rest }) ∧
      (t = u ∨ (∃ i, (s.fault = true → i = .clr) ∧ exec i u = .next t) ∨ (s.fault = false ∧ t = u.takeFault .illegalCommand) ∨
       (∃ n, t = u.readPort n) ∨ (∃ bytes, bytes.length < Config.inputLimit ∧ t = u.bindInput bytes) ∨ t = u.hardReset) := by
  unfold step at h
  split at h
  · cases h; exact .inl rfl
  · rename_i a rest _
    refine .inr ⟨_, ⟨rest, rfl⟩, ?_⟩
    generalize hu : ({ s with pending := rest } : State) = u at h
    have hf : u.fault = s.fault := by rw [← hu]
    cases a with
    | write n w =>
      change (if n = 0x000 then command w u else .next u) = Host.Outcome.next t at h
      split at h
      · unfold command at h
        split at h
        · cases h; exact .inl rfl
        · rename_i hc
          split at h
          · rename_i i hi
            refine .inr (.inl ⟨i, fun hft => ?_, h⟩)
            have hw : w = 0x0100#16 := Classical.byContradiction fun hne => hc ⟨by rw [hf]; exact hft, hne⟩
            subst hw
            have : decode 0x0100#16 = .ok .clr := by decide
            rw [this] at hi; cases hi; rfl
          · rename_i hi
            cases h
            refine .inr (.inr (.inl ⟨?_, rfl⟩))
            by_contra hft
            have hw : w = 0x0100#16 := Classical.byContradiction fun hne => hc ⟨by rw [hf]; simpa using hft, hne⟩
            subst hw
            have : decode 0x0100#16 = .ok .clr := by decide
            rw [this] at hi; cases hi
      · cases h; exact .inl rfl
    | read n => cases h; exact .inr (.inr (.inr (.inl ⟨n, rfl⟩)))
    | bind bytes =>
      change (if bytes.length < Config.inputLimit then .next (u.bindInput bytes) else .refused Refusal.bindTooLong) = Host.Outcome.next t at h
      split at h
      · rename_i hl; cases h; exact .inr (.inr (.inr (.inr (.inl ⟨bytes, hl, rfl⟩))))
      · cases h
    | takeOut => cases h; exact .inl rfl
    | hardReset => cases h; exact .inr (.inr (.inr (.inr (.inr rfl))))

/-! The stream invariant. -/

theorem stream_of_le {s t : State} (h : s.StreamInv) (h1 : t.inp = s.inp) (h2 : t.iptr.toNat ≤ s.inp.length) : t.StreamInv :=
  StreamInv.congr h h1 h2

/-- A byte read keeps `IPTR` inside the input. -/
theorem inNext_stream {s t : State} {v : Byte} (h : s.StreamInv) (hn : s.inNext = some (v, t)) : t.StreamInv := by
  obtain ⟨h1, rfl⟩ := (inNext_some_iff s t v).mp hn
  have hl : s.iptr.toNat < s.inp.length := by
    by_contra hc
    rw [List.getElem?_eq_none (by omega)] at h1; cases h1
  exact StreamInv.congr h rfl (by rw [ptr_add_one h hl]; omega)

theorem nextBit_stream {s t : State} {b : Bool} (h : s.StreamInv) (hn : s.nextBit = some (b, t)) : t.StreamInv := by
  unfold State.nextBit at hn
  split at hn
  · split at hn
    · cases hn
    · rename_i hu; cases hn
      have := inNext_stream h hu
      exact ⟨this.short, this.pointer⟩
  · cases hn; exact ⟨h.short, h.pointer⟩

theorem fcntBody_stream {s : State} (h : s.StreamInv) : (fcntBody s).All State.StreamInv (fun _ => State.StreamInv) := by
  have loop : ∀ n (s : State), s.StreamInv → (fcntLoop n s).All State.StreamInv (fun _ => State.StreamInv) := by
    intro n
    induction n with
    | zero => exact fun s h => h
    | succ n ih =>
      intro s h
      unfold fcntLoop
      split
      · exact h
      · rename_i v u hu
        have hs := inNext_stream h hu
        split
        · exact hs
        · exact ih _ ⟨hs.short, hs.pointer⟩
  exact loop _ _ ⟨h.short, h.pointer⟩

theorem writeBits_stream {s : State} (h : s.StreamInv) (x : Bits) : (s.writeBits x).StreamInv := ⟨by simpa using h.short, by simpa using h.pointer⟩

theorem emitBody_stream {s : State} (h : s.StreamInv) : (emitBody s).All State.StreamInv (fun _ => State.StreamInv) := by
  have loop : ∀ n (s : State), s.StreamInv → (emitLoop n s).All State.StreamInv (fun _ => State.StreamInv) := by
    intro n
    induction n with
    | zero => exact fun s h => h
    | succ n ih =>
      intro s h
      unfold emitLoop
      split
      · exact h
      · rename_i v u hu
        have hs := inNext_stream h hu
        split
        · exact hs
        · exact ih _ (writeBits_stream hs _)
  unfold emitBody
  split
  · exact loop _ _ h
  · exact h

theorem tdesBody_stream {s : State} (h : s.StreamInv) : (tdesBody s).All State.StreamInv (fun _ => State.StreamInv) := by
  rcases tdesBody_cases s h with ⟨t, y, u, g1, g2, g3, g4, g5, -⟩ | ⟨u, g1, g2, g3, g4⟩ | ⟨u, g1, g2, g3⟩
  · rw [g3]; exact g5
  · rw [g1]; exact g3
  · rw [g1]; exact g2

theorem rseedBody_stream {s : State} (h : s.StreamInv) : (rseedBody s).All State.StreamInv (fun _ => State.StreamInv) := by
  unfold rseedBody
  split
  · exact h
  · rename_i v u hu
    have := inNext_stream h hu
    exact ⟨this.short, this.pointer⟩

theorem rskip3Body_stream {s : State} (h : s.StreamInv) : (rskip3Body s).All State.StreamInv (fun _ => State.StreamInv) := by
  have loop : ∀ n (s : State), s.StreamInv → (skipBytes n s).All State.StreamInv (fun _ => State.StreamInv) := by
    intro n
    induction n with
    | zero => exact fun s h => h
    | succ n ih =>
      intro s h
      unfold skipBytes
      split
      · exact h
      · rename_i v u hu
        exact ih _ (inNext_stream h hu)
  exact loop _ _ h

theorem rbitBody_stream {s : State} (h : s.StreamInv) : (rbitBody s).All State.StreamInv (fun _ => State.StreamInv) := by
  unfold rbitBody
  split
  · exact h
  · rename_i b u hu
    have := nextBit_stream h hu
    exact ⟨this.short, this.pointer⟩

theorem walkBit_stream {s : State} (b : Bool) (h : s.StreamInv) : (walkBit b s).All State.StreamInv (fun _ => State.StreamInv) := by
  unfold walkBit
  split
  · trivial
  · split
    · split
      · exact h
      · exact ⟨h.short, h.pointer⟩
    · split
      · trivial
      · split <;> exact ⟨h.short, h.pointer⟩

theorem walkBody_stream {s : State} (h : s.StreamInv) : (walkBody s).All State.StreamInv (fun _ => State.StreamInv) := by
  have loop : ∀ n (s : State), s.StreamInv → (walkLoop n s).All State.StreamInv (fun _ => State.StreamInv) := by
    intro n
    induction n with
    | zero => exact fun s h => h
    | succ n ih =>
      intro s h
      unfold walkLoop
      split
      · exact h
      · rename_i b u hu
        exact all_andThen (walkBit_stream b (nextBit_stream h hu)) (fun t ht => ih t ht)
  unfold walkBody
  split
  · exact loop _ _ ⟨h.short, h.pointer⟩
  · exact h

/-! The writer's invariant (`45_bit_writer.md` R193). -/

/-- The accumulator holds no bit above the count. -/
def State.held (s : State) : Prop := s.acc.toNat < 2 ^ s.wcnt.val

theorem writeBits_held {s : State} (h : s.held) (x : Bits) : (s.writeBits x).held := (writeBits_bits s x h).1

theorem flush_held (s : State) (h : s.held) : s.flush.held := by
  obtain ⟨h1, h2, -⟩ := flush_bits s h
  unfold State.held
  rw [h1, h2]; decide

theorem emitBody_held {s : State} (h : s.held) : (emitBody s).All State.held (fun _ _ => True) := by
  have loop : ∀ n (s : State), s.held → (emitLoop n s).All State.held (fun _ _ => True) := by
    intro n
    induction n with
    | zero => exact fun s h => h
    | succ n ih =>
      intro s h
      unfold emitLoop
      split
      · exact h
      · rename_i v u hu
        have hs : u.held := by rw [inNext_frame hu]; exact h
        split
        · trivial
        · exact ih _ (writeBits_held hs _)
  unfold emitBody
  split
  · exact loop _ _ h
  · trivial

/-! The composites. -/

/-- What `ENCODE` leaves unchanged, and what it leaves (`47_encoder.md` R217). -/
theorem encodeBody_frame (s : State) :
    (encodeBody s).All
      (fun u => u.wellFormed = true ∧ u.pos = u.root ∧ u.tv = true ∧ u.cv = true ∧ u.inq = Vector.replicate 511 false ∧ u.held ∧
        u.fault = false ∧ u.err = .none ∧ u.res = false ∧ ∃ t, u.tree = some t ∧ ∀ v, u.code v = t.codeOf v)
      (fun e u => e ≠ .none ∧ u.inq = Vector.replicate 511 false) := by
  unfold encodeBody encodeScan
  refine all_andThen (P := s.clear.countFrame) ?_ ?_
  · refine all_andThen (all_mono (fcntBody_frame s.clear) (fun u hu => hu) (fun e u hu => ⟨by rw [hu.1]; decide, by rw [hu.2]; rfl⟩)) ?_
    intro u hu
    split
    · exact ⟨by decide, by rw [hu]; rfl⟩
    · exact hu
  · intro u1 h1
    generalize hr : tbuildBody u1 = r
    have hb := tbuildBody_frame hr
    refine all_andThen (all_mono hb (fun u hu => hu) (fun e u hu => ⟨by rw [hu.1]; decide, hu.2.2.2.1⟩)) ?_
    rintro u2 ⟨f2, w2, p2, tv2, cv2, q2⟩
    refine all_andThen (all_mono (ctgenBody_frame u2) (fun u hu => hu) (fun e u hu => ⟨by rw [hu.1]; decide, by rw [hu.2]; exact q2⟩)) ?_
    rintro u3 ⟨f3, -, t, ht, hc⟩
    have q3 : u3.inq = Vector.replicate 511 false := by rw [f3]; exact q2
    refine all_andThen (all_mono (tserBody_frame u3) (fun u hu => hu) (fun e u hu => ⟨by rw [hu.1]; decide, by rw [hu.2]; exact q3⟩)) ?_
    rintro u4 ⟨t', ht', f4⟩
    have a0 : u3.held := by rw [f3, f2, h1]; show (0#8).toNat < 2 ^ (0 : Fin 8).val; decide
    have a4 : u4.held := by rw [f4]; exact writeBits_held a0 _
    generalize h5 : u4.flush.writeMarker.rewind = u5
    have a5 : u5.held := by
      have := flush_held u4 a4
      rw [← h5]; unfold State.held at *; simpa using this
    have n5 : u5.nodes = u2.nodes := by rw [← h5]; simp [f4]; rw [f3]
    have c5 : u5.ncnt = u2.ncnt := by rw [← h5]; simp [f4]; rw [f3]
    have r5 : u5.root = u2.root := by rw [← h5]; simp [f4]; rw [f3]
    have p5 : u5.pos = u2.pos := by rw [← h5]; simp [f4]; rw [f3]
    have tv5 : u5.tv = u2.tv := by rw [← h5]; simp [f4]; rw [f3]
    have cv5 : u5.cv = true := by rw [← h5]; simp [f4]; rw [f3]
    have q5 : u5.inq = Vector.replicate 511 false := by rw [← h5]; simp [f4, q3]
    have ct5 : u5.ct = u3.ct := by rw [← h5]; simp [f4]
    have ff5 : u5.fault = false := by rw [← h5]; simp [f4]; rw [f3, f2, h1]; rfl
    have ee5 : u5.err = .none := by rw [← h5]; simp [f4]; rw [f3, f2, h1]; rfl
    have rr5 : u5.res = false := by rw [← h5]; simp [f4]; rw [f3, f2, h1]; rfl
    refine all_andThen (all_mono (all_and (emitBody_frame u5) (emitBody_held a5)) (fun u hu => hu)
      (fun e u hu => ⟨by rw [hu.1.1]; decide, by rw [hu.1.2]; exact q5⟩)) ?_
    rintro u6 ⟨f6, a6⟩
    have code6 : ∀ v, u6.code v = t.codeOf v := by
      intro v; rw [← hc v]; unfold State.code; rw [f6, ct5]
    have tree6 : u6.tree = some t := by
      rw [← ht]; exact tree_congr (by rw [f6]; exact n5) (by rw [f6]; exact c5) (by rw [f6]; exact r5)
    have wf6 : u6.wellFormed = true := by
      rw [← w2]; exact wellFormed_congr (by rw [f6]; exact n5) (by rw [f6]; exact c5) (by rw [f6]; exact r5)
    refine ⟨?_, ?_, ?_, ?_, ?_, flush_held u6 a6, ?_, ?_, ?_, t, ?_, ?_⟩
    · rw [← wf6]; apply wellFormed_congr <;> simp
    · simp; rw [f6]; show u5.pos = u5.root; rw [p5, r5, p2]
    · simp; rw [f6]; show u5.tv = true; rw [tv5, tv2]
    · simp; rw [f6]; exact cv5
    · simp; rw [f6]; exact q5
    · simp; rw [f6]; exact ff5
    · simp; rw [f6]; exact ee5
    · simp; rw [f6]; exact rr5
    · rw [← tree6]; apply tree_congr <;> simp
    · intro v; rw [← code6 v]; simp [State.code]

theorem encodeBody_stream {s : State} (h : s.StreamInv) : (encodeBody s).All State.StreamInv (fun _ => State.StreamInv) := by
  unfold encodeBody encodeScan
  have h0 : s.clear.StreamInv := ⟨h.short, Nat.zero_le _⟩
  refine all_andThen (P := State.StreamInv) (all_andThen (fcntBody_stream h0) ?_) ?_
  · intro u hu; split <;> exact hu
  · intro u1 h1
    generalize hr : tbuildBody u1 = r
    have hb := tbuildBody_frame hr
    refine all_andThen (P := State.StreamInv) (all_mono hb (fun u hu => ?_) (fun e u hu => ?_)) ?_
    · obtain ⟨f, -⟩ := hu; rw [f]; exact ⟨h1.short, h1.pointer⟩
    · exact ⟨by rw [hu.2.1]; exact h1.short, by rw [hu.2.1, hu.2.2.1]; exact h1.pointer⟩
    intro u2 h2
    refine all_andThen (P := State.StreamInv) (all_mono (ctgenBody_frame u2) (fun u hu => ?_) (fun e u hu => by rw [hu.2]; exact h2)) ?_
    · obtain ⟨f, -⟩ := hu; rw [f]; exact ⟨h2.short, h2.pointer⟩
    intro u3 h3
    refine all_andThen (P := State.StreamInv) (all_mono (tserBody_frame u3) (fun u hu => ?_) (fun e u hu => by rw [hu.2]; exact h3)) ?_
    · obtain ⟨t, -, f⟩ := hu; rw [f]; exact writeBits_stream h3 _
    intro u4 h4
    refine all_andThen (emitBody_stream ⟨by simpa using h4.short, by simp⟩) ?_
    intro u5 h5
    exact ⟨by simpa using h5.short, by simpa using h5.pointer⟩

/-- What `DECODE` leaves unchanged, and what it leaves (`48_decoder.md` R241). -/
theorem decodeBody_frame (s : State) :
    (decodeBody s).All
      (fun u => u.wellFormed = true ∧ u.atInner ∧ u.tv = true ∧ u.cv = false ∧ u.inq = Vector.replicate 511 false ∧ u.held ∧
        u.fault = false ∧ u.err = .none ∧ u.res = false)
      (fun e u => e ≠ .none ∧ u.inq = Vector.replicate 511 false) := by
  unfold decodeBody
  refine all_andThen (P := s.clear.readFrame) ?_ ?_
  · refine all_endAsCorrupt (all_mono (rseedBody_frame s.clear) (fun u hu => hu) (fun e u hu => ⟨by rw [hu.1]; decide, by rw [hu.2]; rfl⟩)) ?_
    intro u hu; exact ⟨by decide, hu.2⟩
  intro u1 h1
  refine all_andThen (all_mono (tdesBody_frame u1) (fun u hu => hu)
    (fun e u hu => ⟨by rcases hu.1 with e' | e' <;> rw [e'] <;> decide, by rw [hu.2, h1]; rfl⟩)) ?_
  rintro u2 ⟨f2, w2, r2, p2, tv2, cv2, -⟩
  have q2 : u2.inq = Vector.replicate 511 false := by rw [f2, h1]; rfl
  refine all_andThen (P := u2.alignReader.readFrame) ?_ ?_
  · refine all_endAsCorrupt (all_mono (skipBytes_frame 3 u2.alignReader) (fun u hu => hu)
      (fun e u hu => ⟨by rw [hu.1]; decide, by rw [hu.2]; exact q2⟩)) ?_
    intro u hu; exact ⟨by decide, hu.2⟩
  intro u3 h3
  have wf3 : u3.wellFormed = true := by
    rw [← w2]; exact wellFormed_congr (by rw [h3]; rfl) (by rw [h3]; rfl) (by rw [h3]; rfl)
  refine all_mono (walkBody_frame u3 (fun _ => wellFormed_root wf3)) ?_ ?_
  · rintro u ⟨f, hp, -⟩
    refine ⟨?_, hp, ?_, ?_, ?_, ?_, ?_, ?_, ?_⟩
    · rw [← wf3]; exact wellFormed_congr (by rw [f]) (by rw [f]) (by rw [f])
    · rw [f, h3]; exact tv2
    · rw [f, h3]; exact cv2
    · rw [f, h3]; exact q2
    · rw [f, h3, ]; show u2.held; rw [f2, h1]; show (0#8).toNat < 2 ^ (0 : Fin 8).val; decide
    · rw [f, h3]; show u2.fault = _; rw [f2, h1]; rfl
    · rw [f, h3]; show u2.err = _; rw [f2, h1]; rfl
    · rw [f, h3]; show u2.res = _; rw [f2, h1]; rfl
  · rintro e u ⟨he, f⟩
    exact ⟨by rcases he with e' | e' <;> rw [e'] <;> decide, by rw [f, h3]; exact q2⟩

theorem decodeBody_stream {s : State} (h : s.StreamInv) : (decodeBody s).All State.StreamInv (fun _ => State.StreamInv) := by
  unfold decodeBody
  have h0 : s.clear.StreamInv := ⟨h.short, Nat.zero_le _⟩
  refine all_andThen (all_endAsCorrupt (rseedBody_stream h0) (fun u hu => hu)) ?_
  intro u1 h1
  refine all_andThen (tdesBody_stream h1) ?_
  intro u2 h2
  exact all_andThen (all_endAsCorrupt (rskip3Body_stream (s := u2.alignReader) ⟨h2.short, h2.pointer⟩) (fun u hu => hu)) (fun u hu => walkBody_stream hu)

end Sys2Proof.Machine
end

