-- ==== Sys2Proof/Laws/Reader.lean ====
section
/-! SUPPORT. Where `IPTR` stands after bits are read (`46_bit_reader.md` R205, R208), and what `TDES` and `WALK` have read at a fault
(`44_tree_serdes.md` R176, `48_decoder.md` R239, `60_exceptions.md` R270). -/

namespace Sys2Proof.Machine

/-- From `s` the bits `x` have been delivered, and `u` is left. -/
structure State.readTo (s u : State) (x : Bits) : Prop where
  stream : u.StreamInv
  inp : u.inp = s.inp
  bits : s.restBits = x ++ u.restBits
  still : x = [] → u.rpos = s.rpos ∧ u.iptr = s.iptr
  inside : x ≠ [] → u.rpos.val ≠ 0

theorem readTo_refl {s : State} (h : s.StreamInv) : s.readTo s [] := ⟨h, rfl, rfl, fun _ => ⟨rfl, rfl⟩, fun h => absurd rfl h⟩

theorem readTo_trans {s u w : State} {x y : Bits} (h1 : s.readTo u x) (h2 : u.readTo w y) : s.readTo w (x ++ y) where
  stream := h2.stream
  inp := h2.inp.trans h1.inp
  bits := by rw [h1.bits, h2.bits, List.append_assoc]
  still := fun h => by
    obtain ⟨hx, hy⟩ := List.append_eq_nil_iff.mp h
    exact ⟨(h2.still hy).1.trans (h1.still hx).1, (h2.still hy).2.trans (h1.still hx).2⟩
  inside := fun h => by
    by_cases hy : y = []
    · rw [(h2.still hy).1]
      exact h1.inside fun hx => h (by rw [hx, hy]; rfl)
    · exact h2.inside hy

/-- The input pointer after the bits `x`. -/
theorem readTo_iptr {s u : State} {x : Bits} (hs : s.StreamInv) (h : s.readTo u x) : u.iptr.toNat = s.iptrAfter x.length := by
  have hl := congrArg List.length h.bits
  rw [List.length_append, ← bitsLeft_eq, ← bitsLeft_eq, State.bitsLeft, State.bitsLeft, State.bytesLeft, State.bytesLeft, h.inp] at hl
  have p1 := hs.pointer
  have p2 := h.stream.pointer
  rw [h.inp] at p2
  have r1 := s.rpos.isLt
  have r2 := u.rpos.isLt
  unfold State.iptrAfter
  by_cases hx : x = []
  · rw [(h.still hx).2, hx]
    simp only [List.length_nil]
    omega
  · have := h.inside hx
    have := List.length_pos_of_ne_nil hx
    omega

theorem nextBit_readTo {s t : State} {b : Bool} (h : s.StreamInv) (hn : s.nextBit = some (b, t)) : s.readTo t [b] := by
  have hs := nextBit_spec h
  have hf := nextBit_frame hn
  cases e : s.restBits with
  | nil => rw [e] at hs; simp only at hs; rw [hs] at hn; cases hn
  | cons c cs =>
    rw [e] at hs; simp only at hs
    obtain ⟨u, h1, h2, h3, -⟩ := hs
    rw [hn] at h1
    cases h1
    refine ⟨h3, by rw [hf], by rw [h2]; exact e, (fun h => nomatch h), fun _ => ?_⟩
    have step : ∀ r : Fin 9, r.val ≠ 8 → (r + 1).val ≠ 0 := by decide
    unfold State.nextBit at hn
    split at hn
    · split at hn
      · cases hn
      · cases hn; exact step 0 (by decide)
    · rename_i hr; cases hn; exact step _ hr

/-! `TDES`. -/

theorem desBit_reads {s : State} (h : s.StreamInv) :
    (desBit s).All (fun p => s.readTo p.2 [p.1]) (fun e _ => e = .corruptStream ∧ s.restBits = []) := by
  unfold desBit
  split
  · rename_i hn
    refine ⟨rfl, ?_⟩
    have hs := nextBit_spec h
    cases e : s.restBits with
    | nil => rfl
    | cons b x =>
      rw [e] at hs
      obtain ⟨u, h1, -⟩ := hs
      rw [hn] at h1; cases h1
  · rename_i hn; exact nextBit_readTo h hn

theorem desValue_reads (n : Nat) (v : Byte) {s : State} (h : s.StreamInv) :
    (desValue n v s).All (fun p => ∃ x : Bits, x.length = n ∧ s.readTo p.2 x) (fun e _ => e = .corruptStream ∧ s.restBits.length < n) := by
  induction n generalizing v s with
  | zero => exact ⟨[], rfl, readTo_refl h⟩
  | succ n ih =>
    unfold desValue
    refine all_andThen (all_mono (desBit_reads h) (fun _ h => h) (fun e _ he => ⟨he.1, by rw [he.2]; exact Nat.succ_pos n⟩)) ?_
    rintro ⟨b, u⟩ hu
    refine all_mono (ih _ hu.stream) ?_ ?_
    · rintro p ⟨x, hx, hp⟩
      exact ⟨b :: x, by simp [hx], readTo_trans hu hp⟩
    · rintro e _ ⟨he, hl⟩
      exact ⟨he, by rw [hu.bits]; simpa using hl⟩

theorem eight_bits {x : Bits} (h : x.length = 8) : ∃ v, x = byteBits v :=
  ⟨(x.take 8).foldl shiftIn 0#8, by rw [byteBits_of_take (by omega), List.take_of_length_le (by omega)]⟩

/-- From `s` the whole nodes `ns` have been read into as many new entries, and `u` is left. -/
structure State.readNodes (s u : State) (ns : List Bits) : Prop where
  count : u.ncnt.val = s.ncnt.val + ns.length
  nodes : ∀ x ∈ ns, isNodeBits x
  read : s.readTo u ns.flatten

theorem readNodes_refl {s : State} (h : s.StreamInv) : s.readNodes s [] := ⟨rfl, (fun _ h => nomatch h), readTo_refl h⟩

theorem readNodes_trans {s u w : State} {ns ms : List Bits} (h1 : s.readNodes u ns) (h2 : u.readNodes w ms) : s.readNodes w (ns ++ ms) where
  count := by rw [h2.count, h1.count, List.length_append, Nat.add_assoc]
  nodes := fun x hx => (List.mem_append.mp hx).elim (h1.nodes x) (h2.nodes x)
  read := by rw [List.flatten_append]; exact readTo_trans h1.read h2.read

/-- Writing an entry reads nothing. -/
theorem readNodes_setNode {s u : State} {ns : List Bits} (h : s.readNodes u ns) (i : Idx) (n : NodeRec) : s.readNodes (u.setNode i n) ns :=
  ⟨h.count, h.nodes, ⟨h.read.stream.short, h.read.stream.pointer⟩, h.read.inp, h.read.bits, h.read.still, h.read.inside⟩

/-- The bits left at `s` are whole nodes that leave an entry of the arena free, then bits that no whole node begins. -/
def State.endsInANode (s : State) : Prop :=
  ∃ (ns : List Bits) (y : Bits), s.ncnt.val + ns.length < 511 ∧ (∀ x ∈ ns, isNodeBits x) ∧ s.restBits = ns.flatten ++ y ∧
    ∀ z w, isNodeBits z → y ≠ z ++ w

theorem endsInANode_of_readNodes {s u : State} {ns : List Bits} (h : s.readNodes u ns) (hu : u.endsInANode) : s.endsInANode := by
  obtain ⟨ms, y, h1, h2, h3, h4⟩ := hu
  refine ⟨ns ++ ms, y, by rw [List.length_append, ← Nat.add_assoc, ← h.count]; exact h1,
    fun x hx => (List.mem_append.mp hx).elim (h.nodes x) (h2 x), ?_, h4⟩
  rw [h.read.bits, h3, List.flatten_append, List.append_assoc]

/-- `Des` reads whole nodes up to its end; up to `TreeTooLarge` exactly as many as fill the arena; and it raises `CorruptStream` only
where the bits end in a node that still had an entry. -/
theorem des_reads (n : Nat) {s : State} (h : s.StreamInv) (hn : 512 ≤ n + s.ncnt.val) :
    (des n s).All (fun p => ∃ ns, s.readNodes p.2 ns)
      (fun e t => (e = .corruptStream ∧ s.endsInANode) ∨ (e = .treeTooLarge ∧ t.ncnt.val = 511 ∧ ∃ ns, s.readNodes t ns)) := by
  induction n generalizing s with
  | zero => exact absurd s.ncnt.isLt (by omega)
  | succ n ih =>
    unfold des
    split
    · rename_i hf
      exact .inr ⟨rfl, hf, [], readNodes_refl h⟩
    · rename_i hfull
      have hlt : s.ncnt.val < 511 := by
        have := s.ncnt.isLt
        have : s.ncnt.val ≠ 511 := hfull
        omega
      refine all_andThen (all_mono (all_and (desBit_reads h) (desBit_frame s)) (fun _ h => h) ?_) ?_
      · rintro e t ⟨⟨he, hr⟩, -⟩
        refine .inl ⟨he, [], [], hlt, (fun _ h => nomatch h), hr, ?_⟩
        rintro z w (rfl | ⟨v, rfl⟩) hz <;> cases hz
      rintro ⟨b, u⟩ ⟨hu, hc⟩
      simp only at hu hc
      have hac := allocNode_next (s := u) (by rw [hc]; exact hfull)
      rw [show u.ncnt = s.ncnt by rw [hc]] at hac
      have hua : s.readTo u.allocNode [b] := ⟨⟨hu.stream.short, hu.stream.pointer⟩, hu.inp, hu.bits, hu.still, hu.inside⟩
      cases b with
      | true =>
        simp only [if_true]
        refine all_andThen (all_mono (all_and (desValue_reads 8 0#8 hua.stream) (desValue_frame 8 0#8 u.allocNode)) (fun _ h => h) ?_) ?_
        · rintro e t ⟨⟨he, hl⟩, -⟩
          refine .inl ⟨he, [], s.restBits, hlt, (fun _ h => nomatch h), rfl, ?_⟩
          rintro z w hz hb
          rw [hua.bits] at hb
          rcases hz with rfl | ⟨v, rfl⟩
          · cases hb
          · have := congrArg List.length (List.cons.inj hb).2
            simp at this
            omega
        rintro ⟨v, w⟩ ⟨⟨x, hx, hw⟩, hf⟩
        simp only at hw hf
        obtain ⟨c, rfl⟩ := eight_bits hx
        refine ⟨[true :: byteBits c], readNodes_setNode ⟨by rw [hf]; exact hac, ?_, ?_⟩ _ _⟩
        · intro x hx
          rw [List.mem_singleton.mp hx]; exact .inr ⟨c, rfl⟩
        · simpa using readTo_trans hua hw
      | false =>
        simp only [Bool.false_eq_true, if_false]
        have h0 : s.readNodes u.allocNode [[false]] := ⟨hac, (fun x hx => .inl (List.mem_singleton.mp hx)), hua⟩
        refine all_andThen (all_mono (ih hua.stream (by rw [hac]; omega)) (fun _ h => h) ?_) ?_
        · rintro e t (⟨he, hc⟩ | ⟨he, hf, ns, hs⟩)
          · exact .inl ⟨he, endsInANode_of_readNodes h0 hc⟩
          · exact .inr ⟨he, hf, _, readNodes_trans h0 hs⟩
        rintro ⟨l, w⟩ ⟨ns, h1⟩
        have h2 := readNodes_trans h0 h1
        refine all_andThen (all_mono (ih h1.read.stream (by have := h2.count; simp at this ⊢; omega)) (fun _ h => h) ?_) ?_
        · rintro e t (⟨he, hc⟩ | ⟨he, hf, ms, hs⟩)
          · exact .inl ⟨he, endsInANode_of_readNodes h2 hc⟩
          · exact .inr ⟨he, hf, _, readNodes_trans h2 hs⟩
        rintro ⟨r, y⟩ ⟨ms, h3⟩
        exact ⟨_, readNodes_setNode (readNodes_trans h2 h3) _ _⟩

/-- What `TDES` has read at its end: whole nodes; at `TreeTooLarge`: 511 of them; at `CorruptStream` the bits end in a node. -/
theorem tdesBody_reads {s : State} (h : s.StreamInv) :
    (tdesBody s).All (fun t => ∃ ns : List Bits, s.readTo t ns.flatten)
      (fun e t => (e = .corruptStream ∧ ({ s.clearTreeValid with ncnt := 0 } : State).endsInANode) ∨
        (e = .treeTooLarge ∧ ∃ ns : List Bits, ns.length = 511 ∧ (∀ x ∈ ns, isNodeBits x) ∧ s.readTo t ns.flatten)) := by
  unfold tdesBody
  have hs : ({ s.clearTreeValid with ncnt := 0 } : State).StreamInv := ⟨h.short, h.pointer⟩
  refine all_andThen (all_mono (des_reads Config.desFuel hs (by show 512 ≤ 512 + 0; decide)) (fun _ h => h) ?_) ?_
  · rintro e t (he | ⟨he, hf, ns, hns⟩)
    · exact .inl he
    · have hc := hns.count
      have hz : ({ s.clearTreeValid with ncnt := 0 } : State).ncnt.val = 0 := rfl
      have hr := hns.read
      exact .inr ⟨he, ns, by rw [hz] at hc; omega, hns.nodes, ⟨hr.stream, hr.inp, hr.bits, hr.still, hr.inside⟩⟩
  · rintro ⟨r, t⟩ ⟨ns, hns⟩
    have hr := hns.read
    exact ⟨ns, ⟨hr.stream.short, hr.stream.pointer⟩, hr.inp, hr.bits, hr.still, hr.inside⟩

/-! The bits of a tree, node by node. -/

theorem nodeBits_flatten (t : Tree) : t.nodeBits.flatten = t.serBits := by
  induction t with
  | leaf v => simp [Tree.nodeBits, Tree.serBits]
  | node l r h1 h2 => simp [Tree.nodeBits, Tree.serBits, h1, h2]

theorem nodeBits_length (t : Tree) : t.nodeBits.length = t.nodeCount := by
  induction t with
  | leaf v => rfl
  | node l r h1 h2 => simp only [Tree.nodeBits, Tree.nodeCount, List.length_cons, List.length_append, h1, h2]; omega

theorem nodeBits_isNodeBits (t : Tree) : ∀ x ∈ t.nodeBits, isNodeBits x := by
  induction t with
  | leaf v => intro x hx; rw [List.mem_singleton.mp hx]; exact .inr ⟨v, rfl⟩
  | node l r h1 h2 =>
    intro x hx
    simp only [Tree.nodeBits, List.mem_cons, List.mem_append] at hx
    rcases hx with rfl | hx | hx
    · exact .inl rfl
    · exact h1 x hx
    · exact h2 x hx

/-- The first node's bits are read in one way only. -/
theorem isNodeBits_head {x y a b : Bits} (hx : isNodeBits x) (hy : isNodeBits y) (h : x ++ a = y ++ b) : x = y := by
  rcases hx with rfl | ⟨v, rfl⟩ <;> rcases hy with rfl | ⟨w, rfl⟩
  · rfl
  · cases h
  · cases h
  · simp only [List.cons_append, List.cons.injEq, true_and] at h
    rw [(List.append_inj h rfl).1]

/-- A bit string is cut into nodes in one way only. -/
theorem nodes_prefix {ns ms : List Bits} {a b : Bits} (hn : ∀ x ∈ ns, isNodeBits x) (hm : ∀ x ∈ ms, isNodeBits x)
    (h : ns.flatten ++ a = ms.flatten ++ b) (hl : ns.length ≤ ms.length) : ns = ms.take ns.length := by
  induction ns generalizing ms with
  | nil => rfl
  | cons x ns ih =>
    cases ms with
    | nil => simp at hl
    | cons y ms =>
      simp only [List.flatten_cons, List.append_assoc] at h
      have hxy := isNodeBits_head (hn x (by simp)) (hm y (by simp)) h
      subst hxy
      rw [List.length_cons, List.take_succ_cons, ← ih (fun z hz => hn z (by simp [hz])) (fun z hz => hm z (by simp [hz]))
        (List.append_cancel_left h) (by simpa using hl)]

/-- Where the bits end in a node, they hold fewer than 511 whole nodes. -/
theorem endsInANode_nodes {s : State} (h : s.endsInANode) (hz : s.ncnt.val = 0) {ms : List Bits} (hm : ∀ x ∈ ms, isNodeBits x)
    (hp : ms.flatten <+: s.restBits) : ms.length < 511 := by
  obtain ⟨ns, y, h1, h2, h3, h4⟩ := h
  obtain ⟨w, hw⟩ := hp
  by_contra hc
  have he := nodes_prefix h2 hm (h3.symm.trans hw.symm) (by omega)
  cases hd : ms.drop ns.length with
  | nil =>
    have := congrArg List.length hd
    simp at this
    omega
  | cons z zs =>
    have hs : ms = ns ++ z :: zs := by rw [← hd, ← List.take_append_drop ns.length ms, ← he]; simp
    refine h4 z (zs.flatten ++ w) (hm z (by rw [hs]; simp)) (List.append_cancel_left (as := ns.flatten) ?_)
    rw [← h3, ← hw, hs]
    simp

/-! `WALK`. -/

/-- The walk ends at a 1 only from a leaf root, after zeros. -/
theorem walkFrom_none (root : Tree) (e : Tree) (x : Bits) (hr : e = root ∨ ∃ l r, e = .node l r) (h : (root.walkFrom e x).2 = none) :
    ∃ v, root = .leaf v := by
  induction x generalizing e with
  | nil => cases e <;> simp [Tree.walkFrom] at h
  | cons b x ih =>
    cases e with
    | leaf v =>
      rcases hr with rfl | ⟨l, r, he⟩
      · exact ⟨v, rfl⟩
      · cases he
    | node l r =>
      have sub : ∀ t : Tree, root.walkFrom (.node l r) (b :: x) = (match t with
          | .leaf v => (v :: (root.walkFrom root x).1, (root.walkFrom root x).2)
          | .node l' r' => root.walkFrom (.node l' r') x) → ∃ v, root = .leaf v := by
        intro t ht
        rw [ht] at h
        cases t with
        | leaf v => exact ih root (.inl rfl) h
        | node l' r' => exact ih _ (.inr ⟨l', r', rfl⟩) h
      cases b with
      | false => exact sub l rfl
      | true => exact sub r rfl

theorem walkFrom_leaf_none {v : Byte} (x : Bits) (h : ((Tree.leaf v).walkFrom (.leaf v) x).2 = none) :
    ∃ n y, x = List.replicate n false ++ true :: y := by
  induction x with
  | nil => simp [Tree.walkFrom] at h
  | cons b x ih =>
    cases b with
    | true => exact ⟨0, x, rfl⟩
    | false =>
      obtain ⟨n, y, hy⟩ := ih h
      exact ⟨n + 1, y, by rw [hy]; rfl⟩

/-- At a leaf root the walk reads zeros and stops at the first 1. -/
theorem walkLoop_leaf (n k : Nat) (y : Bits) {s : State} {nd : NodeRec} (h : s.StreamInv) (hp : s.node s.pos = some nd)
    (hl : nd.leaf = true) (hb : s.restBits = List.replicate k false ++ true :: y) (hk : k < n) :
    (walkLoop n s).All (fun _ => False) (fun _ t => s.readTo t (List.replicate k false ++ [true])) := by
  induction n generalizing s k with
  | zero => exact absurd hk (by omega)
  | succ n ih =>
    unfold walkLoop
    have hs := nextBit_spec h
    split
    · rename_i e
      cases k <;> (rw [hb] at hs; simp [List.replicate_succ, e] at hs)
    · rename_i b u e
      have hu := nextBit_readTo h e
      have hf := nextBit_frame e
      have hu' := hu.bits
      have hpu : u.node u.pos = some nd := by
        rw [node_congr (s := u) (u := s) (by rw [hf]) (by rw [hf]), show u.pos = s.pos by rw [hf]]; exact hp
      have hbit : walkBit b u = if b then .raised .corruptStream u else .ok (u.emitByte nd.val) := by
        unfold walkBit; rw [hpu]; simp only [hl, if_true]
      rw [hbit]
      cases k with
      | zero =>
        rw [hb] at hu'
        obtain ⟨rfl, -⟩ := List.cons.inj hu'
        exact hu
      | succ k =>
        rw [hb, List.replicate_succ] at hu'
        obtain ⟨rfl, hrest⟩ := List.cons.inj hu'
        refine all_mono (ih k (s := u.emitByte nd.val) ⟨hu.stream.short, hu.stream.pointer⟩ hpu hrest.symm (by omega)) (fun _ h => h) ?_
        intro e t ht
        have := readTo_trans hu (y := List.replicate k false ++ [true]) ⟨ht.stream, ht.inp, ht.bits, ht.still, ht.inside⟩
        exact this

/-- What `WALK` has read when it raises `CorruptStream`. -/
theorem walkBody_reads {s : State} {tr : Tree} (h : s.StreamInv) (htv : s.tv = true) (ht : s.tree = some tr)
    (hn : (tr.walkFrom tr s.restBits).2 = none) :
    ∃ n y, s.restBits = List.replicate n false ++ true :: y ∧
      (walkBody s).All (fun _ => False) (fun _ t => s.readTo t (List.replicate n false ++ [true])) := by
  obtain ⟨v, rfl⟩ := walkFrom_none tr tr _ (.inl rfl) hn
  obtain ⟨n, y, hy⟩ := walkFrom_leaf_none _ hn
  refine ⟨n, y, hy, ?_⟩
  obtain ⟨nd, hnd, ⟨hl, -⟩ | ⟨-, l, r, he, -⟩⟩ := treeAt_succ_cases (n := 255) ht
  · unfold walkBody
    rw [if_pos htv]
    have hlen : n < s.bitsLeft := by rw [bitsLeft_eq, hy]; simp
    exact all_mono (walkLoop_leaf s.bitsLeft n y (s := s.moveTo s.root) ⟨h.short, h.pointer⟩ hnd hl hy hlen) (fun _ h => h)
      (fun _ t ht => ⟨ht.stream, ht.inp, ht.bits, ht.still, ht.inside⟩)
  · cases he

end Sys2Proof.Machine
end

