-- ==== Sys2Proof/Machine/Assembler.lean ====
section
/-! DEFINITION. The assembler text the spec writes its programs in (`30_encoding.md` R97, R98; log 17). A program is a list of lines,
each of which assembles to at most one action of the host; there are no pseudo-instructions. -/

namespace Sys2Proof.Machine

/-- The mnemonic of a command (`30_encoding.md` R96). -/
def mnemonic : Instr → String
  | .nop => "NOP"
  | .clr => "CLR"
  | .rewind => "REWIND"
  | .fcnt => "FCNT"
  | .tbuild => "TBUILD"
  | .ctgen => "CTGEN"
  | .tser => "TSER"
  | .tdes => "TDES"
  | .wbit _ => "WBIT"
  | .wflush => "WFLUSH"
  | .rbit => "RBIT"
  | .wmark => "WMARK"
  | .emit => "EMIT"
  | .encode => "ENCODE"
  | .rseed => "RSEED"
  | .ralign => "RALIGN"
  | .rskip3 => "RSKIP3"
  | .walk => "WALK"
  | .decode => "DECODE"

/-- The commands that take no operand. -/
def plainCommands : List Instr :=
  [.nop, .clr, .rewind, .fcnt, .tbuild, .ctgen, .tser, .tdes, .wflush] ++
  [.rbit, .wmark, .emit, .encode, .rseed, .ralign, .rskip3, .walk, .decode]

/-- The words of a line: separated by spaces, up to `;` (`30_encoding.md` R97). -/
def lineWords : List Char → List (List Char)
  | [] => [[]]
  | c :: cs =>
    if c = ';' then [[]]
    else if c = ' ' then [] :: lineWords cs
    else
      match lineWords cs with
      | [] => [[c]]
      | w :: ws => (c :: w) :: ws

/-- The value of a hexadecimal digit (the notation of `95_test_vectors.md`). -/
def hexDigit (c : Char) : Option Nat :=
  if '0' ≤ c ∧ c ≤ '9' then some (c.toNat - 48)
  else if 'A' ≤ c ∧ c ≤ 'F' then some (c.toNat - 55)
  else if 'a' ≤ c ∧ c ≤ 'f' then some (c.toNat - 87)
  else none

/-- A byte, two hexadecimal digits without a prefix. -/
def hexByte : List Char → Option Byte
  | [a, b] =>
    match hexDigit a, hexDigit b with
    | some x, some y => some (BitVec.ofNat 8 (16 * x + y))
    | _, _ => none
  | _ => none

/-- The bytes of a `.bind`. -/
def hexBytes : List (List Char) → Option (List Byte)
  | [] => some []
  | w :: ws =>
    match hexByte w, hexBytes ws with
    | some v, some vs => some (v :: vs)
    | _, _ => none

/-- The command of a line's words, `WBIT` with its literal bit, any other with none (`30_encoding.md` R97). -/
def asmCommand (ws : List String) : Option Instr :=
  match ws with
  | [m] => plainCommands.find? (fun i => mnemonic i == m)
  | [m, x] =>
    if m == "WBIT" then (if x == "0" then some (.wbit false) else if x == "1" then some (.wbit true) else none) else none
  | _ => none

/-- One line: nothing for a blank or a comment, `Bind` for `.bind`, a write to `CMD` for a command; absent for any other text
(`30_encoding.md` R97). -/
def asmLine (line : String) : Option (List HostAction) :=
  match (lineWords line.toList).filter (fun w => !w.isEmpty) with
  | [] => some []
  | w :: ws =>
    if String.ofList w == ".bind" then (hexBytes ws).map fun bytes => [.bind bytes]
    else (asmCommand ((w :: ws).map String.ofList)).map fun i => [.write 0x000 (encode i)]

/-- A program (`30_encoding.md` R97, `10_state.md` R27). -/
def assemble : List String → Option (List HostAction)
  | [] => some []
  | line :: lines =>
    match asmLine line, assemble lines with
    | some x, some y => some (x ++ y)
    | _, _ => none

end Sys2Proof.Machine
end

