-- ==== Sys2Proof/Tests/Slice0.lean ====
section
/-! SUPPORT. Tests. Expected values are those of `95_test_vectors.md` (vector named) or words written out from `30_encoding.md` R90 to
R96. The last part holds, for each statement with hypotheses, a state that meets them. -/

namespace Sys2Proof.Tests

open Sys2Proof.Machine

set_option Elab.async false

/-! Helpers. -/

/-- A view of a next state; absent at a stop. -/
def view {α : Type} (f : State → α) (o : Host.Outcome State Fault Refusal) : Option α :=
  match o with
  | .next t => some (f t)
  | .fault _ => none
  | .refused _ => none

theorem completes {o : Host.Outcome State Fault Refusal} (h : (view (fun _ => ()) o).isSome = true) : ∃ t, o = .next t := by
  cases o with
  | next t => exact ⟨t, rfl⟩
  | fault f => cases h
  | refused r => cases h

/-- After reset, with an input bound. -/
def bound (bytes : List Byte) : State := State.reset.bindInput bytes

/-- A halted core. -/
def halted : State := { State.reset with fault := true, err := .endOfStream }

/-- The arena holds one leaf, 41 (vector V11). -/
def leafTree : State := { State.reset.setNode 0#9 (leafRec 0x41#8 3#40) with ncnt := 1, tv := true }

/-- The counts of vector V10: 41:3, 42:2, 43:1. -/
def counts : State := ((State.reset.setCount 0x41#8 3#32).setCount 0x42#8 2#32).setCount 0x43#8 1#32

/-- The arena of vector V10. -/
def abcTree : State :=
  { ((((State.reset.setNode 0#9 (leafRec 0x41#8 3#40)).setNode 1#9 (leafRec 0x42#8 2#40)).setNode 2#9
      (leafRec 0x43#8 1#40)).setNode 3#9 (innerRec 3#40 2#9 1#9)).setNode 4#9 (innerRec 6#40 0#9 3#9)
    with ncnt := 5, root := 4#9, pos := 4#9, tv := true }

/-- The tree of vector V10 as a tree. -/
def abc : Tree := .node (.leaf 0x41#8) (.node (.leaf 0x43#8) (.leaf 0x42#8))

/-- The table of vector V22 over the arena of vector V10. -/
def abcTable : State :=
  { ((abcTree.setCode 0x41#8 [false]).setCode 0x43#8 [true, false]).setCode 0x42#8 [true, true] with cv := true }

/-- The file of vector V40. -/
def file : List Byte := [0x50#8, 0x54#8, 0x3A#8, 0x10#8, 0x40#8, 0x23#8, 0x24#8, 0x1F#8, 0x00#8]

/-- The records of the arena in use. -/
def arena (s : State) : List NodeRec := s.nodes.toList.take s.ncnt.val

/-- A spine of `n + 1` leaves. -/
def comb : Nat → Tree
  | 0 => .leaf 0x00#8
  | n + 1 => .node (.leaf (BitVec.ofNat 8 n)) (comb n)

/-! WellFormed: the one ill-formed action there is, and its neighbour (R62). Every term of `Instr` is well-formed. -/

theorem test_wf_bind_too_long : HostAction.wf (.bind (List.replicate (2 ^ 40) 0#8)) = false := by
  simp only [HostAction.wf, Config.inputLimit, List.length_replicate]; decide
theorem test_wf_bind_longest : HostAction.wf (.bind (List.replicate (2 ^ 40 - 1) 0#8)) = true := by
  simp only [HostAction.wf, Config.inputLimit, List.length_replicate]; decide
theorem test_wf_instr (i : Instr) : i.wf = true := by cases i <;> rfl

/-! Decode: one word of every row, written out from R96. -/

theorem test_decode_nop : decode 0b0000000000000000#16 = .ok .nop := by decide
theorem test_decode_clr : decode 0b0000000100000000#16 = .ok .clr := by decide
theorem test_decode_rewind : decode 0b0000001000000000#16 = .ok .rewind := by decide
theorem test_decode_fcnt : decode 0b0001000000000000#16 = .ok .fcnt := by decide
theorem test_decode_tbuild : decode 0b0010000000000000#16 = .ok .tbuild := by decide
theorem test_decode_ctgen : decode 0b0011000000000000#16 = .ok .ctgen := by decide
theorem test_decode_tser : decode 0b0100000000000000#16 = .ok .tser := by decide
theorem test_decode_tdes : decode 0b0101000000000000#16 = .ok .tdes := by decide
theorem test_decode_wbit0 : decode 0b0110000000000000#16 = .ok (.wbit false) := by decide
theorem test_decode_wbit1 : decode 0b0110000000000001#16 = .ok (.wbit true) := by decide
theorem test_decode_wflush : decode 0b0110000100000000#16 = .ok .wflush := by decide
theorem test_decode_rbit : decode 0b0111000000000000#16 = .ok .rbit := by decide
theorem test_decode_wmark : decode 0b1000000000000000#16 = .ok .wmark := by decide
theorem test_decode_emit : decode 0b1000000100000000#16 = .ok .emit := by decide
theorem test_decode_encode : decode 0b1000111100000000#16 = .ok .encode := by decide
theorem test_decode_rseed : decode 0b1001000000000000#16 = .ok .rseed := by decide
theorem test_decode_ralign : decode 0b1001000100000000#16 = .ok .ralign := by decide
theorem test_decode_rskip3 : decode 0b1001001000000000#16 = .ok .rskip3 := by decide
theorem test_decode_walk : decode 0b1001001100000000#16 = .ok .walk := by decide
theorem test_decode_decode : decode 0b1001111100000000#16 = .ok .decode := by decide

/-- The illegal words of vector V140, with the way of R95 each is illegal. -/
theorem test_decode_illegal :
    ([0x0001#16, 0x0300#16, 0x6002#16, 0x60FF#16, 0x6101#16, 0x7001#16, 0x8E00#16, 0x9400#16, 0xA000#16, 0xFFFF#16].map whyIllegal) =
      [.operandNotZero, .unlistedOpcode, .reservedOperandBit, .reservedOperandBit, .operandNotZero, .operandNotZero,
       .unlistedOpcode, .unlistedOpcode, .unlistedOpcode, .unlistedOpcode] ∧
    ([0x0001#16, 0x0300#16, 0x6002#16, 0x60FF#16, 0x6101#16, 0x7001#16, 0x8E00#16, 0x9400#16, 0xA000#16, 0xFFFF#16].all
      fun w => view State.status (command w State.reset) == some 0x81#8) = true := by
  decide +kernel

theorem test_table_word : decodeTableWord 16 0x6001 = some (.wbit true) ∧ decodeTableWord 16 0x6002 = none := by decide
theorem test_fetch_word : view State.wcnt (step (State.reset.withFetchWord 16 0x6001)) = some 1 := by decide +kernel

/-! The assembler (R97, program P3). -/

theorem test_asm_wbit : asmLine "  WBIT 1 ; a bit" = some [.write 0 0x6001#16] := by decide +kernel
theorem test_asm_bind : assemble [".bind A0", "", "RBIT"] = some [.bind [0xA0#8], .write 0 0x7000#16] := by decide +kernel
theorem test_asm_operand : asmLine "WBIT 2" = none ∧ asmLine "NOP 0" = none := by decide +kernel

/-! The commands. -/

/-- V70. -/
theorem test_nop : view State.out (exec .nop abcTable) = some [] ∧ view State.cv (exec .nop abcTable) = some true := by decide +kernel
/-- V73. -/
theorem test_clr_halted : view State.status (command 0x0100#16 { halted with out := [0x41#8] }) = some 0x00#8 ∧
    view State.out (command 0x0100#16 { halted with out := [0x41#8] }) = some [0x41#8] := by decide +kernel
/-- V72. -/
theorem test_clr_writer : view (fun t => (t.acc, t.wcnt, t.rpos)) (exec .clr { bound [] with acc := 5#8, wcnt := 3 }) =
    some (0#8, 0, 8) := by decide +kernel
/-- V75. -/
theorem test_rewind : view (fun t => (t.iptr, t.cur, t.rpos))
    (exec .rewind { bound [0xF0#8, 0xAA#8] with iptr := 1#40, cur := 0xF0#8, rpos := 1 }) = some (0#40, 0xF0#8, 1) := by decide +kernel
/-- V1. -/
theorem test_fcnt : view (fun t => (t.count 0x41#8, t.count 0x42#8, t.total, t.iptr))
    (exec .fcnt (bound [0x41#8, 0x41#8, 0x41#8, 0x42#8, 0x42#8, 0x43#8])) = some (3#32, 2#32, 6#40, 6#40) := by decide +kernel
/-- V5. -/
theorem test_fcnt_again : view (fun t => (t.count 0x41#8, t.total, t.iptr))
    (exec .fcnt { counts with inp := [0x41#8, 0x41#8], iptr := 2#40 }) = some (0#32, 0#40, 2#40) := by decide +kernel
/-- V10. -/
theorem test_tbuild : view (fun t => (arena t, t.root, t.status)) (exec .tbuild counts) =
    some ([leafRec 0x41#8 3#40, leafRec 0x42#8 2#40, leafRec 0x43#8 1#40, innerRec 3#40 2#9 1#9, innerRec 6#40 0#9 3#9], 4#9, 0x02#8) := by
  decide +kernel
/-- V18: an internal node as left child. -/
theorem test_tbuild_left : view (fun t => (arena t).drop 3)
    (exec .tbuild (((State.reset.setCount 0x61#8 3#32).setCount 0x62#8 1#32).setCount 0x63#8 1#32)) =
    some [innerRec 2#40 1#9 2#9, innerRec 5#40 3#9 0#9] := by decide +kernel
/-- V22. -/
theorem test_ctgen : view (fun t => (t.code 0x41#8, t.code 0x42#8, t.code 0x43#8, t.code 0x44#8)) (exec .ctgen abcTree) =
    some (some [false], some [true, true], some [true, false], none) := by decide +kernel
/-- V23. -/
theorem test_ctgen_leaf : view (fun t => (t.code 0x41#8, t.status)) (exec .ctgen leafTree) = some (some [false], 0x06#8) := by
  decide +kernel
/-- V30. -/
theorem test_tser : view (fun t => (t.out, t.acc, t.wcnt)) (exec .tser abcTree) =
    some ([0x50#8, 0x54#8, 0x3A#8], 0b00010#8, 5) := by decide +kernel
/-- V39: the held bit comes first. -/
theorem test_tser_held : view (fun t => (t.out, t.acc, t.wcnt)) (exec .tser { leafTree with acc := 1#8, wcnt := 1 }) =
    some ([0xD0#8], 0b01#8, 2) := by decide +kernel
/-- V31. -/
theorem test_tdes : view (fun t => (arena t, t.root, t.iptr, t.cur, t.rpos)) (exec .tdes (bound [0x50#8, 0x54#8, 0x3A#8, 0x10#8])) =
    some ([innerRec 0#40 1#9 2#9, leafRec 0x41#8 0#40, innerRec 0#40 3#9 4#9, leafRec 0x43#8 0#40, leafRec 0x42#8 0#40], 0#9,
      4#40, 0x10#8, 5) := by decide +kernel
/-- V85, V86. -/
theorem test_tdes_bounds : view (fun t => (t.status, t.iptr)) (exec .tdes (bound (List.replicate 63 0#8))) = some (0x21#8, 63#40) ∧
    view (fun t => (t.status, t.iptr)) (exec .tdes (bound (List.replicate 64 0#8))) = some (0x61#8, 64#40) := by decide +kernel
/-- V93: the eighth bit. -/
theorem test_wbit_eighth : view (fun t => (t.out, t.acc, t.wcnt)) (exec (.wbit false) { bound [] with acc := 0x78#8, wcnt := 7 }) =
    some ([0xF0#8], 0#8, 0) := by decide +kernel
/-- V90: the third bit. -/
theorem test_wbit_third : view (fun t => (t.out, t.acc, t.wcnt)) (exec (.wbit true) { bound [] with acc := 2#8, wcnt := 2 }) =
    some ([], 5#8, 3) := by decide +kernel
/-- V91. -/
theorem test_wflush : view (fun t => (t.out, t.acc, t.wcnt)) (exec .wflush { bound [] with acc := 5#8, wcnt := 3 }) =
    some ([0xA0#8], 0#8, 0) := by decide +kernel
/-- V92. -/
theorem test_wflush_empty : view State.out (exec .wflush (bound [])) = some [] := by decide +kernel
/-- V100. -/
theorem test_rbit : view (fun t => (t.status, t.iptr, t.cur, t.rpos)) (exec .rbit (bound [0xA0#8])) =
    some (0x08#8, 1#40, 0xA0#8, 1) := by decide +kernel
/-- V101. -/
theorem test_rbit_end : view (fun t => (t.status, t.iptr)) (exec .rbit { bound [0xA0#8] with iptr := 1#40 }) =
    some (0x31#8, 1#40) := by decide +kernel
/-- V111: the marker overtakes the held bit. -/
theorem test_wmark : view (fun t => (t.out, t.acc, t.wcnt)) (exec .wmark { bound [] with acc := 1#8, wcnt := 1 }) =
    some ([0x40#8, 0x23#8, 0x24#8], 1#8, 1) := by decide +kernel
/-- V112. -/
theorem test_emit : view (fun t => (t.out, t.acc, t.wcnt, t.iptr))
    (exec .emit { abcTable with inp := [0x41#8, 0x41#8, 0x41#8, 0x42#8, 0x42#8, 0x43#8] }) = some ([0x1F#8], 0#8, 1, 6#40) := by
  decide +kernel
/-- V115. -/
theorem test_emit_no_code : view (fun t => (t.status, t.iptr, t.out))
    (exec .emit { abcTable with inp := [0x41#8, 0x42#8, 0x44#8, 0x41#8] }) = some (0x51#8, 3#40, []) := by decide +kernel
/-- V40. -/
theorem test_encode : view (fun t => (t.out, t.status)) (exec .encode (bound [0x41#8, 0x41#8, 0x41#8, 0x42#8, 0x42#8, 0x43#8])) =
    some (file, 0x06#8) := by decide +kernel
/-- V46. -/
theorem test_encode_empty : view (fun t => (t.out, t.status, t.iptr)) (exec .encode (bound [])) = some ([], 0x11#8, 0#40) := by
  decide +kernel
/-- V120. -/
theorem test_rseed : view (fun t => (t.cur, t.rpos, t.iptr)) (exec .rseed (bound [0x50#8, 0x54#8])) = some (0x50#8, 0, 1#40) := by
  decide +kernel
/-- V122. -/
theorem test_ralign : view (fun t => (t.cur, t.rpos)) (exec .ralign { bound [] with cur := 0x10#8, rpos := 5 }) = some (0x10#8, 8) := by
  decide +kernel
/-- V125. -/
theorem test_rskip3 : view (fun t => (t.iptr, t.cur, t.rpos))
    (exec .rskip3 { bound [0xF0#8, 0xAA#8, 0xBB#8, 0xCC#8, 0x0F#8] with iptr := 1#40, cur := 0xF0#8, rpos := 1 }) =
    some (4#40, 0xF0#8, 1) := by decide +kernel
/-- V124. -/
theorem test_rskip3_short : view (fun t => (t.status, t.iptr)) (exec .rskip3 (bound [0x40#8, 0x23#8])) = some (0x31#8, 2#40) := by
  decide +kernel
/-- V128. -/
theorem test_walk_leaf : view (fun t => (t.status, t.out)) (exec .walk { leafTree with inp := [0x20#8] }) =
    some (0x21#8, [0x41#8, 0x41#8]) := by decide +kernel
/-- V126, on the arena of V10. -/
theorem test_walk : view (fun t => (t.out, t.pos, t.rpos)) (exec .walk { abcTree with inp := [0x1F#8, 0x00#8], pos := 3#9 }) =
    some ([0x41#8, 0x41#8, 0x41#8, 0x42#8, 0x42#8, 0x43#8] ++ List.replicate 7 0x41#8, 4#9, 8) := by decide +kernel
/-- V40d. -/
theorem test_decode_file : view (fun t => (t.out, t.status, t.iptr)) (exec .decode (bound file)) =
    some ([0x41#8, 0x41#8, 0x41#8, 0x42#8, 0x42#8, 0x43#8] ++ List.replicate 7 0x41#8, 0x02#8, 9#40) := by decide +kernel
/-- V60, k = 5: the marker is short. -/
theorem test_decode_short : view (fun t => (t.out, t.status, t.iptr)) (exec .decode (bound (file.take 5))) = some ([], 0x21#8, 5#40) := by
  decide +kernel

/-- V142. -/
theorem test_halted : view State.status (command 0xFFFF#16 halted) = some 0x31#8 := by decide +kernel
/-- V22's register view. -/
theorem test_port_code : portValue 0x241 abcTable 0#255 = 0x101#255 ∧ portValue 0x242 abcTable 0#255 = 0x102#255 ∧
    (portValue 0x344 abcTable (BitVec.allOnes 255)) = BitVec.allOnes 255 ∧ (portValue 0x342 abcTable 0#255).getLsbD 253 = true ∧
    (portValue 0x343 abcTable 0#255).getLsbD 253 = false := by decide +kernel
/-- `RSTATE` after reset (V71) and an arena entry (R33). -/
theorem test_port_state : portValue 0x007 State.reset 0#255 = 0x800#255 ∧
    (portValue 0x403 abcTree 0#255).toNat = 3 + 2 * 2 ^ 48 + 1 * 2 ^ 57 := by decide +kernel

/-! Witnesses: for each statement that has hypotheses, each clause, a state and operands that meet them. -/

/-- Two bytes pending on `CMD` after reset. -/
def writing (w : CmdWord) : State := { State.reset with pending := [.write 0x000 w] }

/-- A table whose code of 41 has the greatest length. -/
def longCode : State := abcTable.setCode 0x41#8 (List.replicate 255 true)

/-- One member per weight 2, 2, 1 of the queue. -/
def queued : State :=
  ((State.reset.insertNode (leafRec 0x41#8 2#40)).insertNode (leafRec 0x42#8 2#40)).insertNode (leafRec 0x43#8 1#40)

theorem witness_DecodeInvertsEncode : (Instr.wbit true).wf = true := by decide
theorem witness_DecodeAcceptsOnlyEncodedWords : decode 0x9F00#16 = .ok .decode := by decide
theorem witness_CommandDispatchFollowsTheTable :
    (halted.fault = true ∧ 0x0101#16 ≠ 0x0100#16) ∧
    ((State.reset.fault = true → 0x6001#16 = 0x0100#16) ∧ rowB 0x60#8 .wbit ∈ rows ∧
      0x6001#16 &&& (rowB 0x60#8 .wbit).mask = (rowB 0x60#8 .wbit).pattern) ∧
    (State.reset.fault = false ∧ ∀ r ∈ rows, 0x6002#16 &&& r.mask ≠ r.pattern) := by
  refine ⟨⟨rfl, by decide⟩, ⟨(fun h => nomatch h), ?_, by decide⟩, rfl, ?_⟩
  · simp [rows]
  · simp [rows, rowN, rowB]
theorem witness_IllegalWordRaisesIllegalCommand : State.reset.fault = false ∧ ∀ i, encode i ≠ 0x6002#16 := by
  refine ⟨rfl, fun i => ?_⟩
  cases i <;> first | decide | (rename_i b; cases b <;> decide)
theorem witness_StepRunsTheDecodedCommand :
    (writing 0x2000#16).pending = .write 0x000 0x2000#16 :: [] ∧ decode 0x2000#16 = .ok .tbuild ∧
      ((writing 0x2000#16).fault = true → Instr.tbuild = .clr) := ⟨rfl, by decide, (fun h => nomatch h)⟩
theorem witness_HaltedCoreIgnoresEveryWordButClr :
    ({ halted with pending := [.write 0x000 0xFFFF#16] } : State).pending = .write 0x000 0xFFFF#16 :: [] ∧
    ({ halted with pending := [.write 0x000 0xFFFF#16] } : State).fault = true ∧ 0xFFFF#16 ≠ 0x0100#16 := ⟨rfl, rfl, by decide⟩
theorem witness_HostActionsThatChangeNothing :
    (({ State.reset with pending := [.write 0x001 0x0000#16] } : State).pending = .write 0x001 0x0000#16 :: [] ∧ 0x001 ≠ 0x000) ∧
    ({ State.reset with pending := [.takeOut] } : State).pending = .takeOut :: [] ∧ State.reset.pending = [] :=
  ⟨⟨rfl, by decide⟩, rfl, rfl⟩
theorem witness_BindReplacesTheStreams (n : Nat) :
    ({ State.reset with pending := [.bind (List.replicate n 0#8)] } : State).pending = .bind (List.replicate n 0#8) :: [] ∧
    (n = 2 ^ 40 - 1 → (List.replicate n 0#8).length < 2 ^ 40) ∧ (n = 2 ^ 40 → 2 ^ 40 ≤ (List.replicate n 0#8).length) := by
  refine ⟨rfl, ?_, ?_⟩ <;> intro h <;> rw [List.length_replicate] <;> omega
theorem witness_ResetAndClrGiveTheResetValues :
    ({ halted with pending := [.hardReset] } : State).pending = .hardReset :: [] := rfl
theorem witness_FaultEntryForgetsTheTables :
    abcTable ≠ State.reset ∧ abcTable.inp = State.reset.inp ∧ abcTable.iptr = State.reset.iptr ∧ abcTable.out = State.reset.out ∧
    abcTable.inq = State.reset.inq ∧ abcTable.pending = State.reset.pending ∧ abcTable.readData = State.reset.readData ∧
    abcTable.free = State.reset.free :=
  ⟨fun h => absurd (congrArg State.cv h) (by decide), rfl, rfl, rfl, rfl, rfl, rfl, rfl⟩
theorem witness_OnlyClrOrResetEndsAFault :
    halted.fault = true ∧ step halted = .next halted := ⟨rfl, rfl⟩
theorem witness_SevenCommandsNeverFault :
    abcTable.fault = false ∧ Instr.ralign ∈ [Instr.nop, .clr, .rewind, .wbit false, .wbit true, .wflush, .wmark, .ralign] :=
  ⟨rfl, by decide⟩
theorem witness_RegisterReadsHaveNoSideEffect :
    ({ State.reset with pending := [.read 0x5FF] } : State).pending = .read 0x5FF :: [] := rfl
theorem witness_PortLayout :
    abcTable.fault = false ∧ abcTable.code 0x42#8 = some [true, true] ∧ longCode.fault = false ∧
    longCode.code 0x41#8 = some (List.replicate 255 true) ∧ (List.replicate 255 true).length ≤ 255 ∧ (4#9).toNat < 511 ∧
    abcTree.node 4#9 = some (innerRec 6#40 0#9 3#9) ∧ portReg 0x000 = some .cmd ∧ portReg 0x5FE = some (.node 510) := by decide +kernel
theorem witness_UnspecifiedReadsRevealNothing :
    (halted.fault = true ∧ 0x000 ≠ 0x001 ∧ 0x000 ≠ 0x008) ∧ (portReg 0x009 = none ∧ portReg 0x0FF = none ∧ portReg 0x5FF = none) ∧
    (abcTable.fault = false ∧ abcTable.codeValid 0x44#8 = false ∧ State.reset.fault = false ∧ State.reset.codeValid 0x44#8 = false) ∧
    (abcTree.fault = false ∧ leafTree.fault = false ∧ abcTree.ncnt.val ≤ 5 ∧ leafTree.ncnt.val ≤ 5 ∧ 5 < 511) ∧
    (State.reset.ncnt.val ≤ 0 ∧ State.reset.ncnt.val ≤ 510) := by decide +kernel
theorem witness_WbitShiftsInOrEmits :
    State.reset.wcnt.val < 7 ∧ ({ State.reset with wcnt := 6 } : State).wcnt.val < 7 ∧
    ({ State.reset with wcnt := 7 } : State).wcnt.val = 7 := by decide
theorem witness_WflushEmitsThePaddedByte :
    State.reset.wcnt.val = 0 ∧ 0 < ({ State.reset with wcnt := 1 } : State).wcnt.val ∧
    0 < ({ State.reset with wcnt := 7 } : State).wcnt.val := by decide
theorem witness_WriterStreamLaw : State.reset.wcnt.val = 0 ∧ State.reset.acc = 0#8 := ⟨rfl, rfl⟩
theorem witness_RbitDeliversFetchesOrFaults :
    ({ State.reset with rpos := 0 } : State).rpos.val < 8 ∧ ({ State.reset with rpos := 7 } : State).rpos.val < 8 ∧
    ((bound [0xA0#8]).rpos.val = 8 ∧ (bound [0xA0#8]).inp[(bound [0xA0#8]).iptr.toNat]? = some 0xA0#8) ∧
    (State.reset.rpos.val = 8 ∧ State.reset.inp.length ≤ State.reset.iptr.toNat) := by decide
theorem witness_ReaderStreamLaw :
    (bound [0xA0#8]).StreamInv ∧ (bound [0xA0#8]).rpos.val = 8 ∧
    0 ≤ 8 * ((bound [0xA0#8]).inp.length - (bound [0xA0#8]).iptr.toNat) ∧
    8 ≤ 8 * ((bound [0xA0#8]).inp.length - (bound [0xA0#8]).iptr.toNat) ∧
    8 * ((bound [0xA0#8]).inp.length - (bound [0xA0#8]).iptr.toNat) < 9 := ⟨⟨by decide, by decide⟩, by decide⟩
theorem witness_RseedLoadsAByteOrFaults :
    (bound [0x50#8]).inp[(bound [0x50#8]).iptr.toNat]? = some 0x50#8 ∧ State.reset.inp.length ≤ State.reset.iptr.toNat := by decide
theorem witness_Rskip3SkipsThreeBytesOrFaults :
    (bound [1#8, 2#8, 3#8]).StreamInv ∧ (bound [1#8, 2#8, 3#8]).iptr.toNat + 3 ≤ (bound [1#8, 2#8, 3#8]).inp.length ∧
    (bound [1#8, 2#8]).StreamInv ∧ (bound [1#8, 2#8]).inp.length < (bound [1#8, 2#8]).iptr.toNat + 3 :=
  ⟨⟨by decide, by decide⟩, by decide, ⟨by decide, by decide⟩, by decide⟩
theorem witness_FcntCountsTheRestOfTheInput :
    (bound [0x41#8, 0x41#8]).StreamInv ∧
    ∀ v, ((bound [0x41#8, 0x41#8]).inp.drop (bound [0x41#8, 0x41#8]).iptr.toNat).count v < 2 ^ 32 := by
  refine ⟨⟨by decide, by decide⟩, fun v => ?_⟩
  exact lt_of_le_of_lt List.count_le_length (by decide)
theorem witness_FcntRaisesCountOverflow (p : List Byte) (hp : p = List.replicate (2 ^ 32 - 1) 0x41#8) :
    (bound (p ++ [0x41#8])).StreamInv ∧
    (bound (p ++ [0x41#8])).inp.drop (bound (p ++ [0x41#8])).iptr.toNat = p ++ 0x41#8 :: [] ∧
    (∀ u, p.count u < 2 ^ 32) ∧ p.count 0x41#8 = 2 ^ 32 - 1 := by
  have hl : p.length = 2 ^ 32 - 1 := by rw [hp, List.length_replicate]
  refine ⟨⟨?_, ?_⟩, rfl, fun u => ?_, ?_⟩
  · show (p ++ [0x41#8]).length < 2 ^ 40
    rw [List.length_append, hl]; decide
  · exact Nat.zero_le _
  · exact lt_of_le_of_lt List.count_le_length (by rw [hl]; decide)
  · rw [hp, List.count_replicate_self]
theorem witness_TbuildNeedsACount : ∀ v, State.reset.count v = 0#32 := by
  intro v; simp [State.count, State.reset]
theorem witness_ExtractMinTakesTheLeastKey :
    queued.extractMin.map Prod.fst = some 2#9 ∧ queued.inq[0] = true ∧ queued.inq[2] = true ∧ State.reset.extractMin = none := by
  decide +kernel
theorem witness_TbuildPlantsLeavesAndEndsAtTheRoot :
    (∃ v, counts.count v ≠ 0#32) ∧ counts.present[0]? = some 0x41#8 ∧ counts.present[2]? = some 0x43#8 :=
  ⟨⟨0x41#8, by decide +kernel⟩, by decide +kernel⟩
theorem witness_TbuildMergesEarlierNodes :
    (∃ v, counts.count v ≠ 0#32) ∧ ∃ t, exec .tbuild counts = .next t :=
  ⟨⟨0x41#8, by decide +kernel⟩, completes (by decide +kernel)⟩
theorem witness_CtgenWritesTheCodesOfTheTree :
    (abcTree.tv = true ∧ abcTree.tree = some abc) ∧ (leafTree.tv = true ∧ leafTree.tree = some (.leaf 0x41#8)) := by decide +kernel
theorem witness_BuiltCodesArePrefixFree : ∃ v, counts.count v ≠ 0#32 := ⟨0x43#8, by decide +kernel⟩
theorem witness_TreeCommandsNeedATree : Instr.walk ∈ [Instr.ctgen, .tser, .walk] ∧ State.reset.tv = false := ⟨by decide, rfl⟩
theorem witness_TserWritesThePreOrderBits : abcTree.tv = true ∧ abcTree.tree = some abc := by decide +kernel
theorem comb_leaves (n : Nat) : (comb n).leaves.length = n + 1 := by
  induction n with
  | zero => rfl
  | succ n ih => simp only [comb, Tree.leaves, List.length_append, ih, List.length_singleton]; omega
/-- The file's bits of a spine of `n + 1` leaves, bound after reset. -/
theorem comb_input (n : Nat) (h : n < 1000) :
    (bound (pack (comb n).serBits)).StreamInv ∧
    (bound (pack (comb n).serBits)).restBits = (comb n).serBits ++ List.replicate (padCount (comb n).serBits.length) false := by
  have h1 := serBits_length (comb n)
  rw [comb_leaves] at h1
  refine ⟨⟨?_, Nat.zero_le _⟩, bitsOf_pack _⟩
  show (pack _).length < 2 ^ 40
  rw [pack_length]; omega
/-- R176, R177: 63 and 64 bytes of zeros. -/
def zeros63 : List Byte := List.replicate 63 0#8
def zeros64 : List Byte := List.replicate 64 0#8

theorem witness_TdesReadsASerializedTree :
    ((bound (file.take 4)).StreamInv ∧ (bound (file.take 4)).restBits = abc.serBits ++ [false, false, false] ∧
      abc.leaves.length ≤ 256) ∧
    ((bound (pack (comb 255).serBits)).StreamInv ∧
      (bound (pack (comb 255).serBits)).restBits = (comb 255).serBits ++ List.replicate (padCount (comb 255).serBits.length) false ∧
      (comb 255).leaves.length ≤ 256) :=
  ⟨⟨⟨by decide, by decide⟩, by decide +kernel, by decide⟩, (comb_input 255 (by decide)).1, (comb_input 255 (by decide)).2,
    by rw [comb_leaves]⟩
theorem witness_TdesEndsWithATreeOrAFault :
    ((bound (file.take 4)).StreamInv ∧ (bound (file.take 4)).fault = false ∧
      (bound (file.take 4)).restBits = abc.serBits ++ [false, false, false] ∧ abc.leaves.length ≤ 256) ∧
    ((bound zeros63).StreamInv ∧ (bound zeros63).fault = false ∧
      ∀ ns : List Bits, (∀ x ∈ ns, isNodeBits x) → ns.flatten <+: (bound zeros63).restBits → ns.length < 511) ∧
    ((bound zeros64).StreamInv ∧ (bound zeros64).fault = false ∧
      (List.replicate 511 [false]).flatten <+: (bound zeros64).restBits) := by
  refine ⟨⟨⟨by decide, by decide⟩, rfl, by decide +kernel, by decide⟩, ⟨⟨by decide, by decide⟩, rfl, ?_⟩, ⟨by decide, by decide⟩, rfl,
    by decide +kernel⟩
  intro ns hn hp
  have h1 := hp.length_le
  have h2 : (bound zeros63).restBits.length = 504 := by decide +kernel
  have h3 : ∀ ms : List Bits, (∀ x ∈ ms, isNodeBits x) → ms.length ≤ ms.flatten.length := by
    intro ms hm
    induction ms with
    | nil => exact Nat.le_refl 0
    | cons x ms ih =>
      have hx : 0 < x.length := by rcases hm x (by simp) with rfl | ⟨v, rfl⟩ <;> simp
      have := ih fun y hy => hm y (by simp [hy])
      simp only [List.flatten_cons, List.length_append, List.length_cons]
      omega
  have := h3 ns hn
  omega
theorem witness_TdesRefusesMoreThan256Leaves :
    (bound (pack (comb 256).serBits)).StreamInv ∧
    (bound (pack (comb 256).serBits)).restBits = (comb 256).serBits ++ List.replicate (padCount (comb 256).serBits.length) false ∧
    256 < (comb 256).leaves.length :=
  ⟨(comb_input 256 (by decide)).1, (comb_input 256 (by decide)).2, by rw [comb_leaves]; decide⟩
theorem witness_TreeRoundTrip :
    abcTree.fault = false ∧ abcTree.tv = true ∧ abcTree.wellFormed = true ∧ abcTree.wcnt.val = 0 ∧ abcTree.acc = 0#8 ∧
    abcTree.rpos.val = 8 := by decide +kernel
theorem witness_EmitWritesTheCodesOfTheRest :
    ({ abcTable with inp := [0x41#8, 0x43#8] } : State).StreamInv ∧ abcTable.cv = true ∧
    codeBits abcTable.code [0x41#8, 0x43#8] = some [false, true, false] := ⟨⟨by decide, by decide⟩, rfl, by decide +kernel⟩
theorem witness_EmitRaisesNoCode :
    abcTree.cv = false ∧ ({ abcTable with inp := [0x41#8] ++ 0x44#8 :: [0x41#8] } : State).StreamInv ∧ abcTable.cv = true ∧
    ({ abcTable with inp := [0x41#8] ++ 0x44#8 :: [0x41#8] } : State).inp.drop abcTable.iptr.toNat = [0x41#8] ++ 0x44#8 :: [0x41#8] ∧
    codeBits abcTable.code [0x41#8] = some [false] ∧ abcTable.code 0x44#8 = none :=
  ⟨rfl, ⟨by decide, by decide⟩, rfl, rfl, by decide +kernel, by decide +kernel⟩
theorem witness_EncodeEqualsItsSequence : ({ halted with inp := [0x41#8] } : State).inp.length < 2 ^ 40 := by decide
theorem witness_EncodeWritesTheFile : (bound [0x41#8]).inp ≠ [] ∧ (bound [0x41#8]).inp.length < 2 ^ 32 := by decide
theorem witness_EncodeOfNothingRaisesEmptyInput : (bound []).inp = [] := rfl
theorem witness_WalkDecodesThePayload :
    (({ abcTree with inp := [0x1F#8] } : State).StreamInv ∧ abcTree.fault = false ∧ abcTree.tv = true ∧ abcTree.tree = some abc ∧
      (abc.walkFrom abc ({ abcTree with inp := [0x1F#8] } : State).restBits).2 = some (.node (.leaf 0x43#8) (.leaf 0x42#8))) ∧
    (({ leafTree with inp := [0x20#8] } : State).StreamInv ∧ leafTree.fault = false ∧ leafTree.tv = true ∧
      leafTree.tree = some (.leaf 0x41#8) ∧
      ((Tree.leaf 0x41#8).walkFrom (.leaf 0x41#8) ({ leafTree with inp := [0x20#8] } : State).restBits).2 = none) :=
  ⟨⟨⟨by decide, by decide⟩, rfl, rfl, by decide +kernel, by decide +kernel⟩, ⟨by decide, by decide⟩, rfl, rfl, by decide +kernel,
    by decide +kernel⟩
theorem witness_DecodeReadsAFile :
    ((bound file).inp = file.take 4 ++ [0x40#8, 0x23#8, 0x24#8] ++ [0x1F#8, 0x00#8] ∧ (bound file).inp.length < 2 ^ 40 ∧
      bitsOf (file.take 4) = abc.serBits ++ [false, false, false] ∧ [false, false, false].length < 8 ∧
      [0x40#8, 0x23#8, 0x24#8].length = 3 ∧ abc.leaves.length ≤ 256 ∧
      (abc.walkFrom abc (bitsOf [0x1F#8, 0x00#8])).2 = some abc) ∧
    (bitsOf [0xA0#8, 0x80#8] = (Tree.leaf 0x41#8).serBits ++ List.replicate 7 false ∧
      ((Tree.leaf 0x41#8).walkFrom (.leaf 0x41#8) (bitsOf [0x20#8])).2 = none) := by decide +kernel
theorem witness_DecodeReportsOnlyTwoFaults : (bound file).inp.length < 2 ^ 40 := by decide
theorem witness_DecodeAgreesWithItsSequence : (bound (file.take 5)).inp.length < 2 ^ 40 := by decide
theorem witness_DecodeOfEncodeIsTheInputThenPad : (bound [0x41#8, 0x42#8]).inp ≠ [] ∧ (bound [0x41#8, 0x42#8]).inp.length < 2 ^ 32 := by
  decide
theorem witness_StepKeepsTheInvariants :
    (writing 0x8000#16).StreamInv ∧ (writing 0x8000#16).WriterInv ∧ (writing 0x8000#16).StatusInv ∧ (writing 0x8000#16).NoTreeInv ∧
    (writing 0x8000#16).QueueInv ∧ (writing 0x8000#16).TreeInv ∧ (writing 0x8000#16).CodeInv ∧
    ∃ t, step (writing 0x8000#16) = .next t :=
  ⟨⟨by decide, by decide⟩, (fun _ => by decide), ⟨by decide, (fun h => nomatch h)⟩, (fun _ _ => ⟨rfl, rfl, rfl⟩), rfl, (fun h => nomatch h),
    (fun h => nomatch h), completes (by decide +kernel)⟩
theorem witness_StepKeepsTheTreeWellFormed :
    ({ abcTable with pending := [.write 0x000 0x8000#16] } : State).TreeInv ∧
    ∃ t, step { abcTable with pending := [.write 0x000 0x8000#16] } = .next t :=
  ⟨fun _ => ⟨by decide +kernel, innerRec 6#40 0#9 3#9, by decide +kernel, .inl rfl⟩, completes (by decide +kernel)⟩
theorem witness_StepKeepsTheCodeTableOfTheTree :
    ({ abcTable with pending := [.write 0x000 0x8000#16] } : State).CodeInv ∧
    ∃ t, step { abcTable with pending := [.write 0x000 0x8000#16] } = .next t :=
  ⟨fun _ => ⟨rfl, abc, by decide +kernel, by decide +kernel⟩, completes (by decide +kernel)⟩
theorem witness_NoStepFromAnInvariantStateStops : (writing 0x8000#16).Inv ∧ HostAdmitted (writing 0x8000#16) := by
  obtain ⟨h1, h2, h3, h4, h5, h6, h7, -⟩ := witness_StepKeepsTheInvariants
  exact ⟨⟨h1, h2, h3, h5, h6, h7, h4⟩, by simp [HostAdmitted, writing, HostAction.wf]⟩
theorem witness_WellFormedArenaIsAFullTree :
    abcTree.wellFormed = true ∧ leafTree.wellFormed = true ∧ abcTree.node 3#9 = some (innerRec 3#40 2#9 1#9) := by decide +kernel

end Sys2Proof.Tests
end

/-! What a step does to the tables: the arena with `POS`, the Code Table, the queue (`10_state.md` R28 to R32, R40). Said once, for all
commands and host actions; the invariants of R32, R34 and R40 follow by its cases. -/

namespace Sys2Proof.Machine

/-- The arena, `POS`, the Code Table, the queue and the flags `TV`, `CV`, `FAULT`, `ERR` are as they were. -/
def State.tablesFrame (s t : State) : Prop :=
  t = { s with inp := t.inp, iptr := t.iptr, out := t.out, ft := t.ft, total := t.total, acc := t.acc, wcnt := t.wcnt,
               cur := t.cur, rpos := t.rpos, res := t.res, pending := t.pending, readData := t.readData, free := t.free }

theorem tablesFrame_of_countFrame {s t : State} (h : s.countFrame t) : s.tablesFrame t := by
  unfold State.countFrame at h; unfold State.tablesFrame; rw [h]

theorem tablesFrame_of_emitFrame {s t : State} (h : s.emitFrame t) : s.tablesFrame t := by
  unfold State.emitFrame at h; unfold State.tablesFrame; rw [h]

theorem tablesFrame_of_readFrame {s t : State} (h : s.readFrame t) : s.tablesFrame t := by
  unfold State.readFrame at h; unfold State.tablesFrame; rw [h]

theorem tablesFrame_of_rbit {s t : State} (h : t = { s with cur := t.cur, rpos := t.rpos, iptr := t.iptr, res := t.res }) :
    s.tablesFrame t := by
  unfold State.tablesFrame; rw [h]

theorem tablesFrame_writeBits (s : State) (x : Bits) : s.tablesFrame (s.writeBits x) := by
  unfold State.tablesFrame
  conv_lhs => rw [writeBits_frame]
  simp

theorem tablesFrame_flush (s : State) : s.tablesFrame s.flush := by
  obtain ⟨o, a, w, h⟩ := flush_shape s
  unfold State.tablesFrame; rw [h]

/-- What a command or a host action does to the tables. -/
inductive State.TableStep (s t : State) : Prop
  /-- The tables stay: every command and action that is not named below. -/
  | kept (frame : s.tablesFrame t)
  /-- Of the tables `WALK` moves `POS` only, along entries of the arena (`48_decoder.md` R238). -/
  | walked (frame : s.walkFrame t) (pos : (∃ m, s.node s.root = some m) → t.atInner)
  /-- `CTGEN` writes the table of the tree (`43_code_table.md` R160 to R163). -/
  | coded (frame : t = { s with ct := t.ct, cv := true }) (treeValid : s.tv = true)
      (table : ∃ tr, s.tree = some tr ∧ ∀ v, t.code v = tr.codeOf v)
  /-- `TBUILD`, `TDES`, `ENCODE` and `DECODE` leave a new tree (`42_tree_builder.md` R145, `44_tree_serdes.md` R174). -/
  | built (wf : t.wellFormed = true) (pos : t.atInner) (codes : t.CodeInv) (queue : t.inq = s.inq ∨ t.QueueInv)
  /-- `CLR`, reset and every fault leave neither a tree nor a Code Table (`40_control.md` R121, `60_exceptions.md` R262). -/
  | emptied (treeInvalid : t.tv = false) (codesInvalid : t.cv = false) (queue : t.inq = s.inq ∨ t.QueueInv)

theorem tableStep_takeFault {s u : State} (e : FaultCode) (h : u.inq = s.inq ∨ u.QueueInv) : s.TableStep (u.takeFault e) :=
  .emptied rfl rfl h

theorem tableStep_of_next {s t u : State} (h : (.next u : Host.Outcome State Fault Refusal) = .next t) (hu : s.TableStep u) :
    s.TableStep t :=
  Host.Outcome.next.inj h ▸ hu

/-- How a command changes the tables, from how its body does. -/
theorem tableStep_of_finish {s t : State} {r : Result State} (ht : r.finish = .next t)
    (h : r.All s.TableStep (fun _ u => u.inq = s.inq ∨ u.QueueInv)) : s.TableStep t := by
  obtain hok | ⟨e, u, hu, rfl⟩ := finish_cases h ht
  · exact hok
  · exact tableStep_takeFault e hu

/-- A command whose body keeps the tables, and keeps the queue at a `raise`. -/
theorem tableStep_of_finish_kept {s t : State} {r : Result State} {P : State → Prop} {Q : FaultCode → State → Prop}
    (ht : r.finish = .next t) (h : r.All P Q) (hP : ∀ u, P u → s.tablesFrame u) (hQ : ∀ e u, Q e u → u.inq = s.inq) :
    s.TableStep t :=
  tableStep_of_finish ht (all_mono h (fun u hu => .kept (hP u hu)) (fun e u hu => .inl (hQ e u hu)))

/-- A tree whose `POS` is its root. -/
theorem atInner_of_root {s : State} (hw : s.wellFormed = true) (hp : s.pos = s.root) : s.atInner := by
  obtain ⟨m, hm⟩ := wellFormed_root hw
  exact ⟨m, hp ▸ hm, .inl hp⟩

theorem codeInv_of_invalid {s : State} (h : s.cv = false) : s.CodeInv := fun hc => absurd (h ▸ hc) (by decide)

/-! The bodies that change the tables. -/

theorem walkBody_tableStep (s : State) : (walkBody s).All s.TableStep (fun _ u => u.inq = s.inq ∨ u.QueueInv) := by
  have raised : ∀ (e : FaultCode) (u : State), (e = .corruptStream ∨ e = .noTree) ∧ s.walkFrame u → u.inq = s.inq ∨ u.QueueInv := by
    rintro - u ⟨-, hu⟩
    exact .inl (by rw [hu])
  by_cases hr : ∃ m, s.node s.root = some m
  · exact all_mono (walkBody_frame s fun _ => hr) (fun u hu => .walked hu.1 fun _ => hu.2.1) raised
  · exact all_mono (walkBody_writes s) (fun u hu => .walked hu.1 fun h => absurd h hr) raised

theorem ctgenBody_tableStep (s : State) : (ctgenBody s).All s.TableStep (fun _ u => u.inq = s.inq ∨ u.QueueInv) :=
  all_mono (ctgenBody_frame s) (fun _ ⟨frame, htv, table⟩ => .coded frame htv table) (fun _ _ hu => .inl (by rw [hu.2]))

theorem tdesBody_tableStep (s : State) : (tdesBody s).All s.TableStep (fun _ u => u.inq = s.inq ∨ u.QueueInv) := by
  have queue : ∀ u, s.tdesFrame u → u.inq = s.inq ∨ u.QueueInv := fun u hu => .inl (by rw [hu])
  refine all_mono (tdesBody_frame s) ?_ (fun _ u hu => queue u hu.2)
  rintro u ⟨frame, hw, hroot, hpos, -, hcv, -⟩
  exact .built hw (atInner_of_root hw (hpos.trans hroot.symm)) (codeInv_of_invalid hcv) (queue u frame)

theorem tbuildBody_tableStep {s : State} {r : Result State} (hr : tbuildBody s = r) :
    r.All s.TableStep (fun _ u => u.inq = s.inq ∨ u.QueueInv) := by
  refine all_mono (tbuildBody_frame hr) ?_ (fun _ _ ⟨_, _, _, queue, _⟩ => .inr queue)
  rintro u ⟨-, hw, hpos, -, hcv, queue⟩
  exact .built hw (atInner_of_root hw hpos) (codeInv_of_invalid hcv) (.inr queue)

theorem encodeBody_tableStep (s : State) : (encodeBody s).All s.TableStep (fun _ u => u.inq = s.inq ∨ u.QueueInv) := by
  refine all_mono (encodeBody_frame s) ?_ (fun _ _ hu => .inr hu.2)
  rintro u ⟨hw, hpos, htv, -, queue, -, -, -, -, table⟩
  exact .built hw (atInner_of_root hw hpos) (fun _ => ⟨htv, table⟩) (.inr queue)

theorem decodeBody_tableStep (s : State) : (decodeBody s).All s.TableStep (fun _ u => u.inq = s.inq ∨ u.QueueInv) := by
  refine all_mono (decodeBody_frame s) ?_ (fun _ _ hu => .inr hu.2)
  rintro u ⟨hw, hpos, -, hcv, queue, -⟩
  exact .built hw hpos (codeInv_of_invalid hcv) (.inr queue)

/-- What each command does to the tables. -/
theorem exec_tableStep {i : Instr} {s t : State} (h : exec i s = .next t) : s.TableStep t := by
  cases i with
  | nop => exact tableStep_of_next h (.kept rfl)
  | clr => exact tableStep_of_next h (.emptied rfl rfl (.inr rfl))
  | rewind => exact tableStep_of_next h (.kept rfl)
  | fcnt => exact tableStep_of_finish_kept h (fcntBody_frame s) (fun _ => tablesFrame_of_countFrame) (fun _ _ ⟨_, hu⟩ => by rw [hu])
  | tbuild =>
    change (tbuildBody s).finish = _ at h
    generalize hr : tbuildBody s = r at h
    exact tableStep_of_finish h (tbuildBody_tableStep hr)
  | ctgen => exact tableStep_of_finish h (ctgenBody_tableStep s)
  | tser =>
    exact tableStep_of_finish_kept h (tserBody_frame s) (fun _ ⟨_, _, hu⟩ => hu ▸ tablesFrame_writeBits s _)
      (fun _ _ ⟨_, hu⟩ => by rw [hu])
  | tdes => exact tableStep_of_finish h (tdesBody_tableStep s)
  | wbit b => exact tableStep_of_next h (.kept (tablesFrame_writeBits s [b]))
  | wflush => exact tableStep_of_next h (.kept (tablesFrame_flush s))
  | rbit => exact tableStep_of_finish_kept h (rbitBody_frame s) (fun _ => tablesFrame_of_rbit) (fun _ _ ⟨_, hu⟩ => by rw [hu])
  | wmark => exact tableStep_of_next h (.kept (by rw [writeMarker_eq]; rfl))
  | emit => exact tableStep_of_finish_kept h (emitBody_frame s) (fun _ => tablesFrame_of_emitFrame) (fun _ _ ⟨_, hu⟩ => by rw [hu])
  | encode => exact tableStep_of_finish h (encodeBody_tableStep s)
  | rseed => exact tableStep_of_finish_kept h (rseedBody_frame s) (fun _ => tablesFrame_of_readFrame) (fun _ _ ⟨_, hu⟩ => by rw [hu])
  | ralign => exact tableStep_of_next h (.kept rfl)
  | rskip3 => exact tableStep_of_finish_kept h (skipBytes_frame 3 s) (fun _ => tablesFrame_of_readFrame) (fun _ _ ⟨_, hu⟩ => by rw [hu])
  | walk => exact tableStep_of_finish h (walkBody_tableStep s)
  | decode => exact tableStep_of_finish h (decodeBody_tableStep s)

/-- What a step does to the tables, once its action is off the host's list. -/
theorem step_tableStep {s t : State} (h : step s = .next t) : ∃ u, s.tablesFrame u ∧ u.TableStep t := by
  obtain rfl | ⟨u, ⟨rest, rfl⟩, hu⟩ := step_cases h
  · exact ⟨t, rfl, .kept rfl⟩
  · refine ⟨{ s with pending := rest }, rfl, ?_⟩
    obtain rfl | ⟨i, -, hi⟩ | ⟨-, rfl⟩ | ⟨n, rfl⟩ | ⟨bytes, -, rfl⟩ | rfl := hu
    · exact .kept rfl
    · exact exec_tableStep hi
    · exact tableStep_takeFault _ (.inl rfl)
    · exact .kept rfl
    · exact .kept rfl
    · exact .emptied rfl rfl (.inr rfl)

/-- What every change of the tables keeps, every step keeps. -/
theorem step_preserves_of_tableStep {P : State → Prop} (hP : ∀ {s t}, s.TableStep t → P s → P t) (s t : State) (hs : P s)
    (h : step s = .next t) : P t := by
  obtain ⟨u, frame, hu⟩ := step_tableStep h
  exact hP hu (hP (.kept frame) hs)

theorem tableStep_queueInv {s t : State} (h : s.TableStep t) (hs : s.QueueInv) : t.QueueInv := by
  have same : t.inq = s.inq → t.QueueInv := fun hq => hq.trans hs
  cases h with
  | kept frame => exact same (by rw [frame])
  | walked frame => exact same (by rw [frame])
  | coded frame => exact same (by rw [frame])
  | built _ _ _ queue => exact queue.elim same id
  | emptied _ _ queue => exact queue.elim same id

/-- Settles O55: only `TBUILD` and `ENCODE` use the queue, and they leave it empty. -/
theorem stepKeepsTheQueueEmpty : Obligations.StepKeepsTheQueueEmpty :=
  step_preserves_of_tableStep tableStep_queueInv

/-- The tree's invariant speaks of the arena, `ROOT`, `POS` and `TV` only. -/
theorem treeInv_congr {s t : State} (hn : t.nodes = s.nodes) (hc : t.ncnt = s.ncnt) (hr : t.root = s.root) (hp : t.pos = s.pos)
    (hv : t.tv = s.tv) (h : s.TreeInv) : t.TreeInv := by
  intro htv
  obtain ⟨hw, hpos⟩ := h (hv ▸ htv)
  exact ⟨(wellFormed_congr hn hc hr).trans hw, atInner_congr hn.symm hc.symm hr.symm hp.symm hpos⟩

theorem tableStep_treeInv {s t : State} (h : s.TableStep t) (hs : s.TreeInv) : t.TreeInv := by
  cases h with
  | kept frame => refine treeInv_congr ?_ ?_ ?_ ?_ ?_ hs <;> rw [frame]
  | walked frame pos =>
    intro htv
    have htv' : s.tv = true := by rw [frame] at htv; exact htv
    obtain ⟨hw, -⟩ := hs htv'
    exact ⟨(wellFormed_congr (by rw [frame]) (by rw [frame]) (by rw [frame])).trans hw, pos (wellFormed_root hw)⟩
  | coded frame => refine treeInv_congr ?_ ?_ ?_ ?_ ?_ hs <;> rw [frame]
  | built wf pos => exact fun _ => ⟨wf, pos⟩
  | emptied htv => exact fun h => absurd (htv ▸ h) (by decide)

/-- Settles O56: a new tree is well-formed with `POS` at its root or, after `DECODE`, where the walk ended; `WALK` moves `POS` to the
root or to an internal entry; the rest keep the arena or clear `TV`. -/
theorem stepKeepsTheTreeWellFormed : Obligations.StepKeepsTheTreeWellFormed :=
  step_preserves_of_tableStep tableStep_treeInv

/-- The Code Table's invariant speaks of the arena, `ROOT`, `CT`, `TV` and `CV` only. -/
theorem codeInv_congr {s t : State} (hn : t.nodes = s.nodes) (hc : t.ncnt = s.ncnt) (hr : t.root = s.root) (ht : t.ct = s.ct)
    (htv : t.tv = s.tv) (hcv : t.cv = s.cv) (h : s.CodeInv) : t.CodeInv := by
  intro hv
  obtain ⟨hs, tr, htr, hcode⟩ := h (hcv ▸ hv)
  exact ⟨htv.trans hs, tr, (tree_congr hn hc hr).trans htr, fun v => by rw [← hcode v, State.code, State.code, ht]⟩

theorem tableStep_codeInv {s t : State} (h : s.TableStep t) (hs : s.CodeInv) : t.CodeInv := by
  cases h with
  | kept frame => refine codeInv_congr ?_ ?_ ?_ ?_ ?_ ?_ hs <;> rw [frame]
  | walked frame => refine codeInv_congr ?_ ?_ ?_ ?_ ?_ ?_ hs <;> rw [frame]
  | coded frame htv table =>
    obtain ⟨tr, htr, hcode⟩ := table
    exact fun _ => ⟨by rw [frame]; exact htv, tr, (tree_congr (by rw [frame]) (by rw [frame]) (by rw [frame])).trans htr, hcode⟩
  | built _ _ codes => exact codes
  | emptied _ hcv => exact codeInv_of_invalid hcv

/-- Settles O57: `CTGEN` and `ENCODE` write the table of the tree; whatever replaces the arena clears `CV`. -/
theorem stepKeepsTheCodeTableOfTheTree : Obligations.StepKeepsTheCodeTableOfTheTree :=
  step_preserves_of_tableStep tableStep_codeInv

end Sys2Proof.Machine

/-! A well-formed arena by its entries (`10_state.md` R34, R35). -/

namespace Sys2Proof.Machine

theorem lt_ncnt_of_node {s : State} {i : Idx} {n : NodeRec} (h : s.node i = some n) : i.toNat < s.ncnt.val := by
  by_contra hc
  rw [State.node, if_neg hc] at h
  cases h

/-- Taking a walk apart: at a leaf it ends; at an internal entry it goes through both subtrees. -/
theorem visit_succ_cases {s : State} {n : Nat} {i : Idx} {l : List Idx} (h : s.visit (n + 1) i = some l) :
    ∃ nd, s.node i = some nd ∧
      ((nd.leaf = true ∧ l = [i]) ∨
       ∃ x y, l = i :: (x ++ y) ∧ s.visit n nd.left = some x ∧ s.visit n nd.right = some y) := by
  unfold State.visit at h
  split at h
  · cases h
  · rename_i nd hn
    refine ⟨nd, hn, ?_⟩
    split at h
    · rename_i hl; cases h; exact .inl ⟨hl, rfl⟩
    · split at h
      · rename_i x y hx hy; cases h; exact .inr ⟨x, y, rfl, hx, hy⟩
      · cases h

/-- A walk meets the entry it starts from. -/
theorem mem_visit_start {s : State} {n : Nat} {i : Idx} {l : List Idx} (h : s.visit n i = some l) : i ∈ l := by
  cases n with
  | zero => cases h
  | succ n =>
    obtain ⟨nd, -, ⟨-, rfl⟩ | ⟨x, y, rfl, -, -⟩⟩ := visit_succ_cases h
    · exact List.mem_singleton_self i
    · exact List.mem_cons_self

theorem lt_ncnt_of_mem_visit {s : State} {n : Nat} {i j : Idx} {l : List Idx} (h : s.visit n i = some l) (hj : j ∈ l) :
    j.toNat < s.ncnt.val := by
  induction n generalizing i l with
  | zero => cases h
  | succ n ih =>
    obtain ⟨nd, hn, ⟨-, rfl⟩ | ⟨x, y, rfl, hx, hy⟩⟩ := visit_succ_cases h
    · exact List.mem_singleton.mp hj ▸ lt_ncnt_of_node hn
    · rcases List.mem_cons.mp hj with rfl | hj
      · exact lt_ncnt_of_node hn
      · exact (List.mem_append.mp hj).elim (ih hx) (ih hy)

/-- In a walk that meets no entry twice, the children of an internal entry are two different entries of the walk, other than it. -/
theorem children_of_mem_visit {s : State} {n : Nat} {i j : Idx} {l : List Idx} (h : s.visit n i = some l) (hl : l.Nodup) (hj : j ∈ l)
    {nd : NodeRec} (hn : s.node j = some nd) (hleaf : nd.leaf = false) :
    nd.left ∈ l ∧ nd.right ∈ l ∧ nd.left ≠ nd.right ∧ nd.left ≠ j ∧ nd.right ≠ j := by
  induction n generalizing i l with
  | zero => cases h
  | succ n ih =>
    obtain ⟨md, hm, ⟨hmd, rfl⟩ | ⟨x, y, rfl, hx, hy⟩⟩ := visit_succ_cases h
    · obtain rfl := List.mem_singleton.mp hj
      obtain rfl := Option.some.inj (hm.symm.trans hn)
      exact absurd (hmd ▸ hleaf) (by decide)
    · obtain ⟨hi, hxy⟩ := List.nodup_cons.mp hl
      obtain ⟨hxn, hyn, hdisj⟩ := List.nodup_append.mp hxy
      rcases List.mem_cons.mp hj with rfl | hj
      · obtain rfl := Option.some.inj (hm.symm.trans hn)
        have hleft := mem_visit_start hx
        have hright := mem_visit_start hy
        exact ⟨by simp [hleft], by simp [hright], hdisj _ hleft _ hright,
          fun e => hi (e ▸ List.mem_append_left _ hleft), fun e => hi (e ▸ List.mem_append_right _ hright)⟩
      · rcases List.mem_append.mp hj with hj | hj
        · obtain ⟨hleft, hright, hne⟩ := ih hx hxn hj
          exact ⟨by simp [hleft], by simp [hright], hne⟩
        · obtain ⟨hleft, hright, hne⟩ := ih hy hyn hj
          exact ⟨by simp [hleft], by simp [hright], hne⟩

theorem wellFormed_visit {s : State} (h : s.wellFormed = true) :
    ∃ l, s.visit Config.treeFuel s.root = some l ∧ l.Nodup ∧ l.length = s.ncnt.val := by
  unfold State.wellFormed at h
  split at h
  · cases h
  · rename_i l hl
    rw [Bool.and_eq_true, decide_eq_true_eq, decide_eq_true_eq] at h
    exact ⟨l, hl, h⟩

/-- As many different numbers below `n` as `n` are all of them. -/
theorem mem_of_nodup_of_lt {n : Nat} {l : List Idx} (hl : l.Nodup) (hlt : ∀ j ∈ l, j.toNat < n) (hlen : l.length = n) {i : Idx}
    (hi : i.toNat < n) : i ∈ l := by
  have inj : Function.Injective (BitVec.toNat : Idx → Nat) := fun _ _ => BitVec.eq_of_toNat_eq
  have sub : l.map BitVec.toNat ⊆ List.range n := by
    intro k hk
    obtain ⟨j, hj, rfl⟩ := List.mem_map.mp hk
    exact List.mem_range.mpr (hlt j hj)
  have perm : (l.map BitVec.toNat).Perm (List.range n) :=
    (List.subperm_of_subset (hl.map inj) sub).perm_of_length_le (by simp [hlen])
  exact (List.mem_map_of_injective inj).mp (perm.mem_iff.mpr (List.mem_range.mpr hi))

/-- Settles O59: the sizes are those of the tree, and the walk from `ROOT` meets every entry in use. -/
theorem wellFormedArenaIsAFullTree : Obligations.WellFormedArenaIsAFullTree := by
  intro s h
  obtain ⟨tr, htr, hcount, hdepth⟩ := wellFormed_tree h
  obtain ⟨l, hl, hnodup, hlen⟩ := wellFormed_visit h
  have hleaves := nodeCount_leaves tr
  have hpos : 0 < tr.leaves.length := (Nat.zero_le _).trans_lt (depth_lt_leaves tr)
  have hbound := s.ncnt.isLt
  refine ⟨⟨tr, htr, hcount, by omega, by omega, hdepth⟩, by omega, by omega, by omega, lt_ncnt_of_mem_visit hl (mem_visit_start hl), ?_⟩
  intro i n hn hleaf
  have hi : i ∈ l := mem_of_nodup_of_lt hnodup (fun j => lt_ncnt_of_mem_visit hl) hlen (lt_ncnt_of_node hn)
  obtain ⟨hleft, hright, hne⟩ := children_of_mem_visit hl hnodup hi hn hleaf
  exact ⟨lt_ncnt_of_mem_visit hl hleft, lt_ncnt_of_mem_visit hl hright, hne⟩

end Sys2Proof.Machine

/-! The register port (`10_state.md` R33, R39): what each register shows, number by number. -/

namespace Sys2Proof.Machine

/-- A bit of a register that shows a narrower field. -/
theorem getLsbD_shownField {w : Nat} (x : BitVec w) {k : Nat} (hk : k < 255) : (x.setWidth 255).getLsbD k = x.getLsbD k := by
  rw [BitVec.getLsbD_setWidth, decide_eq_true hk, Bool.true_and]

/-- A field of a register that shows a narrower value. -/
theorem extractLsb'_shownField {w : Nat} (x : BitVec w) {a b : Nat} (hw : w ≤ 255) :
    (x.setWidth 255).extractLsb' a b = x.extractLsb' a b := by
  apply BitVec.eq_of_toNat_eq
  rw [BitVec.extractLsb'_toNat, BitVec.extractLsb'_toNat, toNat_setWidth_of_le x hw]

/-- `STATUS` by its bits: `FAULT`, `TV`, `CV`, `RES` from bit 0, then `ERR` (`10_state.md` R33). -/
theorem status_fields (s : State) :
    s.status.getLsbD 0 = s.fault ∧ s.status.getLsbD 1 = s.tv ∧ s.status.getLsbD 2 = s.cv ∧ s.status.getLsbD 3 = s.res ∧
      s.status.extractLsb' 4 4 = s.err.code := by
  have fields : ∀ (e : BitVec 4) (r c t f : Bool),
      let x := e ++ BitVec.ofBool r ++ BitVec.ofBool c ++ BitVec.ofBool t ++ BitVec.ofBool f
      x.getLsbD 0 = f ∧ x.getLsbD 1 = t ∧ x.getLsbD 2 = c ∧ x.getLsbD 3 = r ∧ x.extractLsb' 4 4 = e := by decide
  exact fields _ _ _ _ _

/-- `CT[b].len` beside its valid bit, as a number (`10_state.md` R33). -/
theorem codeLen_field {x : Bits} (hx : x.length ≤ 255) : ((1#1 ++ codeLen x).setWidth 255).toNat = x.length + 2 ^ 8 := by
  rw [toNat_setWidth_of_le _ (by decide), toNat_fields, codeLen, BitVec.toNat_ofNat, Nat.mod_eq_of_lt (by omega)]
  rfl

/-- A record by its fields (`10_state.md` R33). -/
theorem nodePacked_fields (n : NodeRec) :
    (nodePacked n).extractLsb' 0 40 = n.wt ∧ (nodePacked n).extractLsb' 40 8 = n.val ∧ (nodePacked n).extractLsb' 48 9 = n.left ∧
      (nodePacked n).extractLsb' 57 9 = n.right ∧ (nodePacked n).getLsbD 66 = n.leaf := by
  have hn := nodePacked_toNat n
  have hwt := n.wt.isLt
  have hval := n.val.isLt
  have hleft := n.left.isLt
  have hright := n.right.isLt
  refine ⟨?_, ?_, ?_, ?_, ?_⟩
  iterate 4
    apply BitVec.eq_of_toNat_eq
    rw [BitVec.extractLsb'_toNat, hn, Nat.shiftRight_eq_div_pow]
    omega
  rw [BitVec.getLsbD, hn, Nat.testBit_eq_decide_div_mod_eq]
  cases n.leaf <;> simp <;> omega

/-- No register shows a bit above its width. -/
theorem shown_lt (r : PortReg) (s : State) (any : PortData) : (r.shown s any).toNat < 2 ^ r.width := by
  cases r with
  | cmd => exact lowBits_lt _ _
  | ncnt => exact lt_of_le_of_lt (Nat.mod_le _ _) (lt_trans s.ncnt.isLt (by decide))
  | ctlen b =>
    cases h : s.code b with
    | some x => rw [shown_ctlen_some any h]; exact setWidth_lt _
    | none => rw [shown_ctlen_none any h]; exact lt_trans (lowBits_lt _ _) (show 2 ^ 8 < 2 ^ 9 by decide)
  | ctbits b => exact BitVec.isLt _
  | node i =>
    cases h : s.node (BitVec.ofNat 9 i.val) with
    | some n => rw [shown_node_some any h]; exact setWidth_lt _
    | none => rw [shown_node_none any h]; exact lowBits_lt _ _
  | status | total | root | pos | wstate | rstate | iptr | ft b => exact setWidth_lt _

/-- A counter in front of a byte, `WCNT` with `ACC` and `RPOS` with `CUR`, as a number (`10_state.md` R33). -/
theorem counterByte_field {w k : Nat} (v : Byte) (hk : k < 2 ^ w) (hw : w + 8 ≤ 255) :
    ((BitVec.ofNat w k ++ v).setWidth 255).toNat = v.toNat + 2 ^ 8 * k := by
  rw [toNat_setWidth_of_le _ hw, toNat_fields, BitVec.toNat_ofNat, Nat.mod_eq_of_lt hk]

/-- The valid bit of `CTLEN`; an invalid code shows 0 there whatever its unspecified bits are (`10_state.md` R33). -/
theorem shown_ctlen_valid (s : State) (b : Byte) (any : PortData) :
    ((PortReg.ctlen b).shown s any).getLsbD 8 = s.codeValid b := by
  unfold State.codeValid
  cases h : s.code b with
  | some x =>
    rw [shown_ctlen_some any h, getLsbD_shownField _ (by decide), BitVec.getLsbD_append]
    rfl
  | none => rw [shown_ctlen_none any h, lowBits, getLsbD_shownField _ (by decide), BitVec.getLsbD_of_ge _ _ (by decide)]; rfl

theorem portValue_eq_value {n : Nat} {r : PortReg} (s : State) (any : PortData) (h : portReg n = some r) :
    portValue n s any = r.value s any := by
  simp only [portValue, h]

/-- `STATUS` reads its value in every state, halted or not (`60_exceptions.md` R270). -/
theorem portValue_status (s : State) (any : PortData) : portValue 0x001 s any = s.status.setWidth 255 := by
  rw [portValue_eq_value (r := .status) s any rfl]
  simp [PortReg.value, PortReg.definedInFault, PortReg.shown]

/-- `IPTR` reads its value in every state, halted or not (`60_exceptions.md` R270). -/
theorem portValue_iptr (s : State) (any : PortData) : portValue 0x008 s any = s.iptr.setWidth 255 := by
  rw [portValue_eq_value (r := .iptr) s any rfl]
  simp [PortReg.value, PortReg.definedInFault, PortReg.shown]

/-- While halted a register that is not defined then shows its width of the free value (`60_exceptions.md` R270). -/
theorem portValue_halted {n : Nat} {r : PortReg} {s : State} (any : PortData) (h : portReg n = some r) (hs : s.fault = true)
    (hr : r.definedInFault = false) : portValue n s any = lowBits r.width any := by
  rw [portValue_eq_value s any h]
  simp [PortReg.value, hs, hr]

theorem portValue_unmapped {n : Nat} (s : State) (any : PortData) (h : portReg n = none) : portValue n s any = any := by
  simp only [portValue, h]

/-- An arena entry at or above `NCNT` shows the free value only (`10_state.md` R39). -/
theorem portValue_node_unused {s : State} {n : Nat} (any : PortData) (hf : s.fault = false) (hn : n < 511) (hc : s.ncnt.val ≤ n) :
    portValue (0x400 + n) s any = lowBits 67 any := by
  rw [portValue_eq_shown (portReg_node n hn) hf]
  apply shown_node_none
  unfold State.node
  rw [if_neg]
  rw [BitVec.toNat_ofNat, Nat.mod_eq_of_lt (show n < 2 ^ 9 by omega)]
  omega

/-- Settles O16, register by register. -/
theorem portLayout : Obligations.PortLayout := by
  intro s any hf
  have reg : ∀ {n r}, portReg n = some r → portValue n s any = r.shown s any := fun h => portValue_eq_shown h hf
  obtain ⟨fault, tv, cv, res, err⟩ := status_fields s
  rw [portValue_status, portValue_iptr, reg (r := .total) rfl, reg (r := .ncnt) rfl, reg (r := .root) rfl, reg (r := .pos) rfl,
    reg (r := .wstate) rfl, reg (r := .rstate) rfl]
  refine ⟨(getLsbD_shownField _ (by decide)).trans fault, (getLsbD_shownField _ (by decide)).trans tv,
    (getLsbD_shownField _ (by decide)).trans cv, (getLsbD_shownField _ (by decide)).trans res,
    (extractLsb'_shownField _ (by decide)).trans err, toNat_setWidth_of_le _ (by decide),
    Nat.mod_eq_of_lt (lt_trans s.ncnt.isLt (by decide)), toNat_setWidth_of_le _ (by decide), toNat_setWidth_of_le _ (by decide),
    counterByte_field _ s.wcnt.isLt (by decide), counterByte_field _ (lt_trans s.rpos.isLt (by decide)) (by decide),
    toNat_setWidth_of_le _ (by decide), ?width, ?count, ?valid, ?code, ?record⟩
  case width => exact fun n r h => reg h ▸ shown_lt r s any
  case count => exact fun b => by rw [reg (portReg_ft b)]; exact toNat_setWidth_of_le _ (by decide)
  case valid => exact fun b => by rw [reg (portReg_ctlen b)]; exact shown_ctlen_valid s b any
  case code =>
    intro b x hx hlen
    rw [reg (portReg_ctlen b), reg (portReg_ctbits b), shown_ctlen_some any hx, shown_ctbits_some any hx]
    exact ⟨codeLen_field hlen, fun k hk => codePacked_bit hlen hk⟩
  case record =>
    intro i n hi hn
    obtain ⟨wt, val, left, right, leaf⟩ := nodePacked_fields n
    have hnode : s.node (BitVec.ofNat 9 i.toNat) = some n := by rw [BitVec.ofNat_toNat, BitVec.setWidth_eq]; exact hn
    rw [reg (portReg_node _ hi), shown_node_some any hnode]
    exact ⟨(extractLsb'_shownField _ (by decide)).trans wt, (extractLsb'_shownField _ (by decide)).trans val,
      (extractLsb'_shownField _ (by decide)).trans left, (extractLsb'_shownField _ (by decide)).trans right,
      (getLsbD_shownField _ (by decide)).trans leaf⟩

/-- Settles O17: wherever the spec leaves a read unspecified it is a function of the free value alone. -/
theorem unspecifiedReadsRevealNothing : Obligations.UnspecifiedReadsRevealNothing := by
  refine ⟨?halted, fun s n any h => portValue_unmapped s any h, ?cmd, ?invalidLength, ?invalidBits, ?unusedNode⟩
  case halted =>
    intro s u n any hs hu hstatus hiptr
    cases h : portReg n with
    | none => rw [portValue_unmapped s any h, portValue_unmapped u any h]
    | some r =>
      have hr : r.definedInFault = false := by
        rw [← Bool.not_eq_true, definedInFault_iff h]
        exact not_or.mpr ⟨hstatus, hiptr⟩
      rw [portValue_halted any h hs hr, portValue_halted any h hu hr]
  case cmd =>
    intro s u any hs hu
    rw [portValue_eq_shown (r := .cmd) rfl hs, portValue_eq_shown (r := .cmd) rfl hu]; rfl
  case invalidLength =>
    intro s u b any hs hu hsb hub
    rw [portValue_eq_shown (portReg_ctlen b) hs, portValue_eq_shown (portReg_ctlen b) hu,
      shown_ctlen_none any (code_none_of_invalid hsb), shown_ctlen_none any (code_none_of_invalid hub)]
  case invalidBits =>
    intro s b any hs hsb
    rw [portValue_eq_shown (portReg_ctbits b) hs, shown_ctbits_none any (code_none_of_invalid hsb)]
  case unusedNode =>
    intro s u n any hs hu hsn hun hn
    rw [portValue_node_unused any hs hn hsn, portValue_node_unused any hu hn hun]

end Sys2Proof.Machine

/-! The host's actions that are no command (`70_reset_and_hazards.md` R290, R296), and the state after reset (`10_state.md` R38). -/

namespace Sys2Proof.Machine

theorem step_of_pending {s : State} {a : HostAction} {rest : List HostAction} (h : s.pending = a :: rest) :
    step s = hostAction a { s with pending := rest } := by
  simp only [step, h]

/-- Settles O8. -/
theorem hostActionsThatChangeNothing : Obligations.HostActionsThatChangeNothing := by
  refine ⟨fun s n w rest h hn => ?_, fun s rest h => step_of_pending h, fun s h => ?_⟩
  · rw [step_of_pending h]
    exact if_neg hn
  · simp only [step, h]

/-- Settles O15: a read runs `readPort`, which writes the model's own two fields. -/
theorem registerReadsHaveNoSideEffect : Obligations.RegisterReadsHaveNoSideEffect :=
  ⟨fun _ _ _ h => step_of_pending h, fun s any => ⟨portValue_status s any, portValue_iptr s any⟩⟩

theorem reset_atReset : State.reset.AtReset where
  iptr := rfl
  counts v := by simp [State.count]
  total := rfl
  arena := ⟨rfl, rfl⟩
  records i := by simp
  valid := ⟨rfl, rfl⟩
  queue i := by simp
  codes v := by simp [State.codeValid, State.code]
  writer := ⟨rfl, rfl⟩
  reader := ⟨rfl, rfl⟩
  pos := rfl
  res := rfl
  fault := ⟨rfl, rfl⟩

/-- The reset values say nothing of the streams and of the host's side. -/
theorem State.AtReset.setOutside {s : State} (h : s.AtReset) (inp out : List Byte) (pending : List HostAction)
    (readData : Option PortData) (free : Nat) :
    ({ s with inp := inp, out := out, pending := pending, readData := readData, free := free } : State).AtReset := by
  obtain ⟨iptr, counts, total, arena, records, valid, queue, codes, writer, reader, pos, res, fault⟩ := h
  exact ⟨iptr, counts, total, arena, records, valid, queue, codes, writer, reader, pos, res, fault⟩

theorem clear_atReset (s : State) : s.clear.AtReset := reset_atReset.setOutside s.inp s.out s.pending s.readData s.free

theorem hardReset_atReset (s : State) : s.hardReset.AtReset := reset_atReset.setOutside [] [] s.pending s.readData s.free

/-- Settles O10. -/
theorem resetAndClrGiveTheResetValues : Obligations.ResetAndClrGiveTheResetValues :=
  ⟨⟨reset_atReset, rfl, rfl⟩,
    fun s rest h => ⟨({ s with pending := rest } : State).hardReset, step_of_pending h, hardReset_atReset _, rfl, rfl, rfl, rfl⟩,
    fun s => ⟨s.clear, rfl, clear_atReset s, rfl, rfl, rfl, rfl⟩⟩

/-- Settles O51: after reset `FAULT`, `TV` and `CV` are 0, the streams, the writer and the queue are empty. -/
theorem resetMeetsTheInvariants : Obligations.ResetMeetsTheInvariants where
  stream := ⟨by decide, by decide⟩
  writer := fun _ => by decide
  status := ⟨by decide, fun h => absurd h (by decide)⟩
  queue := rfl
  tree := fun h => absurd h (by decide)
  codes := fun h => absurd h (by decide)
  noTree := fun _ _ => ⟨rfl, rfl, rfl⟩

end Sys2Proof.Machine

/-! The streams through a step: `IPTR` stays inside an input shorter than `2^PTR_W`, which a bind alone replaces (`10_state.md` R26, R36;
`20_memory.md` R61, R62). -/

namespace Sys2Proof.Machine

/-- The stream invariant speaks of `IN` and `IPTR` only. -/
theorem State.StreamInv.of_streams_eq {s t : State} (h : s.StreamInv) (hinp : t.inp = s.inp) (hiptr : t.iptr = s.iptr) : t.StreamInv :=
  stream_of_le h hinp (hiptr ▸ h.pointer)

/-- With `IPTR` at the first byte a short input is all the invariant asks: `CLR`, `REWIND`, bind and reset. -/
theorem streamInv_of_iptr_zero {s : State} (hinp : s.inp.length < Config.inputLimit) (hiptr : s.iptr = 0#40) : s.StreamInv :=
  ⟨hinp, by rw [hiptr]; exact Nat.zero_le _⟩

theorem streamInv_takeFault {s : State} (h : s.StreamInv) (e : FaultCode) : (s.takeFault e).StreamInv :=
  h.of_streams_eq (takeFault_inp s e) (takeFault_iptr s e)

theorem streamInv_of_next {t u : State} (h : (.next u : Host.Outcome State Fault Refusal) = .next t) (hu : u.StreamInv) : t.StreamInv :=
  Host.Outcome.next.inj h ▸ hu

/-- A command keeps the invariant where its body does: fault entry keeps `IN` and `IPTR` (`60_exceptions.md` R262). -/
theorem streamInv_of_finish {t : State} {r : Result State} (ht : r.finish = .next t)
    (h : r.All State.StreamInv (fun _ => State.StreamInv)) : t.StreamInv := by
  obtain hok | ⟨e, u, hu, rfl⟩ := finish_cases h ht
  · exact hok
  · exact streamInv_takeFault hu e

/-- The body is named by an equation, as in `tbuildBody_frame`. -/
theorem tbuildBody_stream {s : State} {r : Result State} (hr : tbuildBody s = r) (h : s.StreamInv) :
    r.All State.StreamInv (fun _ => State.StreamInv) := by
  refine all_mono (tbuildBody_frame hr) ?_ (fun e u ⟨_, hinp, hiptr, _⟩ => h.of_streams_eq hinp hiptr)
  rintro u ⟨frame, -⟩
  exact h.of_streams_eq (by rw [frame]) (by rw [frame])

theorem ctgenBody_stream {s : State} (h : s.StreamInv) : (ctgenBody s).All State.StreamInv (fun _ => State.StreamInv) :=
  all_mono (ctgenBody_frame s) (fun _ ⟨frame, _⟩ => h.of_streams_eq (by rw [frame]) (by rw [frame])) (fun _ _ ⟨_, hu⟩ => hu ▸ h)

theorem tserBody_stream {s : State} (h : s.StreamInv) : (tserBody s).All State.StreamInv (fun _ => State.StreamInv) :=
  all_mono (tserBody_frame s) (fun _ ⟨_, _, hu⟩ => hu ▸ writeBits_stream h _) (fun _ _ ⟨_, hu⟩ => hu ▸ h)

/-- Every command keeps the stream invariant. -/
theorem exec_stream {i : Instr} {s t : State} (hs : s.StreamInv) (h : exec i s = .next t) : t.StreamInv := by
  cases i with
  | nop => exact streamInv_of_next h hs
  | clr => exact streamInv_of_next h (streamInv_of_iptr_zero hs.short rfl)
  | rewind => exact streamInv_of_next h (streamInv_of_iptr_zero hs.short rfl)
  | fcnt => exact streamInv_of_finish h (fcntBody_stream hs)
  | tbuild =>
    change (tbuildBody s).finish = _ at h
    generalize hr : tbuildBody s = r at h
    exact streamInv_of_finish h (tbuildBody_stream hr hs)
  | ctgen => exact streamInv_of_finish h (ctgenBody_stream hs)
  | tser => exact streamInv_of_finish h (tserBody_stream hs)
  | tdes => exact streamInv_of_finish h (tdesBody_stream hs)
  | wbit b => exact streamInv_of_next h (writeBits_stream hs [b])
  | wflush => exact streamInv_of_next h (hs.of_streams_eq (flush_inp s) (flush_iptr s))
  | rbit => exact streamInv_of_finish h (rbitBody_stream hs)
  | wmark => exact streamInv_of_next h (hs.of_streams_eq (writeMarker_inp s) (writeMarker_iptr s))
  | emit => exact streamInv_of_finish h (emitBody_stream hs)
  | encode => exact streamInv_of_finish h (encodeBody_stream hs)
  | rseed => exact streamInv_of_finish h (rseedBody_stream hs)
  | ralign => exact streamInv_of_next h (hs.of_streams_eq rfl rfl)
  | rskip3 => exact streamInv_of_finish h (rskip3Body_stream hs)
  | walk => exact streamInv_of_finish h (walkBody_stream hs)
  | decode => exact streamInv_of_finish h (decodeBody_stream hs)

/-- Settles O52: a command keeps the invariant by its body, a bind is of fewer than `2^PTR_W` bytes and starts at the first one, reset
unbinds the input, and whatever else a step can do leaves `IN` and `IPTR` alone. -/
theorem stepKeepsTheStreamInvariant : Obligations.StepKeepsTheStreamInvariant := by
  intro s t hs h
  obtain rfl | ⟨u, ⟨rest, rfl⟩, hu⟩ := step_cases h
  · exact hs
  · have hpop : ({ s with pending := rest } : State).StreamInv := hs.of_streams_eq rfl rfl
    obtain rfl | ⟨i, -, hi⟩ | ⟨-, rfl⟩ | ⟨n, rfl⟩ | ⟨bytes, hshort, rfl⟩ | rfl := hu
    · exact hpop
    · exact exec_stream hpop hi
    · exact streamInv_takeFault hpop _
    · exact hpop.of_streams_eq rfl rfl
    · exact streamInv_of_iptr_zero hshort rfl
    · exact streamInv_of_iptr_zero (show 0 < Config.inputLimit by decide) rfl

/-- A bind under the launch premise (`20_memory.md` R61, R62). -/
theorem hostAction_bind_short {bytes : List Byte} (s : State) (h : bytes.length < Config.inputLimit) :
    hostAction (.bind bytes) s = .next (s.bindInput bytes) := if_pos h

/-- A bind outside it is refused (`20_memory.md` R62). -/
theorem hostAction_bind_long {bytes : List Byte} (s : State) (h : Config.inputLimit ≤ bytes.length) :
    hostAction (.bind bytes) s = .refused .bindTooLong := if_neg (Nat.not_lt.mpr h)

/-- Settles O9. -/
theorem bindReplacesTheStreams : Obligations.BindReplacesTheStreams := by
  intro s bytes rest h
  rw [step_of_pending h]
  exact ⟨hostAction_bind_short _, hostAction_bind_long _⟩

end Sys2Proof.Machine

/-! The command words (`30_encoding.md` R90 to R96): the table holds one row per command, its rows are disjoint, and a row selects
exactly the words of its command. The decoder therefore inverts the encoder and accepts no other word. -/

namespace Sys2Proof

/-- The row of R96 that a command stands in; both values of the bit of `WBIT` share one row. -/
def commandRow : Instr → Row
  | .wbit _ => rowB 0x60#8 .wbit
  | i => rowN (opcode i) i

/-- One command of each row, in the order of the table (R96). -/
def tableCommands : List Instr :=
  [.nop, .clr, .rewind, .fcnt, .tbuild, .ctgen, .tser, .tdes, .wbit false, .wflush, .rbit, .wmark, .emit, .encode, .rseed, .ralign,
    .rskip3, .walk, .decode]

theorem rows_eq_map_commandRow : rows = tableCommands.map commandRow := rfl

theorem commandRow_mem_rows (i : Instr) : commandRow i ∈ rows := by
  cases i <;> simp [rows, commandRow, opcode]

theorem exists_commandRow_of_mem_rows {r : Row} (hr : r ∈ rows) : ∃ i, commandRow i = r := by
  obtain ⟨i, -, hi⟩ := List.mem_map.mp (rows_eq_map_commandRow ▸ hr)
  exact ⟨i, hi⟩

/-- A format-N row fixes the whole word (R91). -/
theorem rowN_selects_iff (op : BitVec 8) (i : Instr) (w : CmdWord) :
    w &&& (rowN op i).mask = (rowN op i).pattern ↔ op ++ 0x00#8 = w := by
  have hmask : w &&& 0xFFFF#16 = w := BitVec.and_allOnes
  simp only [rowN, hmask, eq_comm]

/-- The mask of a format-B row tests every bit of the word but bit 0 (R92). -/
theorem getLsbD_rowB_mask (op : BitVec 8) (f : Bool → Instr) (k : Nat) :
    (rowB op f).mask.getLsbD k = (decide (k < 16) && !decide (k = 0)) := by
  have hmask : (rowB op f).mask = ~~~1#16 := rfl
  rw [hmask, BitVec.getLsbD_not, BitVec.getLsbD_one]
  simp

/-- A format-B row leaves bit 0 open and fixes the rest (R92). -/
theorem rowB_selects_iff (op : BitVec 8) (f : Bool → Instr) (w : CmdWord) :
    w &&& (rowB op f).mask = (rowB op f).pattern ↔ op ++ (BitVec.ofBool (w.getLsbD 0)).setWidth 8 = w := by
  have hpattern : (rowB op f).pattern = op ++ 0x00#8 := rfl
  rw [BitVec.eq_of_getLsbD_eq_iff, BitVec.eq_of_getLsbD_eq_iff]
  refine forall₂_congr fun k hk => ?_
  rw [BitVec.getLsbD_and, getLsbD_rowB_mask, hpattern, BitVec.getLsbD_append, BitVec.getLsbD_append, BitVec.getLsbD_setWidth,
    BitVec.getLsbD_ofBool]
  cases k with
  | zero => simp
  | succ k => simp [hk, eq_comm]

/-- A row selects the words of its command and no others. -/
theorem commandRow_selects_iff (i : Instr) (w : CmdWord) :
    w &&& (commandRow i).mask = (commandRow i).pattern ↔ encode ((commandRow i).instr w) = w := by
  cases i with
  | wbit b => exact rowB_selects_iff _ _ w
  | _ => exact rowN_selects_iff _ _ w

theorem commandRow_instr_encode (i : Instr) : (commandRow i).instr (encode i) = i := by
  cases i with
  | wbit b => cases b <;> rfl
  | _ => rfl

theorem encode_instr_of_mem_rows {r : Row} {w : CmdWord} (hr : r ∈ rows) (hw : w &&& r.mask = r.pattern) : encode (r.instr w) = w := by
  obtain ⟨i, rfl⟩ := exists_commandRow_of_mem_rows hr
  exact (commandRow_selects_iff i w).mp hw

/-- No word matches both rows. -/
def Row.Disjoint (r q : Row) : Prop := ∀ w : CmdWord, ¬(w &&& r.mask = r.pattern ∧ w &&& q.mask = q.pattern)

theorem Row.disjoint_symm : Std.Symm Row.Disjoint := ⟨fun _ _ h w hw => h w hw.symm⟩

/-- Two patterns that differ on the bits both masks test share no word. -/
theorem Row.disjoint_of_patterns_ne {r q : Row} (h : r.pattern &&& q.mask ≠ q.pattern &&& r.mask) : r.Disjoint q := by
  rintro w ⟨hr, hq⟩
  apply h
  rw [← hr, ← hq, BitVec.and_assoc, BitVec.and_assoc, BitVec.and_comm r.mask]

theorem rows_pairwise_disjoint : rows.Pairwise Row.Disjoint := by
  have hpatterns : rows.Pairwise fun r q => r.pattern &&& q.mask ≠ q.pattern &&& r.mask := by decide
  exact hpatterns.imp Row.disjoint_of_patterns_ne

theorem row_unique {r q : Row} {w : CmdWord} (hr : r ∈ rows) (hq : q ∈ rows) (hrw : w &&& r.mask = r.pattern)
    (hqw : w &&& q.mask = q.pattern) : r = q := by
  have := Row.disjoint_symm
  by_contra hne
  exact rows_pairwise_disjoint.forall hr hq hne w ⟨hrw, hqw⟩

/-- R94's test as the decoder makes it. -/
theorem Row.selects_iff (r : Row) (w : CmdWord) : r.selects w = true ↔ w &&& r.mask = r.pattern := beq_iff_eq

/-- The decoder answers with the one row that selects the word. -/
theorem decode_of_mem_rows {r : Row} {w : CmdWord} (hr : r ∈ rows) (hw : w &&& r.mask = r.pattern) : decode w = .ok (r.instr w) := by
  unfold decode
  cases hfind : rows.find? (fun r => r.selects w) with
  | none => exact absurd ((r.selects_iff w).mpr hw) (List.find?_eq_none.mp hfind r hr)
  | some q =>
    have hqw : w &&& q.mask = q.pattern := (q.selects_iff w).mp (List.find?_some (p := (Row.selects · w)) hfind)
    rw [row_unique hr (List.mem_of_find?_eq_some hfind) hw hqw]

theorem decode_of_no_row {w : CmdWord} (h : ∀ r ∈ rows, w &&& r.mask ≠ r.pattern) : decode w = .error (whyIllegal w) := by
  have hfind : rows.find? (fun r => r.selects w) = none :=
    List.find?_eq_none.mpr fun r hr hsel => h r hr ((r.selects_iff w).mp hsel)
  simp only [decode, hfind]

theorem decode_encode (i : Instr) : decode (encode i) = .ok i := by
  have hinstr := commandRow_instr_encode i
  have hsel := (commandRow_selects_iff i (encode i)).mpr (congrArg encode hinstr)
  rw [decode_of_mem_rows (commandRow_mem_rows i) hsel, hinstr]

theorem encode_of_decode {w : CmdWord} {i : Instr} (h : decode w = .ok i) : encode i = w := by
  by_cases hrow : ∃ r ∈ rows, w &&& r.mask = r.pattern
  · obtain ⟨r, hr, hw⟩ := hrow
    obtain rfl : r.instr w = i := Except.ok.inj ((decode_of_mem_rows hr hw).symm.trans h)
    exact encode_instr_of_mem_rows hr hw
  · rw [decode_of_no_row (by simpa using hrow)] at h
    cases h

/-- Settles O1. -/
theorem decodeInvertsEncode : Obligations.DecodeInvertsEncode := fun i _ => decode_encode i

/-- Settles O2. -/
theorem decodeAcceptsOnlyEncodedWords : Obligations.DecodeAcceptsOnlyEncodedWords := fun _ _ => encode_of_decode

/-- Settles O4: each word of the table is its command's encoding. -/
theorem tableWordsDecode : Obligations.TableWordsDecode :=
  ⟨decode_encode .nop, decode_encode .clr, decode_encode .rewind, decode_encode .fcnt, decode_encode .tbuild, decode_encode .ctgen,
    decode_encode .tser, decode_encode .tdes, decode_encode (.wbit false), decode_encode (.wbit true), decode_encode .wflush,
    decode_encode .rbit, decode_encode .wmark, decode_encode .emit, decode_encode .encode, decode_encode .rseed,
    decode_encode .ralign, decode_encode .rskip3, decode_encode .walk, decode_encode .decode⟩

end Sys2Proof

/-! A word on `CMD` (`30_encoding.md` R94, R95): the three branches of `command`, and what a step makes of them. -/

namespace Sys2Proof.Machine

theorem command_of_halted {w : CmdWord} {s : State} (hs : s.fault = true) (hw : w ≠ 0x0100#16) : command w s = .next s :=
  if_pos ⟨hs, hw⟩

theorem command_of_legal {w : CmdWord} {s : State} {i : Instr} (hs : s.fault = true → w = 0x0100#16) (hw : decode w = .ok i) :
    command w s = exec i s := by
  rw [command, if_neg fun ⟨hf, hne⟩ => hne (hs hf), hw]

theorem command_of_illegal {w : CmdWord} {s : State} {e : Illegal} (hs : s.fault = false) (hw : decode w = .error e) :
    command w s = .next (s.takeFault .illegalCommand) := by
  rw [command, if_neg fun ⟨hf, _⟩ => Bool.false_ne_true (hs.symm.trans hf), hw]

/-- Settles O3. -/
theorem commandDispatchFollowsTheTable : Obligations.CommandDispatchFollowsTheTable :=
  ⟨fun _ _ => command_of_halted,
    fun _ _ _ hs hr hw => command_of_legal hs (decode_of_mem_rows hr hw),
    fun _ _ hs hno => command_of_illegal hs (decode_of_no_row hno),
    rows_pairwise_disjoint⟩

/-- Settles O5: such a word does not decode, and fault entry leaves the streams and the host's side alone. -/
theorem illegalWordRaisesIllegalCommand : Obligations.IllegalWordRaisesIllegalCommand := by
  intro w s hs hw
  cases hd : decode w with
  | ok i => exact absurd (encode_of_decode hd) (hw i)
  | error e =>
    exact ⟨s.takeFault .illegalCommand, command_of_illegal hs hd, takeFault_status s _, rfl, rfl, rfl, rfl, rfl⟩

/-- Settles O6: where the core is halted the word is that of `CLR`, which the halted check lets pass. -/
theorem stepRunsTheDecodedCommand : Obligations.StepRunsTheDecodedCommand := by
  intro s w i rest hp hd hclr
  have hword : s.fault = true → w = 0x0100#16 := fun hf => by
    rw [← encode_of_decode hd, hclr hf]
    rfl
  rw [step_of_pending hp]
  exact command_of_legal hword hd

end Sys2Proof.Machine

/-! `NOP`, `REWIND` and `RALIGN` (`40_control.md` R120, R122; `48_decoder.md` R236): one equation each, in every state. -/

namespace Sys2Proof.Machine

theorem exec_nop (s : State) : exec .nop s = .next s := rfl

theorem exec_rewind (s : State) : exec .rewind s = .next s.rewind := rfl

theorem exec_ralign (s : State) : exec .ralign s = .next s.alignReader := rfl

/-- Settles O18: `rewind` and `alignReader` are the single-field updates that the statement writes out. -/
theorem nopRewindRalignEffects : Obligations.NopRewindRalignEffects :=
  fun s => ⟨exec_nop s, exec_rewind s, exec_ralign s⟩

end Sys2Proof.Machine

/-! `FCNT` (`41_frequency_counter.md` R130, R131): from cleared counts its loop either reaches the end of the input or stops just past
the byte whose count is full. Which of the two it is, and where it stops, the input alone decides. -/

namespace Sys2Proof.Machine

@[simp] theorem clearCounts_count (s : State) (v : Byte) : s.clearCounts.count v = 0#32 := Vector.getElem_replicate _

@[simp] theorem clearCounts_rest (s : State) : s.clearCounts.rest = s.rest := rfl

theorem exec_fcnt (s : State) : exec .fcnt s = (fcntBody s).finish := rfl

theorem rest_length_lt {s : State} (h : s.StreamInv) : s.rest.length < 2 ^ 40 := by
  rw [State.rest, List.length_drop]
  exact lt_of_le_of_lt (Nat.sub_le _ _) h.short

/-- Everything `FCNT` can do, in terms of the bytes still to be read. -/
theorem fcntBody_cases {s : State} (h : s.StreamInv) :
    (∃ t, fcntBody s = .ok t ∧ (∀ v, (t.count v).toNat = s.rest.count v) ∧ t.total.toNat = s.rest.length ∧
      t.iptr.toNat = s.inp.length ∧ s.countFrame t) ∨
    (∃ t p v q, fcntBody s = .raised .countOverflow t ∧ s.rest = p ++ v :: q ∧ (∀ u, p.count u < 2 ^ 32) ∧
      p.count v = 2 ^ 32 - 1 ∧ t.iptr.toNat = s.iptr.toNat + p.length + 1 ∧ s.countFrame t) := by
  have hclear : s.clearCounts.StreamInv := h.of_streams_eq rfl rfl
  rcases fcntLoop_cases s.bytesLeft s.clearCounts hclear (bytesLeft_eq s).ge with
    ⟨t, hrun, hcount, htotal, hiptr, hframe⟩ | ⟨t, p, v, q, hrun, hrest, hbelow, hfull, hiptr, hframe⟩
  · refine .inl ⟨t, hrun, fun v => ?_, ?_, hiptr, hframe⟩
    · simpa using hcount v
    · rw [htotal, clearCounts_total, clearCounts_rest, BitVec.zero_add, BitVec.toNat_ofNat]
      exact Nat.mod_eq_of_lt (rest_length_lt h)
  · exact .inr ⟨t, p, v, q, hrun, hrest, fun u => by simpa using hbelow u, by simpa using hfull, hiptr, hframe⟩

/-- Where a list begins with `p` and a `v`, it holds more `v`s than `p`. -/
theorem count_lt_of_split {l p q : List Byte} {v : Byte} (h : l = p ++ v :: q) : p.count v < l.count v := by
  rw [h, List.count_append, List.count_cons_self]
  omega

/-- A beginning `p'` of the list that holds no more `v`s than `p` ends before the `v` that follows `p`. -/
theorem length_le_of_count_le {l p q p' r : List Byte} {v : Byte} (h : l = p ++ v :: q) (h' : l = p' ++ r)
    (hcount : p'.count v ≤ p.count v) : p'.length ≤ p.length := by
  by_contra hlong
  have hv : p ++ [v] <+: l := ⟨q, by simp [h]⟩
  have hpre : p ++ [v] <+: p' := List.prefix_of_prefix_length_le hv ⟨r, h'.symm⟩ (by simp; omega)
  have hmore := hpre.sublist.count_le v
  rw [List.count_append, List.count_singleton_self] at hmore
  omega

/-- Settles O27: the `2^32` occurrences that an overflow takes are not there. -/
theorem fcntCountsTheRestOfTheInput : Obligations.FcntCountsTheRestOfTheInput := by
  intro s h hfew
  rw [exec_fcnt]
  obtain ⟨t, hrun, hcount, htotal, hiptr, hframe⟩ | ⟨t, p, v, q, -, hrest, -, hfull, -, -⟩ := fcntBody_cases h
  · exact ⟨t, by rw [hrun, finish_ok], hcount, by rw [htotal, State.rest, List.length_drop], hiptr, hframe⟩
  · have hlt : s.rest.count v < 2 ^ 32 := hfew v
    have := count_lt_of_split hrest
    omega

/-- Settles O28: no count holds all the occurrences of `v`, so the scan overflows; it does so at the byte after `p`, because neither `p`
nor what it read before its last byte reaches past the other's full byte. -/
theorem fcntRaisesCountOverflow : Obligations.FcntRaisesCountOverflow := by
  intro s p q v h hsplit hbelow hfull
  change s.rest = p ++ v :: q at hsplit
  rw [exec_fcnt]
  obtain ⟨t, -, hcount, -, -, -⟩ | ⟨t, p', w, q', hrun, hsplit', hbelow', hfull', hiptr, hframe⟩ := fcntBody_cases h
  · have := count_lt_of_split hsplit
    have := hcount v
    have := (t.count v).isLt
    omega
  · have hle : p'.length ≤ p.length := length_le_of_count_le hsplit hsplit' (by have := hbelow' v; omega)
    have hge : p.length ≤ p'.length := length_le_of_count_le hsplit' hsplit (by have := hbelow w; omega)
    refine ⟨t.takeFault .countOverflow, by rw [hrun, finish_raised], takeFault_status t _, ?_, ?_, ?_⟩
    · rw [takeFault_iptr, hiptr, le_antisymm hle hge]
    · rw [takeFault_inp, hframe]
    · rw [takeFault_out, hframe]

end Sys2Proof.Machine

/-! `TBUILD` (`42_tree_builder.md` R140 to R149): the queue hands out its least key, and what the command leaves is read off the arena
of the merge loop (`tbuildBody_ok`), in the indices that `State.node` takes. -/

namespace Sys2Proof.Machine

theorem node_eq_some_iff {s : State} {i : Idx} {n : NodeRec} :
    s.node i = some n ↔ i.toNat < s.ncnt.val ∧ s.nodes[i.toNat]? = some n := by
  simp [State.node]

theorem idx_toNat_ofNat {k : Nat} (h : k < 512) : (BitVec.ofNat 9 k : Idx).toNat = k := by
  rw [BitVec.toNat_ofNat, Nat.mod_eq_of_lt h]

theorem exists_idx_toNat_eq {k : Nat} (h : k < 512) : ∃ i : Idx, i.toNat = k := ⟨BitVec.ofNat 9 k, idx_toNat_ofNat h⟩

theorem member_iff {s : State} {j : Nat} (hj : j < 511) : s.member j ↔ s.inq[j] = true := by
  rw [State.member, Vector.getElem?_eq_getElem hj, Option.some_inj]

/-- What `ExtractMin` can do: the least member leaves the queue. -/
theorem extractMin_cases {s t : State} {i : Idx} (h : s.extractMin = some (i, t)) :
    s.minMember = some i.toNat ∧ t = { s with inq := s.inq.setIfInBounds i.toNat false } := by
  have hleast := minMember_spec s
  rw [State.extractMin] at h
  cases hm : s.minMember with
  | none =>
    rw [hm] at h
    cases h
  | some m =>
    rw [hm] at h hleast
    cases h
    rw [idx_toNat_ofNat (Nat.lt_succ_of_lt (member_lt hleast.1))]
    exact ⟨rfl, rfl⟩

/-- Settles O30: the member taken is the one of `minMember`, whose key `minMember_spec` compares with the others. -/
theorem extractMinTakesTheLeastKey : Obligations.ExtractMinTakesTheLeastKey := by
  intro s
  refine ⟨fun i t h => ?_, fun j hj hjq => ?_⟩
  · obtain ⟨hmin, rfl⟩ := extractMin_cases h
    have hleast := minMember_spec s
    rw [hmin] at hleast
    obtain ⟨hmem, n, hn, hless⟩ := hleast
    have hi : i.toNat < 511 := member_lt hmem
    obtain rfl : s.nodes[i.toNat] = n := by rwa [Vector.getElem?_eq_getElem hi, Option.some_inj] at hn
    refine ⟨hmin, hi, (member_iff hi).mp hmem, fun j hj hjq hne => ?_, fun j hj => ?_, rfl⟩
    · exact hless j _ ((member_iff hj).mpr hjq) (Vector.getElem?_eq_getElem hj) hne
    · rw [Vector.getElem_setIfInBounds]
      simp only [@eq_comm Nat j]
  · obtain ⟨m, -, hrun, -⟩ := extractMin_some ((member_iff hj).mpr hjq)
    exact ⟨_, _, hrun⟩

theorem exec_tbuild (s : State) : exec .tbuild s = (tbuildBody s).finish := rfl

/-- Settles O29: without a count no leaf is planted, and fault entry keeps the streams. -/
theorem tbuildNeedsACount : Obligations.TbuildNeedsACount := by
  intro s hzero
  obtain ⟨hrun, hinp, hiptr, hout, -⟩ := tbuildBody_empty s hzero
  exact ⟨s.plantLeaves.takeFault .emptyInput, by rw [exec_tbuild, hrun, finish_raised], takeFault_status _ _,
    by rw [takeFault_inp, hinp], by rw [takeFault_iptr, hiptr], by rw [takeFault_out, hout]⟩

/-- Settles O31: the merge loop ends with one tree, whose root is the last entry. -/
theorem tbuildPlantsLeavesAndEndsAtTheRoot : Obligations.TbuildPlantsLeavesAndEndsAtTheRoot := by
  intro s hcount
  obtain ⟨t, tr, hrun, hroot, hlast, hpos, htv, hcv, hqueue, -, -, -, hsize, -, hleaves, -, -, hframe⟩ := tbuildBody_ok s hcount
  have hncnt := t.ncnt.isLt
  have hidx : t.root.toNat = tr.idx := by rw [hroot, idx_toNat_ofNat (by omega)]
  refine ⟨t, by rw [exec_tbuild, hrun, finish_ok], hsize, by rw [hidx, hlast], hpos, htv, hcv, hqueue, fun k v hk => ?_, hframe⟩
  have hlt : k < s.present.length := (List.getElem?_eq_some_iff.mp hk).1
  exact node_of_get (hleaves k v hk) (by omega)

/-- Settles O32: `merged` says it of the records, and an index below `NCNT` reads its record. -/
theorem tbuildMergesEarlierNodes : Obligations.TbuildMergesEarlierNodes := by
  intro s t hcount hrun
  obtain ⟨u, tr, hbody, hroot, hlast, -, -, -, -, -, -, -, -, -, -, hmerged, ⟨n, hn, hsum⟩, -⟩ := tbuildBody_ok s hcount
  rw [exec_tbuild, hbody, finish_ok] at hrun
  cases hrun
  refine ⟨fun i hleaves hi => ?_, n, ?_, hsum⟩
  · obtain ⟨l, r, nl, nr, hnl, hnr, hl, hr, hless, hni, hleast⟩ := hmerged i.toNat hleaves hi
    have hin : i.toNat < 512 := i.isLt
    obtain ⟨l, rfl⟩ := exists_idx_toNat_eq (hl.trans hin)
    obtain ⟨r, rfl⟩ := exists_idx_toNat_eq (hr.trans hin)
    simp only [BitVec.ofNat_toNat, BitVec.setWidth_eq] at hni hleast
    refine ⟨l, r, nl, nr, node_eq_some_iff.mpr ⟨hl.trans hi, hnl⟩, node_eq_some_iff.mpr ⟨hr.trans hi, hnr⟩, hl, hr, hless,
      node_eq_some_iff.mpr ⟨hi, hni⟩, fun k nk hk hnk hfree => ?_⟩
    refine hleast k.toNat nk hk (node_eq_some_iff.mp hnk).2 fun j nj hj hnj hinner => ?_
    obtain ⟨j, rfl⟩ := exists_idx_toNat_eq (hj.trans_lt hin)
    simpa using hfree j nj hj (node_eq_some_iff.mpr ⟨hj.trans_lt hi, hnj⟩) hinner
  · rw [hroot]
    exact node_of_get hn (by omega)

end Sys2Proof.Machine

/-! `CTGEN` (`43_code_table.md` R160 to R164): it completes over every tree and writes the codes of that tree; over the tree that `TBUILD`
leaves, whose leaf values are the present ones without repetition, every present value has one and no code begins another. -/

namespace Sys2Proof.Machine

theorem exec_ctgen (s : State) : exec .ctgen s = (ctgenBody s).finish := rfl

theorem exec_tser (s : State) : exec .tser s = (tserBody s).finish := rfl

theorem exec_walk (s : State) : exec .walk s = (walkBody s).finish := rfl

theorem ctgenBody_noTree {s : State} (h : s.tv = false) : ctgenBody s = .raised .noTree s := by simp [ctgenBody, h]

theorem tserBody_noTree {s : State} (h : s.tv = false) : tserBody s = .raised .noTree s := by simp [tserBody, h]

theorem walkBody_noTree {s : State} (h : s.tv = false) : walkBody s = .raised .noTree s := by simp [walkBody, h]

/-- Settles O35: each of the three bodies tests `TV` first. -/
theorem treeCommandsNeedATree : Obligations.TreeCommandsNeedATree := by
  intro s i hi htv
  simp only [List.mem_cons, List.not_mem_nil, or_false] at hi
  obtain rfl | rfl | rfl := hi
  · rw [exec_ctgen, ctgenBody_noTree htv, finish_raised]
  · rw [exec_tser, tserBody_noTree htv, finish_raised]
  · rw [exec_walk, walkBody_noTree htv, finish_raised]

/-- `CTGEN` over a tree: the table it leaves, and all that it changes. -/
theorem exec_ctgen_of_tree {s : State} {tr : Tree} (htv : s.tv = true) (htree : s.tree = some tr) :
    ∃ t, exec .ctgen s = .next t ∧ t.cv = true ∧ (∀ v, t.code v = tr.codeOf v) ∧ t = { s with ct := t.ct, cv := t.cv } := by
  refine ⟨(s.clearCodeValid.clearCodes.setCodes tr.codes).setCodeValid, ?_, rfl, clearCodes_setCodes_code s tr, ?_⟩
  · rw [exec_ctgen, ctgenBody_eq s htv, htree, finish_ok]
  · rw [setCodes_frame]
    rfl

theorem tree_depth_le {s : State} {tr : Tree} (h : s.tree = some tr) : tr.depth ≤ 255 := Nat.le_of_lt_succ (treeAt_depth h)

/-- Settles O33: the codes are those of a tree that `Gen` can walk, so of depth at most 255. -/
theorem ctgenWritesTheCodesOfTheTree : Obligations.CtgenWritesTheCodesOfTheTree := by
  intro s tr htv htree
  obtain ⟨t, hrun, hcv, hcode, hframe⟩ := exec_ctgen_of_tree htv htree
  refine ⟨t, hrun, hcv, hcode, fun v x hx => ?_, hframe⟩
  rw [hcode] at hx
  exact codes_bounds (tree_depth_le htree) (codeOf_mem hx)

/-- In a tree without repeated values only one value has a code that a given code begins with (`30_encoding.md` R102). -/
theorem codeOf_prefix {tr : Tree} (hn : tr.leaves.Nodup) {v w : Byte} {x y : Bits} (hx : tr.codeOf v = some x)
    (hy : tr.codeOf w = some y) (hpre : x <+: y) : v = w := by
  have hvx := codeOf_mem hx
  have hwy := codeOf_mem hy
  cases tr with
  | leaf u =>
    simp only [Tree.codes, List.mem_singleton, Prod.mk.injEq] at hvx hwy
    rw [hvx.1, hwy.1]
  | node l r => exact pathsFrom_sym hn hvx hwy hpre

/-- `TBUILD` with a count leaves a tree whose leaves are the present values, each once (`10_state.md` R34 item 5). -/
theorem exec_tbuild_tree {s : State} (h : ∃ v, s.count v ≠ 0#32) :
    ∃ t tr, exec .tbuild s = .next t ∧ t.tv = true ∧ t.tree = some tr ∧ tr.leaves.Perm s.present := by
  obtain ⟨t, tr, hrun, hroot, -, -, htv, -, -, hok, hcover, hleaves, -⟩ := tbuildBody_ok s h
  exact ⟨t, tr.erase, by rw [exec_tbuild, hrun, finish_ok], htv, (built_tree hroot hok hcover).2, hleaves⟩

/-- Settles O34: a value has a code iff it is a leaf, and the leaves are the present values without repetition. -/
theorem builtCodesArePrefixFree : Obligations.BuiltCodesArePrefixFree := by
  intro s hcount
  obtain ⟨t, tr, hbuild, htv, htree, hleaves⟩ := exec_tbuild_tree hcount
  obtain ⟨u, hgen, -, hcode, -⟩ := exec_ctgen_of_tree htv htree
  refine ⟨t, u, hbuild, hgen, fun v => ?_, fun v w x y hne hx hy hpre => hne ?_⟩
  · rw [State.codeValid, hcode, codeOf_isSome, hleaves.mem_iff, mem_present]
  · rw [hcode] at hx hy
    exact codeOf_prefix (hleaves.nodup_iff.mpr (present_nodup s)) hx hy hpre

end Sys2Proof.Machine

/-! `TSER` and `TDES` (`44_tree_serdes.md` R170 to R178): `TSER` writes the pre-order bits of the tree; on any input `TDES` ends in one
of three ways, and the remaining bits say which; the second reads back what the first writes. -/

namespace Sys2Proof.Machine

/-! `TSER`. -/

theorem exec_tser_of_tree {s : State} {tr : Tree} (htv : s.tv = true) (htree : s.tree = some tr) :
    exec .tser s = .next (s.writeBits tr.serBits) := by
  rw [exec_tser, tserBody_eq s htv, htree, finish_ok]

/-- Settles O36. -/
theorem tserWritesThePreOrderBits : Obligations.TserWritesThePreOrderBits :=
  fun s tr htv htree => ⟨exec_tser_of_tree htv htree, serBits_length tr, writeBits_frame s _⟩

/-! `TDES`. -/

theorem exec_tdes (s : State) : exec .tdes s = (tdesBody s).finish := rfl

/-- The arena's 511 entries are enough for exactly the trees of at most 256 leaves (`44_tree_serdes.md` R176). -/
theorem nodeCount_le_iff (tr : Tree) : tr.nodeCount ≤ 511 ↔ tr.leaves.length ≤ 256 := by
  have := nodeCount_leaves tr
  omega

/-- `u` is `s` after `TDES` has read `tr` from it and left the bits `x` (`44_tree_serdes.md` R174, R175). -/
structure State.HasRead (s u : State) (tr : Tree) (x : Bits) : Prop where
  arena : placed u.nodes 0 tr
  count : u.ncnt.val = tr.nodeCount
  root : u.root = 0#9
  pos : u.pos = 0#9
  valid : u.tv = true
  codesInvalid : u.cv = false
  rest : u.restBits = x
  stream : u.StreamInv
  pointer : u.iptr.toNat = s.iptrAfter tr.serBits.length
  frame : s.tdesFrame u

theorem State.HasRead.tree {s u : State} {tr : Tree} {x : Bits} (h : s.HasRead u tr x) : u.tree = some tr :=
  (placed_wellFormed h.arena h.count.symm h.root).2

/-- Every entry in use has weight 0; of an internal one the left child is the next entry and the right child a later one
(`10_state.md` R34 item 6). -/
theorem State.HasRead.entry {s u : State} {tr : Tree} {x : Bits} (h : s.HasRead u tr x) {i : Idx} {n : NodeRec}
    (hn : u.node i = some n) : n.wt = 0#40 ∧ (n.leaf = false → n.left = i + 1#9 ∧ n.left.toNat < n.right.toNat) := by
  obtain ⟨hi, hget⟩ := node_eq_some_iff.mp hn
  have hlt := u.ncnt.isLt
  have hcount := h.count
  obtain ⟨m, hm, hwt, hchildren⟩ := placed_entry (i := i.toNat) h.arena (Nat.zero_le _) (by omega) (by omega)
  obtain rfl := Option.some.inj (hm.symm.trans hget)
  refine ⟨hwt, fun hleaf => ?_⟩
  obtain ⟨hleft, hright, hin⟩ := hchildren hleaf
  refine ⟨BitVec.eq_of_toNat_eq ?_, by omega⟩
  rw [hleft, BitVec.toNat_add, BitVec.toNat_ofNat]
  omega

/-- Where the next bits are those of a tree that fits, `TDES` reads that tree. -/
theorem tdesBody_of_tree {s : State} (h : s.StreamInv) {tr : Tree} {x : Bits} (hbits : s.restBits = tr.serBits ++ x)
    (hfit : tr.leaves.length ≤ 256) : ∃ u, tdesBody s = .ok u ∧ s.HasRead u tr x := by
  have hstart : ({ s.clearTreeValid with ncnt := 0 } : State).StreamInv := h.of_streams_eq rfl rfl
  have hnodes : (0 : Fin 512).val + tr.nodeCount ≤ 511 := by simpa using (nodeCount_le_iff tr).mpr hfit
  obtain ⟨v, hdes, -⟩ := (des_tree Config.desFuel tr x _ hstart hbits (Nat.le_add_right _ _)).1 hnodes
  have hok : tdesBody s = .ok (v.setTree (State.nextIdx { s.clearTreeValid with ncnt := 0 })) := by
    rw [tdesBody, hdes, andThen_ok]
  have hreads := tdesBody_reads h
  rcases tdesBody_cases s h with
    ⟨t, y, u, hbits', -, hrun, hrest, hstream, hcount, hplaced, hroot, hpos, htv, hcv, hframe⟩ | ⟨u, hrun, -⟩ | ⟨u, hrun, -⟩
  · obtain ⟨rfl, rfl⟩ := serBits_append_inj (hbits'.symm.trans hbits)
    rw [hrun] at hreads
    obtain ⟨ns, hread⟩ := hreads
    have hns : ns.flatten = t.serBits := by
      apply List.append_cancel_right (bs := u.restBits)
      rw [← hread.bits, hbits, hrest]
    exact ⟨u, hrun, hplaced, hcount, hroot, hpos, htv, hcv, hrest, hstream, hns ▸ readTo_iptr h hread, hframe⟩
  · cases hok.symm.trans hrun
  · cases hok.symm.trans hrun

theorem exec_tdes_of_tree {s : State} (h : s.StreamInv) {tr : Tree} {x : Bits} (hbits : s.restBits = tr.serBits ++ x)
    (hfit : tr.leaves.length ≤ 256) : ∃ u, exec .tdes s = .next u ∧ s.HasRead u tr x := by
  obtain ⟨u, hrun, hread⟩ := tdesBody_of_tree h hbits hfit
  exact ⟨u, by rw [exec_tdes, hrun, finish_ok], hread⟩

/-- Settles O37. -/
theorem tdesReadsASerializedTree : Obligations.TdesReadsASerializedTree := by
  intro s tr x h hbits hfit
  obtain ⟨t, hrun, hread⟩ := exec_tdes_of_tree h hbits hfit
  exact ⟨t, hrun, hread.tree, hread.count, hread.root, hread.pos, hread.valid, hread.codesInvalid, hread.rest, hread.pointer,
    hread.stream, fun _ _ hn => hread.entry hn, hread.frame⟩

/-- Where `TDES` raises, no tree that fits stands in front. -/
theorem large_of_tdesBody_raised {s u : State} {e : FaultCode} (h : s.StreamInv) (hrun : tdesBody s = .raised e u) (tr : Tree) (x : Bits)
    (hbits : s.restBits = tr.serBits ++ x) : 256 < tr.leaves.length := by
  by_contra hfit
  obtain ⟨v, hok, -⟩ := tdesBody_of_tree h hbits (Nat.le_of_not_lt hfit)
  cases hok.symm.trans hrun

/-- At a fault `TDES` has changed neither `IN` nor `OUT` (`44_tree_serdes.md` R177). -/
theorem tdesBody_raised_streams {s u : State} {e : FaultCode} (hrun : tdesBody s = .raised e u) : u.out = s.out ∧ u.inp = s.inp := by
  have hframe := tdesBody_frame s
  rw [hrun] at hframe
  obtain ⟨-, hu⟩ := hframe
  exact ⟨by rw [hu], by rw [hu]⟩

/-- At `TreeTooLarge` the bits of 511 whole nodes have been read and no more. -/
theorem tdesBody_tooLarge_reads {s u : State} (h : s.StreamInv) (hrun : tdesBody s = .raised .treeTooLarge u) :
    ∃ ns : List Bits, ns.length = 511 ∧ (∀ x ∈ ns, isNodeBits x) ∧ ns.flatten <+: s.restBits ∧
      u.iptr.toNat = s.iptrAfter ns.flatten.length := by
  have hreads := tdesBody_reads h
  rw [hrun] at hreads
  obtain ⟨he, -⟩ | ⟨-, ns, hlen, hns, hread⟩ := hreads
  · cases he
  · exact ⟨ns, hlen, hns, ⟨u.restBits, hread.bits.symm⟩, readTo_iptr h hread⟩

/-- At `CorruptStream` the bits hold fewer than 511 whole nodes. -/
theorem tdesBody_corrupt_nodes {s u : State} (h : s.StreamInv) (hrun : tdesBody s = .raised .corruptStream u) {ns : List Bits}
    (hns : ∀ x ∈ ns, isNodeBits x) (hpre : ns.flatten <+: s.restBits) : ns.length < 511 := by
  have hreads := tdesBody_reads h
  rw [hrun] at hreads
  obtain ⟨-, hends⟩ | ⟨he, -⟩ := hreads
  · exact endsInANode_nodes hends rfl hns hpre
  · cases he

/-- Settles O39: the 511 whole nodes that `TDES` has read are the tree's first 511. -/
theorem tdesRefusesMoreThan256Leaves : Obligations.TdesRefusesMoreThan256Leaves := by
  intro s tr x h hbits hlarge
  have hnodes : 511 < tr.nodeCount := by
    rw [← Nat.not_le, nodeCount_le_iff]
    omega
  obtain ⟨u, hrun, -⟩ := tdesBody_large h hbits hnodes
  obtain ⟨hout, hinp⟩ := tdesBody_raised_streams hrun
  obtain ⟨ns, hlen, hns, ⟨y, hpre⟩, hiptr⟩ := tdesBody_tooLarge_reads h hrun
  have hfirst : ns = tr.nodeBits.take ns.length :=
    nodes_prefix hns (nodeBits_isNodeBits tr) (by rw [nodeBits_flatten, hpre, hbits]) (by rw [nodeBits_length]; omega)
  refine ⟨u.takeFault .treeTooLarge, by rw [exec_tdes, hrun, finish_raised], takeFault_status u _, hout, hinp, ?_⟩
  rw [takeFault_iptr, hiptr, ← hlen, ← hfirst]

/-- Settles O38: `TDES` ends normally or with one of its two faults; what it has read by then says what the remaining bits were. -/
theorem tdesEndsWithATreeOrAFault : Obligations.TdesEndsWithATreeOrAFault := by
  intro s h hf
  obtain ⟨tr, x, -, hbits, hnodes, -⟩ | ⟨u, hrun, hrest, hstream, -⟩ | ⟨u, hrun, -⟩ := tdesBody_cases s h
  · have hfit := (nodeCount_le_iff tr).mp hnodes
    obtain ⟨t, hrun, hread⟩ := exec_tdes_of_tree h hbits hfit
    have hframe := hread.frame
    exact ⟨t, hrun, by rw [hframe], by rw [hframe],
      .inl ⟨hread.valid, by rw [hframe]; exact hf, tr, x, hbits, hfit, hread.tree, hread.pointer⟩⟩
  · obtain ⟨hout, hinp⟩ := tdesBody_raised_streams hrun
    have hend : u.iptr.toNat = u.inp.length := ((bits_nil_iff hstream).mp hrest).2
    exact ⟨u.takeFault .corruptStream, by rw [exec_tdes, hrun, finish_raised], hout, hinp,
      .inr (.inl ⟨takeFault_status u _, hinp ▸ hend, large_of_tdesBody_raised h hrun, fun _ => tdesBody_corrupt_nodes h hrun⟩)⟩
  · obtain ⟨hout, hinp⟩ := tdesBody_raised_streams hrun
    have hnodes := tdesBody_tooLarge_reads h hrun
    exact ⟨u.takeFault .treeTooLarge, by rw [exec_tdes, hrun, finish_raised], hout, hinp,
      .inr (.inr ⟨takeFault_status u _, large_of_tdesBody_raised h hrun, hnodes⟩)⟩

/-! Both in a row. -/

theorem exec_wflush (s : State) : exec .wflush s = .next s.flush := rfl

/-- From an empty writer the bits and a flush append the packed bits and leave the writer empty (`45_bit_writer.md` R195). -/
theorem flush_writeBits {s : State} (hw : s.wcnt = 0) (ha : s.acc = 0#8) (x : Bits) :
    (s.writeBits x).flush = { s with out := s.out ++ pack x } := by
  obtain ⟨hheld, hbits⟩ := writeBits_bits s x (by rw [hw, ha]; decide)
  obtain ⟨hacc, hwcnt, hflush⟩ := flush_bits _ hheld
  rw [hw, heldBits_zero, List.append_nil] at hbits
  have hpad : padCount (s.writeBits x).wcnt.val = padCount x.length := by
    have hlen := congrArg List.length hbits
    simp only [List.length_append, bitsOf_length, heldBits_length] at hlen
    have := (s.writeBits x).wcnt.isLt
    unfold padCount
    omega
  have hout : (s.writeBits x).flush.out = s.out ++ pack x := by
    apply bitsOf_injective
    rw [hflush, hbits, hpad, bitsOf_append, bitsOf_pack, List.append_assoc]
  ext1 <;> simp [hacc, hwcnt, hout, hw, ha]

/-- The reader on a byte boundary, a new input bound: its bits are next. -/
theorem bindInput_restBits {s : State} (h : s.rpos.val = 8) (bytes : List Byte) : (s.bindInput bytes).restBits = bitsOf bytes := by
  simp [State.restBits, h, byteBits]

/-- Settles O40: the two commands write the packed pre-order bits of the tree, which begin with those bits. -/
theorem treeRoundTrip : Obligations.TreeRoundTrip := by
  intro s _ htv hwf hwcnt hacc hrpos
  obtain ⟨⟨tr, htree, hcount, -, hfit, -⟩, -⟩ := wellFormedArenaIsAFullTree s hwf
  have hflush := flush_writeBits (Fin.ext hwcnt) hacc tr.serBits
  have hbits := (bindInput_restBits (s := { s with out := s.out ++ pack tr.serBits }) hrpos (pack tr.serBits)).trans (bitsOf_pack _)
  have hshort : (pack tr.serBits).length < Config.inputLimit := by
    have := serBits_length tr
    rw [pack_length, Config.inputLimit]
    omega
  obtain ⟨w, hrun, hread⟩ := exec_tdes_of_tree (streamInv_of_iptr_zero hshort rfl) hbits hfit
  exact ⟨s.writeBits tr.serBits, _, pack tr.serBits, w, exec_tser_of_tree htv htree, by rw [exec_wflush, hflush], rfl, hrun,
    hread.valid, hread.tree.trans htree.symm, by rw [htree]; rfl, Fin.ext (hread.count.trans hcount)⟩

end Sys2Proof.Machine

/-! `WBIT` and `WFLUSH` (`45_bit_writer.md` R190, R191, R195): an equation per case of the writer, the value that each emits, and what a
whole bit string leaves in `OUT` before and after the flush. -/

namespace Sys2Proof.Machine

theorem exec_wbit (b : Bool) (s : State) : exec (.wbit b) s = .next (s.writeBit b) := rfl

/-- The OR of `WriteBit` fills the place that the shift has cleared. -/
theorem shiftIn_eq_shiftConcat (v : Byte) (b : Bool) : shiftIn v b = v.shiftConcat b := by
  ext i hi
  rcases i with _ | i <;> simp [shiftIn, bitByte, BitVec.getElem_shiftConcat]

theorem shiftIn_toNat (v : Byte) (b : Bool) : (shiftIn v b).toNat = (2 * v.toNat + b.toNat) % 256 := by
  rw [shiftIn_eq_shiftConcat, BitVec.toNat_shiftConcat, Nat.shiftLeft_eq, pow_one, mul_comm]

/-- The eighth bit completes the byte. -/
theorem writeBit_of_seven_held {s : State} (h : s.wcnt.val = 7) (b : Bool) :
    s.writeBit b = { s with acc := 0#8, wcnt := 0, out := s.out ++ [shiftIn s.acc b] } := if_pos (by omega)

theorem writeBit_of_room {s : State} (h : s.wcnt.val < 7) (b : Bool) :
    s.writeBit b = { s with acc := shiftIn s.acc b, wcnt := s.wcnt + 1 } := if_neg (by omega)

/-- Settles O19: with room the count grows without wrapping; at 7 the byte that `WriteBit` emits is the accumulator it would have
kept. -/
theorem wbitShiftsInOrEmits : Obligations.WbitShiftsInOrEmits := by
  refine fun s b => ⟨fun h => ?_, fun h => ?_⟩
  · exact ⟨_, by rw [exec_wbit, writeBit_of_room h], shiftIn_toNat s.acc b, Fin.val_add_one_of_lt h, rfl⟩
  · exact ⟨_, shiftIn_toNat s.acc b, by rw [exec_wbit, writeBit_of_seven_held h]⟩

theorem flush_of_empty {s : State} (h : s.wcnt.val = 0) : s.flush = s := if_neg (by omega)

theorem flush_of_held_bits {s : State} (h : 0 < s.wcnt.val) :
    s.flush = { s with acc := 0#8, wcnt := 0, out := s.out ++ [s.acc <<< (8 - s.wcnt.val)] } := if_pos h

/-- Settles O20. -/
theorem wflushEmitsThePaddedByte : Obligations.WflushEmitsThePaddedByte := by
  refine fun s => ⟨fun h => ?_, fun h => ?_⟩
  · rw [exec_wflush, flush_of_empty h]
  · exact ⟨_, by rw [BitVec.toNat_shiftLeft, Nat.shiftLeft_eq], by rw [exec_wflush, flush_of_held_bits h]⟩

/-- Every bit written to an empty writer is out in a complete byte or held. -/
theorem writeBits_counts {s : State} (hw : s.wcnt = 0) (ha : s.acc = 0#8) (x : Bits) :
    (s.writeBits x).out.length = s.out.length + x.length / 8 ∧ (s.writeBits x).wcnt.val = x.length % 8 := by
  obtain ⟨-, hbits⟩ := writeBits_bits s x (by rw [hw, ha]; decide)
  have hlen := congrArg List.length hbits
  simp only [List.length_append, bitsOf_length, heldBits_length, hw, Fin.val_zero] at hlen
  have := (s.writeBits x).wcnt.isLt
  omega

theorem isPrefix_out_flush (s : State) : s.out <+: s.flush.out := by
  obtain ⟨o, a, w, h⟩ := flush_shape s
  exact ⟨o, by rw [h]⟩

theorem getElem?_byteBits (v : Byte) {m : Nat} (h : m < 8) : (byteBits v)[m]? = some (v.getLsbD (7 - m)) := by
  interval_cases m <;> rfl

/-- A packed byte holds its bits most significant first, zeros past the end. -/
theorem getLsbD_packByte (x : Bits) (j : Nat) {m : Nat} (h : m < 8) :
    (packByte x j).getLsbD (7 - m) = x.getD (8 * j + m) false := by
  apply Option.some.inj
  rw [← getElem?_byteBits _ h, packByte_bits, List.getElem?_map, List.getElem?_range h, Option.map_some]

theorem eq_packByte_of_getElem?_pack {x : Bits} {j : Nat} {v : Byte} (h : (pack x)[j]? = some v) : v = packByte x j := by
  obtain ⟨hj, rfl⟩ := List.getElem?_eq_some_iff.mp h
  simp [pack]

/-- Settles O21: the bytes are the packed bits; before the flush the complete ones are out, and a flush only appends. -/
theorem writerStreamLaw : Obligations.WriterStreamLaw := by
  intro s x hwcnt ha
  have hw : s.wcnt = 0 := Fin.ext hwcnt
  obtain ⟨hout, hheld⟩ := writeBits_counts hw ha x
  refine ⟨⟨pack x, flush_writeBits hw ha x, pack_length x, fun j m v hm hv => ?_⟩, hout, hheld, isPrefix_out_flush _⟩
  rw [eq_packByte_of_getElem?_pack hv, getLsbD_packByte x j hm]

end Sys2Proof.Machine

/-! The writer's invariant through a step (`45_bit_writer.md` R193, `10_state.md` R36): only `WriteBit` and `Flush` touch the writer
outside `CLR`, reset and fault entry, and after a fault nothing is asked. -/

namespace Sys2Proof.Machine

/-- The writer's invariant speaks of `ACC`, `WCNT` and `FAULT` only. -/
theorem State.WriterInv.of_writer_eq {s t : State} (h : s.WriterInv)
    (heq : (t.acc, t.wcnt, t.fault) = (s.acc, s.wcnt, s.fault)) : t.WriterInv := by
  obtain ⟨hacc, hwcnt, hfault⟩ : t.acc = s.acc ∧ t.wcnt = s.wcnt ∧ t.fault = s.fault := by simpa only [Prod.mk.injEq] using heq
  intro hf
  rw [hacc, hwcnt]
  exact h (hfault ▸ hf)

theorem State.held.writerInv {s : State} (h : s.held) : s.WriterInv := fun _ => h

theorem writerInv_takeFault (s : State) (e : FaultCode) : (s.takeFault e).WriterInv := nofun

theorem writerInv_of_empty {s : State} (hacc : s.acc = 0#8) (hwcnt : s.wcnt = 0) : s.WriterInv := by
  intro _
  rw [hacc, hwcnt]
  decide

theorem writerInv_writeBits {s : State} (h : s.WriterInv) (x : Bits) : (s.writeBits x).WriterInv :=
  fun hf => writeBits_held (h (writeBits_fault s x ▸ hf)) x

theorem writerInv_flush {s : State} (h : s.WriterInv) : s.flush.WriterInv := fun hf => flush_held s (h (flush_fault s ▸ hf))

theorem writerInv_of_next {t u : State} (h : (.next u : Host.Outcome State Fault Refusal) = .next t) (hu : u.WriterInv) : t.WriterInv :=
  Host.Outcome.next.inj h ▸ hu

/-- A command keeps the invariant where its body does when it ends normally: fault entry sets `FAULT` (`60_exceptions.md` R262). -/
theorem writerInv_of_finish {t : State} {r : Result State} {P : State → Prop} {Q : FaultCode → State → Prop} (ht : r.finish = .next t)
    (h : r.All P Q) (hP : ∀ u, P u → u.WriterInv) : t.WriterInv := by
  obtain hok | ⟨e, u, -, rfl⟩ := finish_cases h ht
  · exact hP t hok
  · exact writerInv_takeFault u e

/-- `EMIT` keeps the invariant by its loop; while halted its frame alone says that nothing is asked. -/
theorem emitBody_writerInv {s : State} (h : s.WriterInv) : (emitBody s).All State.WriterInv (fun _ _ => True) := by
  cases hf : s.fault with
  | false => exact all_mono (emitBody_held (h hf)) (fun _ hu => hu.writerInv) (fun _ _ _ => trivial)
  | true =>
    refine all_mono (emitBody_frame s) (fun u frame hu => ?_) (fun _ _ _ => trivial)
    rw [frame] at hu
    exact absurd (hf.symm.trans hu) (by decide)

/-- Every command keeps the writer's invariant. -/
theorem exec_writerInv {i : Instr} {s t : State} (hs : s.WriterInv) (h : exec i s = .next t) : t.WriterInv := by
  cases i with
  | nop => exact writerInv_of_next h hs
  | clr => exact writerInv_of_next h (writerInv_of_empty rfl rfl)
  | rewind => exact writerInv_of_next h (hs.of_writer_eq rfl)
  | fcnt => exact writerInv_of_finish h (fcntBody_frame s) fun _ hu => hs.of_writer_eq (by rw [hu])
  | tbuild =>
    change (tbuildBody s).finish = _ at h
    generalize hr : tbuildBody s = r at h
    exact writerInv_of_finish h (tbuildBody_frame hr) fun _ ⟨hu, _⟩ => hs.of_writer_eq (by rw [hu])
  | ctgen => exact writerInv_of_finish h (ctgenBody_frame s) fun _ ⟨hu, _⟩ => hs.of_writer_eq (by rw [hu])
  | tser => exact writerInv_of_finish h (tserBody_frame s) fun _ ⟨_, _, hu⟩ => hu ▸ writerInv_writeBits hs _
  | tdes => exact writerInv_of_finish h (tdesBody_frame s) fun _ ⟨hu, _⟩ => hs.of_writer_eq (by rw [hu])
  | wbit b => exact writerInv_of_next h (writerInv_writeBits hs [b])
  | wflush => exact writerInv_of_next h (writerInv_flush hs)
  | rbit => exact writerInv_of_finish h (rbitBody_frame s) fun _ hu => hs.of_writer_eq (by rw [hu])
  | wmark => exact writerInv_of_next h (hs.of_writer_eq (by rw [writeMarker_eq]))
  | emit => exact writerInv_of_finish h (emitBody_writerInv hs) fun _ => id
  | encode => exact writerInv_of_finish h (encodeBody_frame s) fun _ ⟨_, _, _, _, _, hu, _⟩ => hu.writerInv
  | rseed => exact writerInv_of_finish h (rseedBody_frame s) fun _ hu => hs.of_writer_eq (by rw [hu])
  | ralign => exact writerInv_of_next h (hs.of_writer_eq rfl)
  | rskip3 => exact writerInv_of_finish h (skipBytes_frame 3 s) fun _ hu => hs.of_writer_eq (by rw [hu])
  | walk => exact writerInv_of_finish h (walkBody_writes s) fun _ ⟨hu, _⟩ => hs.of_writer_eq (by rw [hu])
  | decode => exact writerInv_of_finish h (decodeBody_frame s) fun _ ⟨_, _, _, _, _, hu, _⟩ => hu.writerInv

/-- Settles O53: a command keeps the invariant by its body, reset empties the writer, a rejected word halts the core, and whatever else a
step can do leaves the writer and `FAULT` alone. -/
theorem stepKeepsTheWriterInvariant : Obligations.StepKeepsTheWriterInvariant := by
  intro s t hs h
  obtain rfl | ⟨u, ⟨rest, rfl⟩, hu⟩ := step_cases h
  · exact hs
  · have hpop : ({ s with pending := rest } : State).WriterInv := hs
    obtain rfl | ⟨i, -, hi⟩ | ⟨-, rfl⟩ | ⟨n, rfl⟩ | ⟨bytes, -, rfl⟩ | rfl := hu
    · exact hpop
    · exact exec_writerInv hpop hi
    · exact writerInv_takeFault _ _
    · exact hpop.of_writer_eq rfl
    · exact hpop.of_writer_eq rfl
    · exact writerInv_of_empty rfl rfl

end Sys2Proof.Machine

/-! `RBIT` and the bit reader (`46_bit_reader.md` R205, R206, R208): an equation per case of `NextBit`, and what `k` calls in a row
deliver and leave, from any cursor. -/

namespace Sys2Proof.Machine

theorem nextBit_of_unread {s : State} (h : s.rpos.val < 8) :
    s.nextBit = some (s.cur.getLsbD (7 - s.rpos.val), { s with rpos := s.rpos + 1 }) := if_neg (by omega)

theorem nextBit_of_fetch {s : State} {v : Byte} (h : s.rpos.val = 8) (hv : s.inp[s.iptr.toNat]? = some v) :
    s.nextBit = some (v.getLsbD 7, { s with cur := v, rpos := 1, iptr := s.iptr + 1#40 }) := by
  have hnext : s.inNext = some (v, { s with iptr := s.iptr + 1#40 }) := (inNext_some_iff ..).mpr ⟨hv, rfl⟩
  rw [State.nextBit, if_pos h, hnext]
  rfl

theorem nextBit_of_end {s : State} (h : s.rpos.val = 8) (hend : s.inp.length ≤ s.iptr.toNat) : s.nextBit = none := by
  rw [State.nextBit, if_pos h, (inNext_none_iff s).mpr hend]

theorem exec_rbit (s : State) : exec .rbit s = (rbitBody s).finish := rfl

theorem exec_rbit_of_bit {s u : State} {b : Bool} (h : s.nextBit = some (b, u)) : exec .rbit s = .next (u.setResult b) := by
  rw [exec_rbit, rbitBody, h, finish_ok]

theorem exec_rbit_of_end {s : State} (h : s.nextBit = none) : exec .rbit s = .next (s.takeFault .endOfStream) := by
  rw [exec_rbit, rbitBody, h, finish_raised]

/-- Settles O22: the three cases of `NextBit`; below 8 the cursor grows without wrapping. -/
theorem rbitDeliversFetchesOrFaults : Obligations.RbitDeliversFetchesOrFaults := by
  refine fun s => ⟨fun h => ?_, fun v h hv => ?_, fun h hend => ?_⟩
  · exact ⟨_, exec_rbit_of_bit (nextBit_of_unread h), rfl, Fin.val_add_one_of_lt h, rfl⟩
  · exact exec_rbit_of_bit (nextBit_of_fetch h hv)
  · exact exec_rbit_of_end (nextBit_of_end h hend)

theorem readBits_succ_of_bit {s u : State} {b : Bool} (h : s.nextBit = some (b, u)) (k : Nat) :
    s.readBits (k + 1) = (u.readBits k).map fun p => (b :: p.1, p.2) := by
  rw [State.readBits, h]

theorem readBits_succ_of_end {s : State} (h : s.nextBit = none) (k : Nat) : s.readBits (k + 1) = none := by
  rw [State.readBits, h]

/-- `k` calls of `NextBit` deliver the next `k` bits that are left, where there are as many, and touch the reader and `IPTR` only. -/
theorem readBits_of_le (k : Nat) {s : State} (h : s.StreamInv) (hk : k ≤ s.restBits.length) :
    ∃ t, s.readBits k = some (s.restBits.take k, t) ∧ s.readTo t (s.restBits.take k) ∧
      t = { s with cur := t.cur, rpos := t.rpos, iptr := t.iptr } := by
  induction k generalizing s with
  | zero => exact ⟨s, rfl, readTo_refl h, rfl⟩
  | succ k ih =>
    have hnext := nextBit_spec h
    cases hbits : s.restBits with
    | nil => rw [hbits] at hk; cases hk
    | cons b bs =>
      rw [hbits] at hnext hk
      obtain ⟨u, hbit, rfl, hstream, huframe⟩ := hnext
      obtain ⟨t, hrun, hread, htframe⟩ := ih hstream (Nat.le_of_succ_le_succ hk)
      exact ⟨t, by rw [readBits_succ_of_bit hbit, hrun]; rfl, readTo_trans (nextBit_readTo h hbit) hread, by rw [htframe, huframe]⟩

/-- With fewer than `k` bits left one of `k` calls signals. -/
theorem readBits_of_lt (k : Nat) {s : State} (h : s.StreamInv) (hk : s.restBits.length < k) : s.readBits k = none := by
  induction k generalizing s with
  | zero => cases hk
  | succ k ih =>
    have hnext := nextBit_spec h
    cases hbits : s.restBits with
    | nil =>
      rw [hbits] at hnext
      exact readBits_succ_of_end hnext k
    | cons b bs =>
      rw [hbits] at hnext hk
      obtain ⟨u, hbit, rfl, hstream, -⟩ := hnext
      rw [readBits_succ_of_bit hbit, ih hstream (Nat.lt_of_succ_lt_succ hk), Option.map_none]

/-- The cursor after the bits `x`: it runs from 1 to 8, and counts the bits modulo 8. -/
theorem readTo_rpos {s u : State} {x : Bits} (h : s.readTo u x) (hx : x ≠ []) : u.rpos.val = (s.rpos.val + x.length - 1) % 8 + 1 := by
  have hlen := congrArg List.length h.bits
  rw [List.length_append, ← bitsLeft_eq, ← bitsLeft_eq, State.bitsLeft, State.bitsLeft] at hlen
  have := h.inside hx
  have := List.length_pos_of_ne_nil hx
  have := s.rpos.isLt
  have := u.rpos.isLt
  omega

/-- At a byte boundary the bits left are those of the bytes from `IPTR` on. -/
theorem restBits_of_consumed {s : State} (h : s.rpos.val = 8) : s.restBits = bitsOf (s.inp.drop s.iptr.toNat) := by
  rw [State.restBits, List.drop_of_length_le (by rw [h, byteBits_length]), List.nil_append]

/-- Settles O23: the reader delivers the bits left; the pointer and the cursor follow from how many are left after `k` of them. -/
theorem readerStreamLaw : Obligations.ReaderStreamLaw := by
  intro s k hstream hr
  have hbits := restBits_of_consumed hr
  have hlen : s.restBits.length = 8 * (s.inp.length - s.iptr.toNat) := by rw [hbits, bitsOf_length, List.length_drop]
  refine ⟨fun hk => ?_, fun hk => readBits_of_lt k hstream (by omega)⟩
  obtain ⟨t, hrun, hread, hframe⟩ := readBits_of_le k hstream (by omega)
  have hcount : (s.restBits.take k).length = k := List.length_take_of_le (by omega)
  have hiptr := readTo_iptr hstream hread
  rw [hcount, State.iptrAfter, hr] at hiptr
  refine ⟨t, by rw [hrun, hbits], by omega, fun hpos => ?_, hframe⟩
  have hrpos := readTo_rpos hread (List.ne_nil_of_length_pos (by omega))
  rw [hcount, hr] at hrpos
  omega

end Sys2Proof.Machine

/-! `WMARK`, `EMIT` and `ENCODE` (`47_encoder.md` R215 to R219): the loop of `EMIT` ends at the first byte that has no code, which the
input and the table decide; `ENCODE` is its phases in a row, one equation for each on the input that the phase needs. -/

namespace Sys2Proof.Machine

theorem exec_wmark (s : State) : exec .wmark s = .next s.writeMarker := rfl

theorem exec_emit (s : State) : exec .emit s = (emitBody s).finish := rfl

theorem exec_encode (s : State) : exec .encode s = (encodeBody s).finish := rfl

/-- Settles O24: the marker is those three bytes, and `Emit` touches `OUT` alone. -/
theorem wmarkAppendsTheMarker : Obligations.WmarkAppendsTheMarker := by
  intro s
  rw [exec_wmark, writeMarker_eq]
  rfl

/-! `EMIT`. -/

/-- A byte sequence has a concatenated code iff each of its bytes has one (`30_encoding.md` R100). -/
theorem codeBits_isSome {code : Byte → Option Bits} {l : List Byte} :
    (codeBits code l).isSome = true ↔ ∀ v ∈ l, (code v).isSome = true := by
  induction l with
  | nil => simp [codeBits]
  | cons v l ih =>
    rw [List.forall_mem_cons, ← ih, codeBits]
    cases code v <;> cases codeBits code l <;> simp

theorem code_ne_none_of_codeBits {code : Byte → Option Bits} {l : List Byte} {x : Bits} (hx : codeBits code l = some x) {v : Byte}
    (hv : v ∈ l) : code v ≠ none :=
  Option.isSome_iff_ne_none.mp (codeBits_isSome.mp (by rw [hx]; rfl) v hv)

/-- What stands before the first byte without a code is the longest beginning whose bytes all have one. -/
theorem takeWhile_of_codeBits {code : Byte → Option Bits} {p q : List Byte} {v : Byte} {x : Bits} (hp : codeBits code p = some x)
    (hv : code v = none) : (p ++ v :: q).takeWhile (fun u => (code u).isSome) = p := by
  have hcoded : ∀ u ∈ p, (code u).isSome = true := fun u hu => Option.isSome_iff_ne_none.mpr (code_ne_none_of_codeBits hp hu)
  rw [List.takeWhile_append_of_pos hcoded, List.takeWhile_cons_of_neg (by simp [hv]), List.append_nil]

theorem emitBody_eq_loop {s : State} (hcv : s.cv = true) : emitBody s = emitLoop s.bytesLeft s := if_pos hcv

theorem emitBody_noTable {s : State} (hcv : s.cv = false) : emitBody s = .raised .noCode s := by simp [emitBody, hcv]

/-- With a code for every byte left the loop does not stop before the end. -/
theorem emitBody_of_codes {s : State} {x : Bits} (h : s.StreamInv) (hcv : s.cv = true) (hx : codeBits s.code s.rest = some x) :
    emitBody s = .ok { s.writeBits x with iptr := BitVec.ofNat 40 s.inp.length } := by
  rw [emitBody_eq_loop hcv]
  obtain ⟨y, hy, hrun⟩ | ⟨p, v, q, y, hrest, -, hv, -⟩ := emitLoop_cases s.bytesLeft s h (bytesLeft_eq s).ge
  · obtain rfl : y = x := Option.some.inj (hy.symm.trans hx)
    exact hrun
  · exact absurd hv (code_ne_none_of_codeBits hx (by simp [hrest]))

/-- With a byte left that has no code the loop stops past it; the bytes before it are those of any split at such a byte. -/
theorem emitBody_of_noCode {s : State} {p q : List Byte} {v : Byte} {x : Bits} (h : s.StreamInv) (hcv : s.cv = true)
    (hrest : s.rest = p ++ v :: q) (hx : codeBits s.code p = some x) (hv : s.code v = none) :
    emitBody s = .raised .noCode { s.writeBits x with iptr := BitVec.ofNat 40 (s.iptr.toNat + p.length + 1) } := by
  rw [emitBody_eq_loop hcv]
  obtain ⟨y, hy, -⟩ | ⟨p', v', q', y, hrest', hy, hv', hrun⟩ := emitLoop_cases s.bytesLeft s h (bytesLeft_eq s).ge
  · exact absurd hv (code_ne_none_of_codeBits hy (by simp [hrest]))
  · obtain rfl : p' = p := by
      rw [← takeWhile_of_codeBits (q := q') hy hv', ← hrest', hrest, takeWhile_of_codeBits hx hv]
    obtain rfl : y = x := Option.some.inj (hy.symm.trans hx)
    exact hrun

/-- Settles O41: the loop over a rest that has all its codes. -/
theorem emitWritesTheCodesOfTheRest : Obligations.EmitWritesTheCodesOfTheRest := by
  intro s x h hcv hx
  rw [exec_emit, emitBody_of_codes h hcv hx, finish_ok]

/-- Settles O42: `EMIT` tests `CV` first; then the loop stops at the byte `v`. -/
theorem emitRaisesNoCode : Obligations.EmitRaisesNoCode := by
  refine ⟨fun s hcv => ?_, fun s p q v x h hcv hrest hx hv => ?_⟩
  · rw [exec_emit, emitBody_noTable hcv, finish_raised]
  · rw [exec_emit, emitBody_of_noCode h hcv hrest hx hv, finish_raised]

/-! The phases of `ENCODE`. -/

/-- On an empty input the scan of a cleared core counts nothing (R219). -/
theorem encodeScan_of_empty {s : State} (h : s.inp = []) : encodeScan s.clear = .raised .emptyInput s.clear.clearCounts := by
  have hleft : s.clear.bytesLeft = 0 := by simp [State.bytesLeft, h]
  rw [encodeScan, fcntBody, hleft]
  rfl

/-- A non-empty input of fewer than `2^32` bytes is scanned to its end: no count can overflow and `TOTAL` is not 0 (R217, step 1). -/
theorem encodeScan_of_short {s : State} (hne : s.inp ≠ []) (hlen : s.inp.length < 2 ^ 32) :
    ∃ u, encodeScan s.clear = .ok u ∧ fcntBody s.clear = .ok u ∧ (∀ v, (u.count v).toNat = s.inp.count v) ∧
      u.iptr.toNat = s.inp.length ∧ s.clear.countFrame u := by
  have hstream : s.clear.StreamInv := streamInv_of_iptr_zero (hlen.trans (by decide)) rfl
  obtain ⟨u, hrun, hcount, htotal, hiptr, hframe⟩ | ⟨u, p, v, q, -, hrest, -, hfull, -, -⟩ := fcntBody_cases hstream
  · have hpos : 0 < u.total.toNat := by rw [htotal]; exact List.length_pos_of_ne_nil hne
    have htotal_ne : u.total ≠ 0#40 := fun h0 => by simp [h0] at hpos
    exact ⟨u, by rw [encodeScan, hrun, andThen_ok, if_neg htotal_ne], hrun, hcount, hiptr, hframe⟩
  · have hmany : p.count v < s.inp.count v := count_lt_of_split hrest
    have := List.count_le_length (a := v) (l := s.inp)
    omega

/-- `TBUILD` with a count: the tree it leaves, whose leaves are the present values, and all that it changes (R217, step 2). -/
theorem tbuildBody_tree {s : State} (h : ∃ v, s.count v ≠ 0#32) :
    ∃ t tr, tbuildBody s = .ok t ∧ t.tree = some tr ∧ tr.leaves.Perm s.present ∧ t.tv = true ∧ t.pos = t.root ∧
      t = { s with nodes := t.nodes, ncnt := t.ncnt, root := t.root, pos := t.pos, tv := t.tv, cv := t.cv, inq := t.inq } := by
  obtain ⟨t, tr, hrun, hroot, -, hpos, htv, -, -, hok, hcover, hleaves, -, -, -, -, -, hframe⟩ := tbuildBody_ok s h
  exact ⟨t, tr.erase, hrun, (built_tree hroot hok hcover).2, hleaves, htv, hpos, hframe⟩

/-- `CTGEN` over a tree writes that tree's codes and nothing else (R217, step 2). -/
theorem ctgenBody_of_tree {s : State} {tr : Tree} (htv : s.tv = true) (htree : s.tree = some tr) :
    ∃ ct, ctgenBody s = .ok { s with ct := ct, cv := true } ∧ ({ s with ct := ct, cv := true } : State).code = tr.codeOf := by
  have hshape : (s.clearCodeValid.clearCodes.setCodes tr.codes).setCodeValid =
      { s with ct := (s.clearCodeValid.clearCodes.setCodes tr.codes).ct, cv := true } := by
    rw [setCodes_frame]
    rfl
  refine ⟨(s.clearCodeValid.clearCodes.setCodes tr.codes).ct, ?_, ?_⟩
  · rw [ctgenBody_eq s htv, htree, ← hshape]
  · rw [← hshape]
    exact funext (clearCodes_setCodes_code s tr)

/-- The second pass over the input and the last flush, from an empty writer (R217, steps 5 and 6). -/
theorem emitBody_rewind_flush {s : State} {x : Bits} (hshort : s.inp.length < Config.inputLimit) (hcv : s.cv = true)
    (hx : codeBits s.code s.inp = some x) (hw : s.wcnt = 0) (ha : s.acc = 0#8) :
    ((emitBody s.rewind).andThen fun t => .ok t.flush) =
      .ok { s with out := s.out ++ pack x, iptr := BitVec.ofNat 40 s.inp.length } := by
  have hrun := emitBody_of_codes (s := s.rewind) (streamInv_of_iptr_zero hshort rfl) hcv hx
  rw [hrun, andThen_ok, ← writeBits_iptr_comm]
  exact congrArg Result.ok (flush_writeBits (s := { s with iptr := BitVec.ofNat 40 s.inp.length }) hw ha x)

/-- `ENCODE` from the serializer on, over a tree and a table for the whole input, from an empty writer (R217, steps 3 to 6; R218). -/
theorem encodeOutput_of_codes {s : State} {tr : Tree} {x : Bits} (hshort : s.inp.length < Config.inputLimit) (htv : s.tv = true)
    (htree : s.tree = some tr) (hcv : s.cv = true) (hx : codeBits s.code s.inp = some x) (hw : s.wcnt = 0) (ha : s.acc = 0#8) :
    ((tserBody s).andThen fun t => (emitBody t.flush.writeMarker.rewind).andThen fun u => .ok u.flush) =
      .ok { s with out := s.out ++ pack tr.serBits ++ Config.marker ++ pack x, iptr := BitVec.ofNat 40 s.inp.length } := by
  rw [tserBody_eq s htv, htree, andThen_ok, flush_writeBits hw ha, writeMarker_eq]
  exact emitBody_rewind_flush hshort hcv hx hw ha

/-- `ENCODE` from the table on, over a tree that holds every byte of a wholly scanned input, from an empty writer (R217, steps 2 to 6). -/
theorem encodeOutput_of_tree {s : State} {tr : Tree} {x : Bits} (hshort : s.inp.length < Config.inputLimit)
    (hend : s.iptr.toNat = s.inp.length) (htv : s.tv = true) (htree : s.tree = some tr) (hx : codeBits tr.codeOf s.inp = some x)
    (hw : s.wcnt = 0) (ha : s.acc = 0#8) :
    ∃ t, ((ctgenBody s).andThen fun r =>
        (tserBody r).andThen fun t => (emitBody t.flush.writeMarker.rewind).andThen fun u => .ok u.flush) = .ok t ∧
      t.code = tr.codeOf ∧ t.out = s.out ++ pack tr.serBits ++ Config.marker ++ pack x ∧
      t = { s with ct := t.ct, cv := true, out := t.out } := by
  obtain ⟨ct, hgen, hcode⟩ := ctgenBody_of_tree htv htree
  have htree' : ({ s with ct := ct, cv := true } : State).tree = some tr := by rw [← htree]; exact tree_congr rfl rfl rfl
  have hrun := encodeOutput_of_codes (s := { s with ct := ct, cv := true }) hshort htv htree' rfl (by rw [hcode]; exact hx) hw ha
  rw [hgen, andThen_ok, hrun]
  exact ⟨_, rfl, hcode, rfl, by rw [ptr_eq_of_toNat hend]⟩

/-- Settles O44: each phase hands on what the next one needs; every byte of the input is a leaf, because its count is not 0. -/
theorem encodeWritesTheFile : Obligations.EncodeWritesTheFile := by
  intro s hne hlen
  obtain ⟨u, hscan, hfcnt, hcount, hiptr, hscanned⟩ := encodeScan_of_short hne hlen
  have hcounted : ∀ b ∈ s.inp, u.count b ≠ 0#32 := by
    intro b hb h0
    have hpos : 0 < s.inp.count b := List.count_pos_iff.mpr hb
    rw [← hcount, h0] at hpos
    cases hpos
  obtain ⟨v, tr, hbuild, htree, hleaves, htv, hpos, hbuilt⟩ := tbuildBody_tree ⟨_, hcounted _ (List.head_mem hne)⟩
  obtain ⟨x, hx⟩ := Option.isSome_iff_exists.mp <|
    codeBits_isSome.mpr fun b hb => codeOf_isSome.mpr (hleaves.mem_iff.mpr (mem_present.mpr (hcounted b hb)))
  have hkept : v = { s.clear with
      ft := v.ft, total := v.total, iptr := v.iptr, nodes := v.nodes, ncnt := v.ncnt, root := v.root, pos := v.pos, tv := v.tv,
      cv := v.cv, inq := v.inq } := by
    rw [hbuilt, hscanned]
  have hinp : v.inp = s.inp := by rw [hkept]; rfl
  have hout : v.out = s.out := by rw [hkept]; rfl
  have hw : v.wcnt = 0 := by rw [hkept]; rfl
  have ha : v.acc = 0#8 := by rw [hkept]; rfl
  have hend : v.iptr.toNat = s.inp.length := by rw [hbuilt]; exact hiptr
  obtain ⟨t, hrun, hcode, hfile, hframe⟩ :=
    encodeOutput_of_tree (hinp ▸ hlen.trans (by decide)) (hinp ▸ hend) htv htree (hinp ▸ hx) hw ha
  refine ⟨t, u, v, tr, x, ?_, by rw [exec_fcnt, hfcnt, finish_ok], by rw [exec_tbuild, hbuild, finish_ok], htree, hx, ?_, hframe,
    congrFun hcode, ?_⟩
  · rw [exec_encode, encodeBody, hscan, andThen_ok, hbuild, andThen_ok, hrun, finish_ok]
  · rw [hfile, hout]
    rfl
  · rw [hframe]
    refine ⟨hend, ?_, htv, ?_, ha, hw, ?_, ?_, hpos, hinp⟩
    all_goals
      rw [hkept]
      rfl

/-- Settles O45: the scan of an empty input ends the command, and fault entry keeps the streams. -/
theorem encodeOfNothingRaisesEmptyInput : Obligations.EncodeOfNothingRaisesEmptyInput := by
  intro s hempty
  refine ⟨s.clear.clearCounts.takeFault .emptyInput, ?_, takeFault_status _ _, rfl, rfl⟩
  rw [exec_encode, encodeBody, encodeScan_of_empty hempty, andThen_raised, finish_raised]

end Sys2Proof.Machine

/-! `RSEED`, `RSKIP3`, `WALK` and `DECODE` (`48_decoder.md` R235 to R243): an equation per case of each command, then `DECODE` as its
phases in a row, each handing on the bits that the next one reads. -/

namespace Sys2Proof.Machine

theorem exec_rseed (s : State) : exec .rseed s = (rseedBody s).finish := rfl

theorem exec_rskip3 (s : State) : exec .rskip3 s = (rskip3Body s).finish := rfl

theorem exec_decode (s : State) : exec .decode s = (decodeBody s).finish := rfl

theorem rseedBody_of_byte {s : State} {v : Byte} (h : s.inp[s.iptr.toNat]? = some v) :
    rseedBody s = .ok { s with cur := v, rpos := 0, iptr := s.iptr + 1#40 } := by
  rw [rseedBody, (inNext_some_iff ..).mpr ⟨h, rfl⟩]
  rfl

theorem rseedBody_of_end {s : State} (h : s.inp.length ≤ s.iptr.toNat) : rseedBody s = .raised .endOfStream s := by
  rw [rseedBody, (inNext_none_iff s).mpr h]

/-- Settles O25: the two answers of `InNext`. -/
theorem rseedLoadsAByteOrFaults : Obligations.RseedLoadsAByteOrFaults :=
  fun s => ⟨fun v hv => by rw [exec_rseed, rseedBody_of_byte hv, finish_ok],
    fun hend => by rw [exec_rseed, rseedBody_of_end hend, finish_raised]⟩

theorem rskip3Body_of_three {s : State} (h : s.StreamInv) (hthree : s.iptr.toNat + 3 ≤ s.inp.length) :
    rskip3Body s = .ok { s with iptr := s.iptr + 3#40 } := (skipBytes_cases 3 s h).1 hthree

theorem rskip3Body_of_fewer {s : State} (h : s.StreamInv) (hfewer : s.inp.length < s.iptr.toNat + 3) :
    rskip3Body s = .raised .endOfStream { s with iptr := BitVec.ofNat 40 s.inp.length } := (skipBytes_cases 3 s h).2 hfewer

/-- Settles O26: the skip of `n` bytes at `n = 3`. -/
theorem rskip3SkipsThreeBytesOrFaults : Obligations.Rskip3SkipsThreeBytesOrFaults :=
  fun s h => ⟨fun hthree => by rw [exec_rskip3, rskip3Body_of_three h hthree, finish_ok],
    fun hfewer => by rw [exec_rskip3, rskip3Body_of_fewer h hfewer, finish_raised]⟩

/-! `WALK`. -/

/-- `t` is `s` after the walk of every remaining bit on `tr`, which ends at the subtree `e` (`48_decoder.md` R238, R240). -/
structure State.HasWalked (s t : State) (tr e : Tree) : Prop where
  out : t.out = s.out ++ (tr.walkFrom tr s.restBits).1
  pointer : t.iptr.toNat = s.inp.length
  cursor : t.rpos = 8
  pos : t.pos = t.root ↔ e = tr
  frame : s.walkFrame t

theorem State.HasWalked.tree {s t : State} {tr e : Tree} (h : s.HasWalked t tr e) : t.tree = s.tree := by
  have frame := h.frame
  exact tree_congr (by rw [frame]) (by rw [frame]) (by rw [frame])

/-- `t` is `s` where the walk on `tr` has read zeros and a 1 at a leaf root (`48_decoder.md` R239). -/
structure State.StoppedAtOne (s t : State) (tr : Tree) : Prop where
  inp : t.inp = s.inp
  out : t.out = s.out ++ (tr.walkFrom tr s.restBits).1
  read : ∃ n y, s.restBits = List.replicate n false ++ true :: y ∧ t.iptr.toNat = s.iptrAfter (n + 1)

/-- With a tree in the arena `WALK` ends in one of two ways, and the walk on the abstract tree says which. -/
theorem walkBody_of_tree {s : State} {tr : Tree} (h : s.StreamInv) (htv : s.tv = true) (htree : s.tree = some tr) :
    (∃ e t, (tr.walkFrom tr s.restBits).2 = some e ∧ walkBody s = .ok t ∧ s.HasWalked t tr e) ∨
    (∃ t, (tr.walkFrom tr s.restBits).2 = none ∧ walkBody s = .raised .corruptStream t ∧ s.StoppedAtOne t tr) := by
  have hbody : walkBody s = walkLoop s.bitsLeft (s.moveTo s.root) := if_pos htv
  have hstart : (s.moveTo s.root).StreamInv := h.of_streams_eq rfl rfl
  have htree' : (s.moveTo s.root).tree = some tr := by
    rw [← htree]
    exact tree_congr rfl rfl rfl
  rcases walkLoop_cases s.bitsLeft (s.moveTo s.root) tr tr hstart htree' ⟨htree', .inl ⟨rfl, rfl⟩⟩ (bitsLeft_eq s).ge with
    ⟨e, t, hend, hrun, hout, hiptr, hrpos, hat, hframe⟩ | ⟨t, hend, hrun, hout, -, hframe⟩
  · have htree_t : t.tree = some tr := by
      rw [← htree']
      exact tree_congr (by rw [hframe]) (by rw [hframe]) (by rw [hframe])
    exact .inl ⟨e, t, hend, hbody.trans hrun, hout, hiptr, hrpos, walkAt_root htree_t hat, hframe⟩
  · obtain ⟨n, y, hbits, hreads⟩ := walkBody_reads h htv htree hend
    rw [hbody, hrun] at hreads
    have hiptr := readTo_iptr h hreads
    rw [List.length_append, List.length_replicate] at hiptr
    exact .inr ⟨t, hend, hbody.trans hrun, by rw [hframe]; rfl, hout, n, y, hbits, hiptr⟩

/-- Settles O46. -/
theorem walkDecodesThePayload : Obligations.WalkDecodesThePayload := by
  intro s tr h _ htv htree
  rw [exec_walk]
  obtain ⟨e, t, hend, hrun, hw⟩ | ⟨t, hend, hrun, hstop⟩ := walkBody_of_tree h htv htree
  · refine ⟨fun e' he' => ?_, fun hnone => ?_⟩
    · obtain rfl := Option.some.inj (hend.symm.trans he')
      exact ⟨t, by rw [hrun, finish_ok], hw.out, hw.pointer, hw.cursor, hw.pos, hw.frame⟩
    · cases hend.symm.trans hnone
  · refine ⟨fun e' he' => ?_, fun _ => ?_⟩
    · cases hend.symm.trans he'
    · exact ⟨t.takeFault .corruptStream, by rw [hrun, finish_raised], takeFault_status t _, hstop.inp, hstop.out, hstop.read⟩

/-! The phases of `DECODE`. -/

@[simp] theorem endAsCorrupt_ok {α : Type} (a : α) : (Result.ok a).endAsCorrupt = .ok a := rfl

@[simp] theorem endAsCorrupt_endOfStream {α : Type} (s : State) :
    (Result.raised .endOfStream s : Result α).endAsCorrupt = .raised .corruptStream s := rfl

/-- `u` is `s` after `CLR` and `RSEED` over a non-empty input: all its bits are next (R241, steps 1 and 2). -/
structure State.Seeded (s u : State) : Prop where
  stream : u.StreamInv
  cursor : u.rpos = 0
  pointer : u.iptr = 1#40
  rest : u.restBits = bitsOf s.inp
  frame : s.clear.readFrame u

theorem rseedBody_clear {s : State} (hne : s.inp ≠ []) (hshort : s.inp.length < Config.inputLimit) :
    ∃ u, rseedBody s.clear = .ok u ∧ s.Seeded u := by
  obtain ⟨v, l, hinp⟩ := List.exists_cons_of_ne_nil hne
  have hv : s.clear.inp[s.clear.iptr.toNat]? = some v := by rw [clear_inp, hinp]; rfl
  refine ⟨_, rseedBody_of_byte hv, ⟨hshort, ?_⟩, rfl, rfl, ?_, rfl⟩
  · exact List.length_pos_of_ne_nil hne
  · show byteBits v ++ bitsOf (s.inp.drop 1) = bitsOf s.inp
    rw [hinp, bitsOf_cons]
    rfl

/-- Where the input begins with the bits of a tree that fits, `DECODE` reads that tree (R241, steps 1 to 3). -/
theorem decodeBody_of_tree {s : State} {tr : Tree} {x : Bits} (hshort : s.inp.length < Config.inputLimit)
    (hbits : bitsOf s.inp = tr.serBits ++ x) (hfit : tr.leaves.length ≤ 256) :
    ∃ u v, s.Seeded u ∧ u.HasRead v tr x ∧ decodeBody s = (rskip3Body v.alignReader).endAsCorrupt.andThen walkBody := by
  have hne : s.inp ≠ [] := by
    intro h0
    rw [h0] at hbits
    cases tr <;> cases hbits
  obtain ⟨u, hseed, hu⟩ := rseedBody_clear hne hshort
  obtain ⟨v, hdes, hv⟩ := tdesBody_of_tree hu.stream (hu.rest.trans hbits) hfit
  exact ⟨u, v, hu, hv, by rw [decodeBody, hseed, endAsCorrupt_ok, andThen_ok, hdes, andThen_ok]⟩

/-- `p` is `s` where `DECODE` begins its walk: `tr` in the arena, the first `k` bytes consumed (R241, steps 1 to 5). -/
structure State.AtPayload (s p : State) (tr : Tree) (k : Nat) : Prop where
  stream : p.StreamInv
  tree : p.tree = some tr
  valid : p.tv = true
  root : p.root = 0#9
  pointer : p.iptr.toNat = k
  cursor : p.rpos = 8
  frame : p = { s.clear with iptr := p.iptr, nodes := p.nodes, ncnt := p.ncnt, root := p.root, tv := p.tv, cur := p.cur, rpos := p.rpos,
                             pos := p.pos }

theorem State.AtPayload.inp {s p : State} {tr : Tree} {k : Nat} (h : s.AtPayload p tr k) : p.inp = s.inp := by
  rw [h.frame]
  rfl

theorem State.AtPayload.out {s p : State} {tr : Tree} {k : Nat} (h : s.AtPayload p tr k) : p.out = s.out := by
  rw [h.frame]
  rfl

theorem State.AtPayload.rest {s p : State} {tr : Tree} {k : Nat} (h : s.AtPayload p tr k) : p.restBits = bitsOf (s.inp.drop k) := by
  rw [restBits_of_consumed (by rw [h.cursor]; rfl), h.inp, h.pointer]

/-- A payload bit's byte: the walk fetches one at its first bit and at every eighth after it (`46_bit_reader.md` R205). -/
theorem State.AtPayload.iptrAfter {s p : State} {tr : Tree} {k : Nat} (h : s.AtPayload p tr k) (n : Nat) :
    p.iptrAfter (n + 1) = k + (n / 8 + 1) := by
  rw [State.iptrAfter, h.pointer, h.cursor]
  show k + (8 + (n + 1) - 1) / 8 = _
  omega

/-- The tree and the pad fill the section's bytes, so the reader has fetched exactly those when the tree ends (R236, R241). -/
theorem tree_section_iptr {s u v : State} {tr : Tree} {x pad : Bits} {sec : List Byte} (hu : s.Seeded u) (hv : u.HasRead v tr x)
    (hsec : bitsOf sec = tr.serBits ++ pad) (hpad : pad.length < 8) : v.iptr.toNat = sec.length := by
  have hlen := congrArg List.length hsec
  rw [bitsOf_length, List.length_append] at hlen
  have hser := serBits_length tr
  have hleaves := depth_lt_leaves tr
  rw [hv.pointer, State.iptrAfter, hu.cursor, hu.pointer]
  show 1 + (0 + tr.serBits.length - 1) / 8 = sec.length
  omega

/-- `DECODE` of a tree section and three bytes comes to the walk of what follows them (R241, steps 1 to 5). -/
theorem decodeBody_of_file {s : State} {tr : Tree} {sec mark payload : List Byte} {pad : Bits} (hinp : s.inp = sec ++ mark ++ payload)
    (hshort : s.inp.length < Config.inputLimit) (hsec : bitsOf sec = tr.serBits ++ pad) (hpad : pad.length < 8)
    (hmark : mark.length = 3) (hfit : tr.leaves.length ≤ 256) :
    ∃ p, decodeBody s = walkBody p ∧ s.AtPayload p tr (sec.length + 3) ∧ p.restBits = bitsOf payload := by
  have hbits : bitsOf s.inp = tr.serBits ++ (pad ++ bitsOf mark ++ bitsOf payload) := by
    rw [hinp, bitsOf_append, bitsOf_append, hsec]
    simp only [List.append_assoc]
  obtain ⟨u, v, hu, hv, hrun⟩ := decodeBody_of_tree hshort hbits hfit
  have hframe := hv.frame
  have hinp_v : v.inp = s.inp := by rw [hframe, hu.frame]; rfl
  have hiptr := tree_section_iptr hu hv hsec hpad
  have hlen : s.inp.length = sec.length + 3 + payload.length := by rw [hinp, List.length_append, List.length_append, hmark]
  have hskip := rskip3Body_of_three (s := v.alignReader) (hv.stream.of_streams_eq rfl rfl)
    (by rw [alignReader_iptr, alignReader_inp, hinp_v]; omega)
  have hpointer : (v.iptr + 3#40).toNat = sec.length + 3 := by
    simp only [Config.inputLimit] at hshort
    rw [BitVec.toNat_add, hiptr, BitVec.toNat_ofNat]
    omega
  have hpayload : s.AtPayload { v.alignReader with iptr := v.iptr + 3#40 } tr (sec.length + 3) := by
    refine ⟨⟨?_, ?_⟩, ?_, hv.valid, hv.root, hpointer, rfl, ?_⟩
    · exact hinp_v ▸ hshort
    · show (v.iptr + 3#40).toNat ≤ v.inp.length
      rw [hpointer, hinp_v]
      omega
    · rw [← hv.tree]
      exact tree_congr rfl rfl rfl
    · have hcv : v.cv = s.clear.cv := hv.codesInvalid
      have hseeded := hu.frame
      unfold State.tdesFrame at hframe
      unfold State.readFrame at hseeded
      rw [hseeded, hcv] at hframe
      rw [hframe]
      rfl
  refine ⟨_, by rw [hrun, hskip, endAsCorrupt_ok, andThen_ok]; rfl, hpayload, ?_⟩
  rw [hpayload.rest, hinp, List.drop_left' (by rw [List.length_append, hmark])]

/-- Settles O47: the phases before the walk, then the two ends of the walk. -/
theorem decodeReadsAFile : Obligations.DecodeReadsAFile := by
  intro s tr sec mark payload pad hinp hshort hsec hpad hmark hfit
  obtain ⟨p, hrun, hp, hrest⟩ := decodeBody_of_file hinp hshort hsec hpad hmark hfit
  rw [exec_decode, hrun, ← hrest]
  obtain ⟨e, t, hend, hwalk, hw⟩ | ⟨t, hend, hwalk, hstop⟩ := walkBody_of_tree hp.stream hp.valid hp.tree
  · refine ⟨fun e' he' => ?_, fun hnone => ?_⟩
    · obtain rfl := Option.some.inj (hend.symm.trans he')
      have hframe : t = { s.clear with out := t.out, iptr := t.iptr, nodes := t.nodes, ncnt := t.ncnt, root := t.root, tv := t.tv,
                                       cur := t.cur, rpos := t.rpos, pos := t.pos } := by
        have hwalked := hw.frame
        unfold State.walkFrame at hwalked
        rw [hwalked, hp.frame]
      refine ⟨t, by rw [hwalk, finish_ok], hp.out ▸ hw.out, by rw [hframe]; rfl, hp.inp ▸ hw.pointer, by rw [hframe]; rfl, ?_,
        by rw [hframe]; rfl, by rw [hframe]; rfl, hw.tree.trans hp.tree, ?_, hw.pos, by rw [hframe]; rfl, by rw [hframe]; rfl,
        hw.cursor, hframe⟩
      · rw [hw.frame]
        exact hp.valid
      · rw [hw.frame]
        exact hp.root
    · cases hend.symm.trans hnone
  · refine ⟨fun e' he' => ?_, fun _ => ?_⟩
    · cases hend.symm.trans he'
    · obtain ⟨n, y, hbits, hiptr⟩ := hstop.read
      exact ⟨t.takeFault .corruptStream, by rw [hwalk, finish_raised], takeFault_status t _, hstop.inp.trans hp.inp, hp.out ▸ hstop.out,
        n, y, hbits, hiptr.trans (hp.iptrAfter n)⟩

/-! `DECODE` on any input. -/

/-- Over a tree the last three steps of `DECODE` end normally or with `CorruptStream` (R241, steps 4 to 6; R242). -/
theorem skip_walk_cases {s : State} {tr : Tree} (h : s.StreamInv) (htv : s.tv = true) (htree : s.tree = some tr) :
    (∃ t, (rskip3Body s.alignReader).endAsCorrupt.andThen walkBody = .ok t) ∨
    ∃ t, (rskip3Body s.alignReader).endAsCorrupt.andThen walkBody = .raised .corruptStream t := by
  have halign : s.alignReader.StreamInv := h.of_streams_eq rfl rfl
  rcases Nat.lt_or_ge s.inp.length (s.iptr.toNat + 3) with hfewer | hthree
  · exact .inr ⟨_, by rw [rskip3Body_of_fewer halign hfewer, endAsCorrupt_endOfStream, andThen_raised]⟩
  · have hskip := rskip3Body_of_three halign hthree
    have hstream := rskip3Body_stream halign
    have htree' : ({ s.alignReader with iptr := s.iptr + 3#40 } : State).tree = some tr := by
      rw [← htree]
      exact tree_congr rfl rfl rfl
    rw [hskip] at hstream ⊢
    rw [endAsCorrupt_ok, andThen_ok]
    obtain ⟨e, t, -, hwalk, -⟩ | ⟨t, -, hwalk, -⟩ := walkBody_of_tree hstream htv htree'
    · exact .inl ⟨t, hwalk⟩
    · exact .inr ⟨t, hwalk⟩

/-- `DECODE` has an effect on every input; a fault of it is one of two (R242). -/
theorem decodeBody_cases {s : State} (hshort : s.inp.length < Config.inputLimit) :
    (∃ t, decodeBody s = .ok t) ∨ ∃ e t, decodeBody s = .raised e t ∧ (e = .corruptStream ∨ e = .treeTooLarge) := by
  by_cases hempty : s.inp = []
  · have hseed := rseedBody_of_end (s := s.clear) (by rw [clear_inp, hempty]; exact Nat.zero_le _)
    exact .inr ⟨.corruptStream, s.clear, by rw [decodeBody, hseed, endAsCorrupt_endOfStream, andThen_raised], .inl rfl⟩
  obtain ⟨u, hseed, hu⟩ := rseedBody_clear hempty hshort
  have hrun : decodeBody s = (tdesBody u).andThen fun v => (rskip3Body v.alignReader).endAsCorrupt.andThen walkBody := by
    rw [decodeBody, hseed, endAsCorrupt_ok, andThen_ok]
  obtain ⟨tr, x, -, hbits, hnodes, -⟩ | ⟨v, hdes, -⟩ | ⟨v, hdes, -⟩ := tdesBody_cases u hu.stream
  · obtain ⟨v, hdes, hv⟩ := tdesBody_of_tree hu.stream hbits ((nodeCount_le_iff tr).mp hnodes)
    rw [hrun, hdes, andThen_ok]
    exact (skip_walk_cases hv.stream hv.valid hv.tree).imp id fun ⟨t, hend⟩ => ⟨.corruptStream, t, hend, .inl rfl⟩
  · exact .inr ⟨.corruptStream, v, by rw [hrun, hdes, andThen_raised], .inl rfl⟩
  · exact .inr ⟨.treeTooLarge, v, by rw [hrun, hdes, andThen_raised], .inr rfl⟩

/-- Settles O48: the ends of `DECODE`; at the normal one its frame gives `FAULT` and `TV`. -/
theorem decodeReportsOnlyTwoFaults : Obligations.DecodeReportsOnlyTwoFaults := by
  intro s hshort
  rw [exec_decode]
  obtain ⟨t, hrun⟩ | ⟨e, t, hrun, he⟩ := decodeBody_cases hshort
  · have hframe := decodeBody_frame s
    rw [hrun] at hframe
    obtain ⟨-, -, htv, -, -, -, hfault, -⟩ := hframe
    exact ⟨t, by rw [hrun, finish_ok], .inl ⟨hfault, htv⟩⟩
  · refine ⟨t.takeFault e, by rw [hrun, finish_raised], .inr ?_⟩
    rw [takeFault_status]
    obtain rfl | rfl := he
    · exact .inl rfl
    · exact .inr rfl

/-! The round trip (R243). -/

theorem codeBits_length_le {code : Byte → Option Bits} {k : Nat} (hcode : ∀ v x, code v = some x → x.length ≤ k) {l : List Byte}
    {x : Bits} (hx : codeBits code l = some x) : x.length ≤ k * l.length := by
  induction l generalizing x with
  | nil => cases hx; exact Nat.zero_le _
  | cons v l ih =>
    unfold codeBits at hx
    split at hx
    · rename_i a b ha hb
      cases hx
      have := hcode v a ha
      have := ih hb
      rw [List.length_append, List.length_cons, Nat.mul_succ]
      omega
    · cases hx

/-- The file of an input shorter than `2^32` bytes can be bound: a code has at most 255 bits and the tree section at most 320 bytes. -/
theorem file_length_lt {tr : Tree} {l : List Byte} {x : Bits} (hfit : tr.leaves.length ≤ 256) (hdepth : tr.depth ≤ 255)
    (hlen : l.length < 2 ^ 32) (hx : codeBits tr.codeOf l = some x) :
    (pack tr.serBits ++ Config.marker ++ pack x).length < Config.inputLimit := by
  have hser := serBits_length tr
  have hpayload := codeBits_length_le (fun v y hy => (codes_bounds hdepth (codeOf_mem hy)).2) hx
  have hmarker : Config.marker.length = 3 := rfl
  simp only [List.length_append, pack_length, hmarker, Config.inputLimit]
  omega

theorem padCount_lt (k : Nat) : padCount k < 8 := Nat.mod_lt _ (by decide)

/-- Where `ENCODE` ends without a fault it leaves a well-formed tree. -/
theorem wellFormed_of_exec_encode {s t : State} (h : exec .encode s = .next t) (hf : t.fault = false) : t.wellFormed = true := by
  rw [exec_encode] at h
  obtain ⟨hwf, -⟩ | ⟨e, u, -, rfl⟩ := finish_cases (encodeBody_frame s) h
  · exact hwf
  · cases hf

/-- The walk of a packed payload: the input, then what the pad's zeros spell from the root (R101, R243). -/
theorem walk_packed_codes {tr : Tree} {l : List Byte} {x : Bits} (hx : codeBits tr.codeOf l = some x) :
    (tr.walkFrom tr (bitsOf (pack x))).1 = l ++ List.replicate (padCount x.length / max tr.leftDepth 1) tr.leftmost ∧
    ∃ e, (tr.walkFrom tr (bitsOf (pack x))).2 = some e ∧ (e = tr ↔ padCount x.length % max tr.leftDepth 1 = 0) := by
  rw [bitsOf_pack, walk_codes tr l hx]
  obtain ⟨hout, hend⟩ := walk_zeros tr (padCount x.length)
  exact ⟨by rw [hout], hend⟩

/-- Settles O50: the file is a tree section, the marker and the packed codes (R218), so `DECODE` walks those codes and the pad. -/
theorem decodeOfEncodeIsTheInputThenPad : Obligations.DecodeOfEncodeIsTheInputThenPad := by
  intro s u hne hlen
  obtain ⟨t, -, v, tr, x, hencode, -, -, htree, hx, hout, hframe, hcode, -, hfault, -⟩ := encodeWritesTheFile s hne hlen
  have htree_t : t.tree = some tr := by
    rw [← htree]
    exact tree_congr (by rw [hframe]) (by rw [hframe]) (by rw [hframe])
  obtain ⟨⟨tr', htree_wf, -, -, hfit, hdepth⟩, -⟩ := wellFormedArenaIsAFullTree t (wellFormed_of_exec_encode hencode hfault)
  obtain rfl : tr = tr' := Option.some.inj (htree_t.symm.trans htree_wf)
  have hcodes : t.code = tr.codeOf := funext hcode
  obtain ⟨hwalk, e, hend, hroot⟩ := walk_packed_codes hx
  obtain ⟨hdecode, -⟩ := decodeReadsAFile (u.bindInput (pack tr.serBits ++ Config.marker ++ pack x)) tr _ _ _ _ rfl
    (file_length_lt hfit hdepth hlen hx) (bitsOf_pack _) (by rw [List.length_replicate]; exact padCount_lt _) rfl hfit
  obtain ⟨w, hrun, hout_w, -, -, hfault_w, -, -, -, -, -, hpos, -⟩ := hdecode e hend
  refine ⟨t, _, tr, x, w, hencode, ?_, htree_t, hcodes ▸ hx, hrun, hfault_w, ?_, hpos.trans hroot⟩
  · rw [hout, ← List.append_assoc, ← List.append_assoc]
    rfl
  · rw [hout_w, hwalk]
    rfl

end Sys2Proof.Machine

/-! Faults and the halted core (`60_exceptions.md` R261 to R265, R270): what fault entry writes, the exits from the halted state, and what
the core keeps while it runs. -/

namespace Sys2Proof.Machine

/-- Settles O11: `takeFault` field by field. -/
theorem faultEntrySetsStatusAndKeepsTheStreams : Obligations.FaultEntrySetsStatusAndKeepsTheStreams :=
  fun s e => ⟨rfl, rfl, rfl, rfl, rfl, takeFault_status s e, rfl, rfl, rfl⟩

/-- Settles O12: these are all the fields that `takeFault` reads. -/
theorem faultEntryForgetsTheTables : Obligations.FaultEntryForgetsTheTables := by
  intro s u e hinp hiptr hout hinq hpending hreadData hfree
  simp only [State.takeFault, hinp, hiptr, hout, hinq, hpending, hreadData, hfree]

/-- Settles O7: a write to `CMD` is `command`, whose first test is this one. -/
theorem haltedCoreIgnoresEveryWordButClr : Obligations.HaltedCoreIgnoresEveryWordButClr := by
  intro s w rest hp hf hw
  rw [step_of_pending hp]
  exact command_of_halted hf hw

/-- Settles O14: none of the seven has a `raise`, and only `CLR` writes `FAULT`. -/
theorem sevenCommandsNeverFault : Obligations.SevenCommandsNeverFault := by
  intro s i hf hi
  simp only [List.mem_cons, List.not_mem_nil, or_false] at hi
  obtain rfl | rfl | rfl | rfl | rfl | rfl | rfl | rfl := hi
  · exact ⟨s, exec_nop s, hf⟩
  · exact ⟨s.clear, rfl, clear_fault s⟩
  · exact ⟨s.rewind, exec_rewind s, hf⟩
  · exact ⟨_, exec_wbit false s, (writeBit_fault s _).trans hf⟩
  · exact ⟨_, exec_wbit true s, (writeBit_fault s _).trans hf⟩
  · exact ⟨s.flush, exec_wflush s, (flush_fault s).trans hf⟩
  · exact ⟨s.writeMarker, exec_wmark s, (writeMarker_fault s).trans hf⟩
  · exact ⟨s.alignReader, exec_ralign s, hf⟩

/-! The halted core. -/

/-- Nothing of the core but `IPTR` has changed: at most the streams and what is the host's or the model's own. -/
def State.hostFrame (s t : State) : Prop :=
  t = { s with inp := t.inp, iptr := t.iptr, out := t.out, pending := t.pending, readData := t.readData, free := t.free }

/-- The word of `CLR` runs it in every state. -/
theorem command_clr (s : State) : command 0x0100#16 s = .next s.clear :=
  command_of_legal (fun _ => rfl) (decode_encode .clr)

theorem hostAction_write_cmd (w : CmdWord) (s : State) : hostAction (.write 0x000 w) s = command w s := rfl

/-- `CMD` is the one register that takes a word (`10_state.md` R33). -/
theorem hostAction_write_other {n : Nat} (hn : n ≠ 0x000) (w : CmdWord) (s : State) : hostAction (.write n w) s = .next s := if_neg hn

/-- Everything a host action can do to a halted core: nothing, or `CLR`, or hardware reset (R263, R264). -/
theorem hostAction_of_halted {a : HostAction} {s t : State} (hf : s.fault = true) (h : hostAction a s = .next t) :
    s.hostFrame t ∨ (a = .write 0x000 0x0100#16 ∧ t = s.clear) ∨ (a = .hardReset ∧ t = s.hardReset) := by
  cases a with
  | write n w =>
    by_cases hn : n = 0x000
    · subst hn
      rw [hostAction_write_cmd] at h
      by_cases hw : w = 0x0100#16
      · subst hw
        rw [command_clr] at h
        cases h
        exact .inr (.inl ⟨rfl, rfl⟩)
      · rw [command_of_halted hf hw] at h
        cases h
        exact .inl rfl
    · rw [hostAction_write_other hn] at h
      cases h
      exact .inl rfl
  | read n =>
    cases h
    exact .inl rfl
  | bind bytes =>
    rcases Nat.lt_or_ge bytes.length Config.inputLimit with hshort | hlong
    · rw [hostAction_bind_short s hshort] at h
      cases h
      exact .inl rfl
    · rw [hostAction_bind_long s hlong] at h
      cases h
  | takeOut =>
    cases h
    exact .inl rfl
  | hardReset =>
    cases h
    exact .inr (.inr ⟨rfl, rfl⟩)

/-- The same of a step, which performs the first pending action if there is one. -/
theorem step_of_halted {s t : State} (hf : s.fault = true) (h : step s = .next t) :
    s.hostFrame t ∨ ∃ rest,
      (s.pending = .write 0x000 0x0100#16 :: rest ∧ t = State.clear { s with pending := rest }) ∨
      (s.pending = .hardReset :: rest ∧ t = State.hardReset { s with pending := rest }) := by
  cases hp : s.pending with
  | nil =>
    rw [hostActionsThatChangeNothing.2.2 s hp] at h
    cases h
    exact .inl rfl
  | cons a rest =>
    rw [step_of_pending hp] at h
    obtain hframe | ⟨rfl, ht⟩ | ⟨rfl, ht⟩ := hostAction_of_halted (s := { s with pending := rest }) hf h
    · exact .inl hframe
    · exact .inr ⟨rest, .inl ⟨rfl, ht⟩⟩
    · exact .inr ⟨rest, .inr ⟨rfl, ht⟩⟩

/-- Settles O13: the two exits leave the reset values. -/
theorem onlyClrOrResetEndsAFault : Obligations.OnlyClrOrResetEndsAFault := by
  intro s t hf h
  obtain hframe | ⟨rest, ⟨hp, rfl⟩ | ⟨hp, rfl⟩⟩ := step_of_halted hf h
  · exact .inl ⟨by rw [hframe]; exact hf, by rw [hframe]⟩
  · exact .inr ⟨clear_atReset _, rest, .inl ⟨hp, rfl, rfl⟩⟩
  · exact .inr ⟨hardReset_atReset _, rest, .inr hp⟩

/-! The running core. -/

/-- What the two invariants of the status ask of a core that is not halted: no code in `ERR`, and without a tree an empty arena. -/
structure State.Running (s : State) : Prop where
  fault : s.fault = false
  err : s.err = .none
  noTree : s.tv = false → s.ncnt = 0 ∧ s.root = 0#9 ∧ s.pos = 0#9

theorem running_of_invs {s : State} (hs : s.StatusInv) (hn : s.NoTreeInv) (hf : s.fault = false) : s.Running where
  fault := hf
  err := by
    by_contra herr
    exact Bool.false_ne_true (hf.symm.trans (hs.code.mpr herr))
  noTree := hn hf

theorem State.Running.invs {s : State} (h : s.Running) : s.StatusInv ∧ s.NoTreeInv := by
  have hnot : s.fault ≠ true := by rw [h.fault]; decide
  exact ⟨⟨⟨fun hf => absurd hf hnot, fun herr => absurd h.err herr⟩, fun hf => absurd hf hnot⟩, fun _ => h.noTree⟩

/-- Fault entry with a code of the table meets both invariants (R262). -/
theorem takeFault_invs (s : State) {e : FaultCode} (he : e ≠ .none) : (s.takeFault e).StatusInv ∧ (s.takeFault e).NoTreeInv :=
  ⟨⟨⟨fun _ => he, fun _ => rfl⟩, fun _ => ⟨rfl, rfl, rfl⟩⟩, nofun⟩

theorem running_clear (s : State) : s.clear.Running := ⟨rfl, rfl, fun _ => ⟨rfl, rfl, rfl⟩⟩

theorem running_hardReset (s : State) : s.hardReset.Running := ⟨rfl, rfl, fun _ => ⟨rfl, rfl, rfl⟩⟩

theorem State.Running.of_tablesFrame {s t : State} (h : s.Running) (frame : s.tablesFrame t) : t.Running := by
  obtain ⟨fault, err, noTree⟩ := h
  rw [frame]
  exact ⟨fault, err, noTree⟩

/-- With a tree nothing is asked of the arena. -/
theorem running_of_tree {t : State} (hf : t.fault = false) (herr : t.err = .none) (htv : t.tv = true) : t.Running :=
  ⟨hf, herr, fun h => absurd (htv.symm.trans h) (by decide)⟩

/-! Every body keeps a core running up to its end or its `raise`, which is of a code of the table. -/

theorem fcntBody_running {s : State} (h : s.Running) : (fcntBody s).All State.Running (fun e _ => e ≠ .none) :=
  all_mono (fcntBody_frame s) (fun _ hu => h.of_tablesFrame (tablesFrame_of_countFrame hu)) (fun e u ⟨he, _⟩ => by rw [he]; decide)

/-- The body is named by an equation, as in `tbuildBody_frame`. -/
theorem tbuildBody_running {s : State} {r : Result State} (hr : tbuildBody s = r) (h : s.Running) :
    r.All State.Running (fun e _ => e ≠ .none) := by
  refine all_mono (tbuildBody_frame hr) ?_ (fun e u ⟨he, _⟩ => by rw [he]; decide)
  rintro u ⟨frame, -, -, htv, -⟩
  exact running_of_tree (by rw [frame]; exact h.fault) (by rw [frame]; exact h.err) htv

theorem ctgenBody_running {s : State} (h : s.Running) : (ctgenBody s).All State.Running (fun e _ => e ≠ .none) := by
  refine all_mono (ctgenBody_frame s) ?_ (fun e u ⟨he, _⟩ => by rw [he]; decide)
  rintro u ⟨frame, htv, -⟩
  exact running_of_tree (by rw [frame]; exact h.fault) (by rw [frame]; exact h.err) (by rw [frame]; exact htv)

theorem tserBody_running {s : State} (h : s.Running) : (tserBody s).All State.Running (fun e _ => e ≠ .none) :=
  all_mono (tserBody_frame s) (fun _ ⟨_, _, hu⟩ => hu ▸ h.of_tablesFrame (tablesFrame_writeBits s _))
    (fun e u ⟨he, _⟩ => by rw [he]; decide)

theorem tdesBody_running {s : State} (h : s.Running) : (tdesBody s).All State.Running (fun e _ => e ≠ .none) := by
  refine all_mono (tdesBody_frame s) ?_ ?_
  · rintro u ⟨frame, -, -, -, htv, -⟩
    exact running_of_tree (by rw [frame]; exact h.fault) (by rw [frame]; exact h.err) htv
  · rintro e u ⟨rfl | rfl, -⟩ <;> decide

theorem rbitBody_running {s : State} (h : s.Running) : (rbitBody s).All State.Running (fun e _ => e ≠ .none) :=
  all_mono (rbitBody_frame s) (fun _ hu => h.of_tablesFrame (tablesFrame_of_rbit hu)) (fun e u ⟨he, _⟩ => by rw [he]; decide)

theorem emitBody_running {s : State} (h : s.Running) : (emitBody s).All State.Running (fun e _ => e ≠ .none) :=
  all_mono (emitBody_frame s) (fun _ hu => h.of_tablesFrame (tablesFrame_of_emitFrame hu)) (fun e u ⟨he, _⟩ => by rw [he]; decide)

theorem rseedBody_running {s : State} (h : s.Running) : (rseedBody s).All State.Running (fun e _ => e ≠ .none) :=
  all_mono (rseedBody_frame s) (fun _ hu => h.of_tablesFrame (tablesFrame_of_readFrame hu)) (fun e u ⟨he, _⟩ => by rw [he]; decide)

theorem rskip3Body_running {s : State} (h : s.Running) : (rskip3Body s).All State.Running (fun e _ => e ≠ .none) :=
  all_mono (skipBytes_frame 3 s) (fun _ hu => h.of_tablesFrame (tablesFrame_of_readFrame hu)) (fun e u ⟨he, _⟩ => by rw [he]; decide)

theorem walkBody_running {s : State} (h : s.Running) : (walkBody s).All State.Running (fun e _ => e ≠ .none) := by
  refine all_mono (walkBody_writes s) ?_ ?_
  · rintro u ⟨frame, htv⟩
    exact running_of_tree (by rw [frame]; exact h.fault) (by rw [frame]; exact h.err) (by rw [frame]; exact htv)
  · rintro e u ⟨rfl | rfl, -⟩ <;> decide

theorem encodeBody_running (s : State) : (encodeBody s).All State.Running (fun e _ => e ≠ .none) := by
  refine all_mono (encodeBody_frame s) ?_ (fun _ _ ⟨he, _⟩ => he)
  rintro u ⟨-, -, htv, -, -, -, hf, herr, -⟩
  exact running_of_tree hf herr htv

theorem decodeBody_running (s : State) : (decodeBody s).All State.Running (fun e _ => e ≠ .none) := by
  refine all_mono (decodeBody_frame s) ?_ (fun _ _ ⟨he, _⟩ => he)
  rintro u ⟨-, -, htv, -, -, -, hf, herr, -⟩
  exact running_of_tree hf herr htv

theorem invs_of_next {t u : State} (h : (.next u : Host.Outcome State Fault Refusal) = .next t) (hu : u.Running) :
    t.StatusInv ∧ t.NoTreeInv :=
  Host.Outcome.next.inj h ▸ hu.invs

theorem invs_of_finish {t : State} {r : Result State} (ht : r.finish = .next t) (h : r.All State.Running (fun e _ => e ≠ .none)) :
    t.StatusInv ∧ t.NoTreeInv := by
  obtain hok | ⟨e, u, he, rfl⟩ := finish_cases h ht
  · exact hok.invs
  · exact takeFault_invs u he

/-- A command on a running core leaves the status as its invariants ask. -/
theorem exec_invs {i : Instr} {s t : State} (hs : s.Running) (h : exec i s = .next t) : t.StatusInv ∧ t.NoTreeInv := by
  cases i with
  | nop => exact invs_of_next h hs
  | clr => exact invs_of_next h (running_clear s)
  | rewind => exact invs_of_next h (hs.of_tablesFrame rfl)
  | fcnt => exact invs_of_finish h (fcntBody_running hs)
  | tbuild =>
    rw [exec_tbuild] at h
    generalize hr : tbuildBody s = r at h
    exact invs_of_finish h (tbuildBody_running hr hs)
  | ctgen => exact invs_of_finish h (ctgenBody_running hs)
  | tser => exact invs_of_finish h (tserBody_running hs)
  | tdes => exact invs_of_finish h (tdesBody_running hs)
  | wbit b => exact invs_of_next h (hs.of_tablesFrame (tablesFrame_writeBits s [b]))
  | wflush => exact invs_of_next h (hs.of_tablesFrame (tablesFrame_flush s))
  | rbit => exact invs_of_finish h (rbitBody_running hs)
  | wmark => exact invs_of_next h (hs.of_tablesFrame (by rw [writeMarker_eq]; rfl))
  | emit => exact invs_of_finish h (emitBody_running hs)
  | encode => exact invs_of_finish h (encodeBody_running s)
  | rseed => exact invs_of_finish h (rseedBody_running hs)
  | ralign => exact invs_of_next h (hs.of_tablesFrame rfl)
  | rskip3 => exact invs_of_finish h (rskip3Body_running hs)
  | walk => exact invs_of_finish h (walkBody_running hs)
  | decode => exact invs_of_finish h (decodeBody_running s)

/-- What a step of a halted core does to its status: it stays, or `CLR` or reset starts the core again. -/
theorem halted_step_invs {s t : State} (hs : s.StatusInv) (hf : s.fault = true) (h : step s = .next t) :
    t.StatusInv ∧ t.NoTreeInv := by
  obtain hframe | ⟨rest, ⟨-, rfl⟩ | ⟨-, rfl⟩⟩ := step_of_halted hf h
  · obtain ⟨code, cleared⟩ := hs
    rw [hframe]
    exact ⟨⟨code, cleared⟩, fun hf' => absurd (hf.symm.trans hf') (by decide)⟩
  · exact (running_clear _).invs
  · exact (running_hardReset _).invs

/-- Settles O54: by whether the core is halted; a running one runs a command, rejects a word, or leaves its status alone. -/
theorem stepKeepsTheStatusInvariants : Obligations.StepKeepsTheStatusInvariants := by
  intro s t hs hn h
  cases hf : s.fault with
  | true => exact halted_step_invs hs hf h
  | false =>
    have hrun := running_of_invs hs hn hf
    obtain rfl | ⟨u, ⟨rest, rfl⟩, hu⟩ := step_cases h
    · exact ⟨hs, hn⟩
    · have hpop : ({ s with pending := rest } : State).Running := hrun.of_tablesFrame rfl
      obtain rfl | ⟨i, -, hi⟩ | ⟨-, rfl⟩ | ⟨n, rfl⟩ | ⟨bytes, -, rfl⟩ | rfl := hu
      · exact hpop.invs
      · exact exec_invs hpop hi
      · exact takeFault_invs _ (by decide)
      · exact (hpop.of_tablesFrame (t := State.readPort _ n) rfl).invs
      · exact (hpop.of_tablesFrame (t := State.bindInput _ bytes) rfl).invs
      · exact (running_hardReset _).invs

end Sys2Proof.Machine

/-! Progress (`70_reset_and_hazards.md` R295): over a short input and a tree that `TV` tells the truth about, no body gets stuck, so every
command has an effect or takes a fault of the core. -/

namespace Sys2Proof.Machine

/-- The body does not end where the spec gives nothing (logs 10 and 11). -/
def Result.Completes {α : Type} (r : Result α) : Prop := ∀ g, r ≠ .stuck g

@[simp] theorem completes_ok {α : Type} (a : α) : (Result.ok a).Completes := nofun

@[simp] theorem completes_raised {α : Type} (e : FaultCode) (s : State) : (Result.raised e s : Result α).Completes := nofun

theorem completes_andThen {α β : Type} {P : α → Prop} {Q : FaultCode → State → Prop} {r : Result α} {f : α → Result β}
    (hr : r.Completes) (h : r.All P Q) (hf : ∀ a, P a → (f a).Completes) : (r.andThen f).Completes := by
  cases r with
  | ok a => exact hf a h
  | raised e s => exact completes_raised e s
  | stuck g => exact absurd rfl (hr g)

theorem safe_of_completes {r : Result State} (h : r.Completes) : SafeOutcome r.finish := by
  cases r with
  | ok t => exact ⟨t, rfl⟩
  | raised e u => exact ⟨u.takeFault e, rfl⟩
  | stuck g => exact absurd rfl (h g)

theorem safe_next (t : State) : SafeOutcome (.next t) := ⟨t, rfl⟩

theorem fcntBody_completes {s : State} (h : s.StreamInv) : (fcntBody s).Completes := by
  obtain ⟨t, hrun, -⟩ | ⟨t, p, v, q, hrun, -⟩ := fcntBody_cases h <;> simp [hrun]

theorem tbuildBody_completes (s : State) : (tbuildBody s).Completes := by
  by_cases h : ∃ v, s.count v ≠ 0#32
  · obtain ⟨t, tr, hrun, -⟩ := tbuildBody_tree h
    simp [hrun]
  · obtain ⟨hrun, -⟩ := tbuildBody_empty s (by simpa using h)
    simp [hrun]

theorem ctgenBody_completes {s : State} (h : s.tv = true → ∃ tr, s.tree = some tr) : (ctgenBody s).Completes := by
  cases htv : s.tv with
  | false => simp [ctgenBody_noTree htv]
  | true =>
    obtain ⟨tr, htree⟩ := h htv
    simp [ctgenBody_eq s htv, htree]

theorem tserBody_completes {s : State} (h : s.tv = true → ∃ tr, s.tree = some tr) : (tserBody s).Completes := by
  cases htv : s.tv with
  | false => simp [tserBody_noTree htv]
  | true =>
    obtain ⟨tr, htree⟩ := h htv
    simp [tserBody_eq s htv, htree]

theorem walkBody_completes {s : State} (hs : s.StreamInv) (h : s.tv = true → ∃ tr, s.tree = some tr) : (walkBody s).Completes := by
  cases htv : s.tv with
  | false => simp [walkBody_noTree htv]
  | true =>
    obtain ⟨tr, htree⟩ := h htv
    obtain ⟨e, t, -, hrun, -⟩ | ⟨t, -, hrun, -⟩ := walkBody_of_tree hs htv htree <;> simp [hrun]

theorem tdesBody_completes {s : State} (h : s.StreamInv) : (tdesBody s).Completes := by
  obtain ⟨tr, x, u, -, -, hrun, -⟩ | ⟨u, hrun, -⟩ | ⟨u, hrun, -⟩ := tdesBody_cases s h <;> simp [hrun]

theorem rbitBody_completes (s : State) : (rbitBody s).Completes := by
  unfold rbitBody
  split <;> simp

theorem emitBody_completes {s : State} (h : s.StreamInv) : (emitBody s).Completes := by
  cases hcv : s.cv with
  | false => simp [emitBody_noTable hcv]
  | true =>
    rw [emitBody_eq_loop hcv]
    obtain ⟨x, -, hrun⟩ | ⟨p, v, q, x, -, -, -, hrun⟩ := emitLoop_cases s.bytesLeft s h (bytesLeft_eq s).ge <;> simp [hrun]

theorem rseedBody_completes (s : State) : (rseedBody s).Completes := by
  unfold rseedBody
  split <;> simp

theorem rskip3Body_completes {s : State} (h : s.StreamInv) : (rskip3Body s).Completes := by
  rcases Nat.lt_or_ge s.inp.length (s.iptr.toNat + 3) with hfewer | hthree
  · simp [rskip3Body_of_fewer h hfewer]
  · simp [rskip3Body_of_three h hthree]

theorem decodeBody_completes {s : State} (hshort : s.inp.length < Config.inputLimit) : (decodeBody s).Completes := by
  obtain ⟨t, hrun⟩ | ⟨e, t, hrun, -⟩ := decodeBody_cases hshort <;> simp [hrun]

/-- `ENCODE` after its scan (R217, steps 2 to 6). -/
def encodeFromBuild (s : State) : Result State :=
  (tbuildBody s).andThen fun s2 =>
  (ctgenBody s2).andThen fun s3 =>
  (tserBody s3).andThen fun s4 =>
  (emitBody s4.flush.writeMarker.rewind).andThen fun s5 =>
  .ok s5.flush

theorem encodeBody_eq (s : State) : encodeBody s = (encodeScan s.clear).andThen encodeFromBuild := rfl

/-- From the builder on `ENCODE` completes: the tree it needs is the one it builds, and the input is what was bound. -/
theorem encodeFromBuild_completes {s : State} (hshort : s.inp.length < Config.inputLimit) : (encodeFromBuild s).Completes := by
  unfold encodeFromBuild
  have hbuild := tbuildBody_completes s
  generalize hr : tbuildBody s = r at hbuild
  refine completes_andThen hbuild (tbuildBody_frame hr) ?_
  rintro s2 ⟨frame2, hwf, -⟩
  obtain ⟨tr, htree, -⟩ := wellFormed_tree hwf
  refine completes_andThen (ctgenBody_completes fun _ => ⟨tr, htree⟩) (ctgenBody_frame s2) ?_
  rintro s3 ⟨frame3, -⟩
  have htree3 : s3.tree = some tr := by
    rw [← htree]
    exact tree_congr (by rw [frame3]) (by rw [frame3]) (by rw [frame3])
  refine completes_andThen (tserBody_completes fun _ => ⟨tr, htree3⟩) (tserBody_frame s3) ?_
  rintro s4 ⟨tr4, -, hs4⟩
  have hinp : s4.flush.writeMarker.rewind.inp = s.inp := by
    rw [rewind_inp, writeMarker_inp, flush_inp, hs4, writeBits_inp, frame3, frame2]
  exact completes_andThen (emitBody_completes (streamInv_of_iptr_zero (hinp ▸ hshort) rfl)) (emitBody_frame _)
    fun s5 _ => completes_ok _

theorem encodeScan_completes {s : State} (h : s.StreamInv) : (encodeScan s).Completes := by
  unfold encodeScan
  refine completes_andThen (fcntBody_completes h) (fcntBody_frame s) fun u _ => ?_
  split <;> simp

theorem encodeScan_inp (s : State) : (encodeScan s).All (fun u => u.inp = s.inp) (fun _ _ => True) := by
  unfold encodeScan
  refine all_andThen (all_mono (fcntBody_frame s) (fun _ hu => hu) (fun _ _ _ => trivial)) fun u hu => ?_
  split
  · trivial
  · show u.inp = s.inp
    rw [hu]

theorem encodeBody_completes {s : State} (hshort : s.inp.length < Config.inputLimit) : (encodeBody s).Completes := by
  rw [encodeBody_eq]
  exact completes_andThen (encodeScan_completes (streamInv_of_iptr_zero hshort rfl)) (encodeScan_inp s.clear)
    fun u hu => encodeFromBuild_completes (hu ▸ hshort)

/-- Every command has an effect where the streams and the tree are as their invariants ask. -/
theorem exec_safe {s : State} (hs : s.StreamInv) (ht : s.TreeInv) (i : Instr) : SafeOutcome (exec i s) := by
  have htree : s.tv = true → ∃ tr, s.tree = some tr := fun htv =>
    let ⟨tr, h, _⟩ := wellFormed_tree (ht htv).1
    ⟨tr, h⟩
  cases i with
  | nop => exact safe_next _
  | clr => exact safe_next _
  | rewind => exact safe_next _
  | fcnt => exact safe_of_completes (fcntBody_completes hs)
  | tbuild =>
    rw [exec_tbuild]
    exact safe_of_completes (tbuildBody_completes s)
  | ctgen => exact safe_of_completes (ctgenBody_completes htree)
  | tser => exact safe_of_completes (tserBody_completes htree)
  | tdes => exact safe_of_completes (tdesBody_completes hs)
  | wbit b => exact safe_next _
  | wflush => exact safe_next _
  | rbit => exact safe_of_completes (rbitBody_completes s)
  | wmark => exact safe_next _
  | emit => exact safe_of_completes (emitBody_completes hs)
  | encode => exact safe_of_completes (encodeBody_completes hs.short)
  | rseed => exact safe_of_completes (rseedBody_completes s)
  | ralign => exact safe_next _
  | rskip3 => exact safe_of_completes (rskip3Body_completes hs)
  | walk => exact safe_of_completes (walkBody_completes hs htree)
  | decode => exact safe_of_completes (decodeBody_completes hs.short)

theorem command_safe {s : State} (hs : s.StreamInv) (ht : s.TreeInv) (w : CmdWord) : SafeOutcome (command w s) := by
  unfold command
  split
  · exact safe_next _
  · split
    · exact exec_safe hs ht _
    · exact safe_next _

theorem hostAction_safe {s : State} (hs : s.StreamInv) (ht : s.TreeInv) {a : HostAction} (ha : a.wf = true) :
    SafeOutcome (hostAction a s) := by
  cases a with
  | write n w =>
    by_cases hn : n = 0x000
    · subst hn
      exact command_safe hs ht w
    · rw [hostAction_write_other hn]
      exact safe_next _
  | read n => exact safe_next _
  | bind bytes =>
    rw [hostAction_bind_short s (of_decide_eq_true ha)]
    exact safe_next _
  | takeOut => exact safe_next _
  | hardReset => exact safe_next _

/-- Settles O58: of the invariants, those of the streams and of the tree are what it takes. -/
theorem noStepFromAnInvariantStateStops : Obligations.NoStepFromAnInvariantStateStops := by
  intro s hinv hadm
  cases hp : s.pending with
  | nil =>
    rw [hostActionsThatChangeNothing.2.2 s hp]
    exact safe_next s
  | cons a rest =>
    rw [step_of_pending hp]
    have hstream : ({ s with pending := rest } : State).StreamInv := hinv.stream.of_streams_eq rfl rfl
    have htree : ({ s with pending := rest } : State).TreeInv := treeInv_congr (s := s) rfl rfl rfl rfl rfl hinv.tree
    exact hostAction_safe hstream htree (hadm a (by rw [hp]; exact List.mem_cons_self))

end Sys2Proof.Machine

/-! The composites and their sequences (`70_reset_and_hazards.md` R292): a list of words runs like its bodies one after another, because a
`raise` halts the core and the rest of the list is ignored. -/

namespace Sys2Proof.Machine

/-- After a fault the rest of a list is ignored, unless it holds `CLR` (R263). -/
theorem runWords_of_halted {ws : List CmdWord} {s : State} (hf : s.fault = true) (hws : encode .clr ∉ ws) :
    runWords ws s = .next s := by
  induction ws with
  | nil => rfl
  | cons w ws ih =>
    rw [List.mem_cons, not_or] at hws
    obtain ⟨hw, hws⟩ := hws
    rw [runWords, command_of_halted hf (Ne.symm hw)]
    exact ih hws

/-- A list begins with `CLR`, halted or not. -/
theorem runWords_clr (ws : List CmdWord) (s : State) : runWords (encode .clr :: ws) s = runWords ws s.clear := by
  have hclr : command (encode .clr) s = .next s.clear := command_clr s
  rw [runWords, hclr]

theorem command_encode {s : State} (hs : s.Running) (i : Instr) : command (encode i) s = exec i s :=
  command_of_legal (fun hf => absurd (hs.fault.symm.trans hf) (by decide)) (decode_encode i)

/-- A command that has its effect, then the rest of the list. -/
theorem runWords_next {i : Instr} {s t : State} (hs : s.Running) (hrun : exec i s = .next t) (ws : List CmdWord) :
    runWords (encode i :: ws) s = runWords ws t := by
  rw [runWords, command_encode hs, hrun]

theorem runWords_stuck {i : Instr} {s : State} {g : Fault} (hs : s.Running) (hrun : exec i s = .fault g) (ws : List CmdWord) :
    runWords (encode i :: ws) s = .fault g := by
  rw [runWords, command_encode hs, hrun]

/-- A command by its body, then the rest of the list by what the bodies of the rest do. -/
theorem runWords_body {i : Instr} {s : State} {ws : List CmdWord} {r : Result State} {f : State → Result State} (hs : s.Running)
    (hrun : exec i s = r.finish) (hr : r.All State.Running (fun e _ => e ≠ .none)) (hws : encode .clr ∉ ws)
    (hrest : ∀ t, t.Running → runWords ws t = (f t).finish) : runWords (encode i :: ws) s = (r.andThen f).finish := by
  cases r with
  | ok t => exact (runWords_next hs hrun ws).trans (hrest t hr)
  | raised e u => exact (runWords_next hs hrun ws).trans (runWords_of_halted (takeFault_fault u e) hws)
  | stuck g => exact runWords_stuck hs hrun ws

/-- The last command of a list. -/
theorem runWords_last {i : Instr} {s : State} {r : Result State} (hs : s.Running) (hrun : exec i s = r.finish) :
    runWords [encode i] s = r.finish := by
  cases r with
  | ok t => exact runWords_next hs hrun []
  | raised e u => exact runWords_next hs hrun []
  | stuck g => exact runWords_stuck hs hrun []

/-! `ENCODE`. -/

/-- The list of R292 for `ENCODE`, as bodies: the scan is not tested for an empty input. -/
theorem runWords_encodeList (s : State) : runWords encodeList s = ((fcntBody s.clear).andThen encodeFromBuild).finish := by
  have hclear := running_clear s
  rw [encodeList, runWords_clr]
  refine runWords_body hclear (exec_fcnt _) (fcntBody_running hclear) (by decide) fun s1 h1 => ?_
  unfold encodeFromBuild
  have hbuild := exec_tbuild s1
  generalize hr : tbuildBody s1 = r at hbuild ⊢
  refine runWords_body h1 hbuild (tbuildBody_running hr h1) (by decide) fun s2 h2 => ?_
  refine runWords_body h2 (exec_ctgen _) (ctgenBody_running h2) (by decide) fun s3 h3 => ?_
  refine runWords_body h3 (exec_tser _) (tserBody_running h3) (by decide) fun s4 h4 => ?_
  have h5 : s4.flush.Running := h4.of_tablesFrame (tablesFrame_flush s4)
  have h6 : s4.flush.writeMarker.Running := h5.of_tablesFrame (by rw [writeMarker_eq]; rfl)
  have h7 : s4.flush.writeMarker.rewind.Running := h6.of_tablesFrame rfl
  rw [runWords_next h4 (exec_wflush s4), runWords_next h5 (exec_wmark _), runWords_next h6 (exec_rewind _)]
  refine runWords_body h7 (exec_emit _) (emitBody_running h7) (by decide) fun s8 h8 => ?_
  exact runWords_next h8 (exec_wflush s8) []

/-- Where the scan counted nothing, `TBUILD` raises what `ENCODE`'s own test would have raised, with the same effect (R148, R219). -/
theorem encodeFromBuild_of_no_count {s : State} (hcount : ∀ v, s.count v = 0#32) (hinq : s.inq = Vector.replicate 511 false) :
    (encodeFromBuild s).finish = .next (s.takeFault .emptyInput) := by
  obtain ⟨hrun, hinp, hiptr, hout, hinq', hpending, hreadData, hfree⟩ := tbuildBody_empty s hcount
  rw [encodeFromBuild, hrun, andThen_raised, finish_raised,
    faultEntryForgetsTheTables _ s _ hinp hiptr hout (hinq'.trans hinq.symm) hpending hreadData hfree]

/-- The test for an empty input makes no difference: `TOTAL` is 0 only where every count is. -/
theorem encodeScan_andThen_finish {s : State} (h : s.StreamInv) (hinq : s.inq = Vector.replicate 511 false) :
    ((encodeScan s).andThen encodeFromBuild).finish = ((fcntBody s).andThen encodeFromBuild).finish := by
  unfold encodeScan
  obtain ⟨u, hrun, hcount, htotal, -, hframe⟩ | ⟨u, p, v, q, hrun, -⟩ := fcntBody_cases h
  · rw [hrun, andThen_ok, andThen_ok]
    split
    next h0 =>
      have hrest : s.rest = [] := by
        rw [h0] at htotal
        exact List.length_eq_zero_iff.mp htotal.symm
      have hnone : ∀ v, u.count v = 0#32 := fun v => BitVec.eq_of_toNat_eq (by rw [hcount, hrest]; rfl)
      rw [encodeFromBuild_of_no_count hnone (by rw [hframe]; exact hinq), andThen_raised, finish_raised]
    next => rw [andThen_ok]
  · rw [hrun, andThen_raised, andThen_raised]

/-- Settles O43. -/
theorem encodeEqualsItsSequence : Obligations.EncodeEqualsItsSequence := by
  intro s hshort
  have hclear : s.clear.StreamInv := streamInv_of_iptr_zero hshort rfl
  rw [runWords_encodeList, exec_encode, encodeBody_eq, encodeScan_andThen_finish hclear rfl]

/-! `DECODE`. -/

/-- The bodies of the list of R292 for `DECODE`: `DECODE` without its renaming. -/
def decodeListBody (s : State) : Result State :=
  (rseedBody s.clear).andThen fun s1 =>
  (tdesBody s1).andThen fun s2 =>
  (rskip3Body s2.alignReader).andThen walkBody

theorem runWords_decodeList (s : State) : runWords decodeList s = (decodeListBody s).finish := by
  have hclear := running_clear s
  rw [decodeList, runWords_clr]
  refine runWords_body hclear (exec_rseed _) (rseedBody_running hclear) (by decide) fun s1 h1 => ?_
  refine runWords_body h1 (exec_tdes _) (tdesBody_running h1) (by decide) fun s2 h2 => ?_
  have h3 : s2.alignReader.Running := h2.of_tablesFrame rfl
  rw [runWords_next h2 (exec_ralign s2)]
  refine runWords_body h3 (exec_rskip3 _) (rskip3Body_running h3) (by decide) fun s4 h4 => ?_
  exact runWords_last h4 (exec_walk s4)

/-- The two end alike, but that the first may raise `CorruptStream` where the second raises `EndOfStream` (R242). -/
def Result.AgreesButForEnd {α : Type} (r q : Result α) : Prop :=
  r = q ∨ ∃ s, r = .raised .corruptStream s ∧ q = .raised .endOfStream s

theorem endAsCorrupt_of_ne {α : Type} {e : FaultCode} (he : e ≠ .endOfStream) (s : State) :
    (Result.raised e s : Result α).endAsCorrupt = .raised e s := by
  cases e with
  | endOfStream => exact absurd rfl he
  | _ => rfl

theorem agrees_andThen {α β : Type} (r : Result α) {f g : α → Result β} (h : ∀ a, (f a).AgreesButForEnd (g a)) :
    (r.andThen f).AgreesButForEnd (r.andThen g) := by
  cases r with
  | ok a => exact h a
  | raised e s => exact .inl rfl
  | stuck k => exact .inl rfl

theorem agrees_endAsCorrupt_andThen {α β : Type} (r : Result α) {f g : α → Result β} (h : ∀ a, (f a).AgreesButForEnd (g a)) :
    (r.endAsCorrupt.andThen f).AgreesButForEnd (r.andThen g) := by
  cases r with
  | ok a => exact h a
  | raised e s =>
    by_cases he : e = .endOfStream
    · subst he
      exact .inr ⟨s, rfl, rfl⟩
    · rw [endAsCorrupt_of_ne he]
      exact .inl rfl
  | stuck k => exact .inl rfl

/-- `DECODE` renames in two places, and is its list elsewhere. -/
theorem decodeBody_agrees (s : State) : (decodeBody s).AgreesButForEnd (decodeListBody s) :=
  agrees_endAsCorrupt_andThen _ fun _ => agrees_andThen _ fun _ => agrees_endAsCorrupt_andThen _ fun _ => .inl rfl

/-- Settles O49: the two bodies agree, and fault entry takes from the state at the `raise` what both compare. -/
theorem decodeAgreesWithItsSequence : Obligations.DecodeAgreesWithItsSequence := by
  intro s hshort
  rw [exec_decode, runWords_decodeList]
  obtain ⟨t, ht⟩ := safe_of_completes (decodeBody_completes hshort)
  obtain heq | ⟨u, hd, hl⟩ := decodeBody_agrees s
  · exact ⟨t, t, ht, heq ▸ ht, rfl, rfl, rfl, .inl rfl, fun _ => rfl⟩
  · rw [hd, hl]
    exact ⟨u.takeFault .corruptStream, u.takeFault .endOfStream, rfl, rfl, rfl, rfl, rfl, .inr ⟨rfl, rfl⟩, nofun⟩

end Sys2Proof.Machine
